-- ==== Sys2Proof/Word.lean ====
section
/-! DEFINITION. The plain word types of the machine: bytes and 64-bit values (00_scope.md R7). -/

namespace Sys2Proof

/-- One byte of memory or of an instruction (20_memory.md R60: memory is byte addressed). -/
abbrev Byte := BitVec 8

/-- A 64-bit value: a bitmap (RFBM, XCR0, XINUSE, XMODIFIED, XSTATE_BV), a register or an address (00_scope.md R7). -/
abbrev Quad := BitVec 64

end Sys2Proof
end

