-- ==== Sys2Proof/Config.lean ====
section
/-! DEFINITION. What an implementation fixes (00_scope.md R6) and the free values. The parameters of R6 that are
plain data form the structure `Config`, which State holds, so that every claim quantifies over them (log 1). The
values the spec leaves to a draw are opaque constants without a body, applied to the draw counter of the state
(log 43): nothing in Lean evaluates them, so a claim holds for every value. -/

namespace Sys2Proof

/-- The five operating modes (10_state.md R38). -/
inductive Mode where
  | realAddress
  | protectedMode
  | virtual8086
  | compatibility
  | bits64
  deriving DecidableEq, Repr, Inhabited

/-- A range of addresses: `size` addresses from `first` on. -/
structure Region where
  first : Nat
  size  : Nat
  deriving DecidableEq, Repr

/-- What CPUID leaf 0DH enumerates of one state component: its number, CompOffset and CompSize (10_state.md R29). -/
structure Component where
  index  : Nat
  offset : Nat
  size   : Nat
  deriving DecidableEq, Repr

/-- LinearWidth of 00_scope.md R6: the number of implemented linear-address bits. -/
inductive LinearWidth where
  | w48
  | w57
  deriving DecidableEq, Repr

/-- CheckExtent of 00_scope.md R6: whether an inaccessible byte of Extent that is not touched faults
(20_memory.md R76 case 3): open, never, or always. -/
inductive CheckExtent where
  | draw
  | touchedOnly
  | wholeExtent
  deriving DecidableEq, Repr

/-- MemFaultOrder of 00_scope.md R6: open, or canonical and limit first, then alignment, then #PF
(60_exceptions.md R191). -/
inductive MemFaultOrder where
  | draw
  | limitAlignPage
  deriving DecidableEq, Repr

/-- AcPolicy's two answers for a misaligned address (60_exceptions.md R186). -/
inductive AcChoice where
  | ac
  | gp
  deriving DecidableEq, Repr, Inhabited

/-- x87 state, state component 0 (10_state.md R30); `st` holds ST0 to ST7 in stack order. -/
structure X87 where
  fcw : BitVec 16
  fsw : BitVec 16
  ftw : BitVec 16
  fop : BitVec 11
  fip : Quad
  fcs : BitVec 16
  fdp : Quad
  fds : BitVec 16
  st  : Vector (BitVec 80) 8
  deriving DecidableEq, Repr

/-- X87Image of 00_scope.md R6: where the x87 step stores. `fxsave` is the default, the layout of 20_memory.md R64; any
other format is given by the offsets it covers without and with REX.W, its bytes being `Config.otherX87Byte`
(92_eei_decisions.md D15, log 22). -/
inductive X87Image where
  | fxsave
  | other (plain wide : List Nat)
  deriving DecidableEq, Repr

/-- XmmImage of 00_scope.md R6: where the XMM step stores. `fxsave` is the default, the layout of 20_memory.md R64; any
other format is given by the offsets of XMM0 to XMM7 and those of XMM8 to XMM15, its bytes being
`Config.otherXmmByte` (92_eei_decisions.md D15, log 22). -/
inductive XmmImage where
  | fxsave
  | other (low high : List Nat)
  deriving DecidableEq, Repr

/-- The parameters of 00_scope.md R6 that are plain data. -/
structure Config where
  /-- CPUID.01H:ECX.XSAVE[bit 26] (10_state.md R28). -/
  cpuidXsave : Bool
  /-- CPUID.(EAX=0DH,ECX=1):EAX.XSAVEOPT[bit 0] (10_state.md R28). -/
  cpuidXsaveopt : Bool
  /-- CompOffset and CompSize of the components 2 to 62 that exist (10_state.md R29). -/
  components : List Component
  /-- XCR0_SUPPORTED: which bits of XCR0 can be 1 (10_state.md R25). -/
  xcr0Supported : Quad
  /-- MXCSR_MASK, a constant of the processor (92_eei_decisions.md D18). -/
  mxcsrMask : BitVec 32
  /-- MxcsrOffset, default 24 (20_memory.md R64). -/
  mxcsrOffset : Nat
  /-- MxcsrMaskOffset, default 28 (20_memory.md R64). -/
  mxcsrMaskOffset : Nat
  /-- XstateBvOffset, default 512 (20_memory.md R65). -/
  xstateBvOffset : Nat
  /-- CPUID.(EAX=07H,ECX=0):EBX[bit 13]: FCS and FDS are stored as 0 (20_memory.md R64). -/
  fcsFdsDeprecated : Bool
  x87Image : X87Image
  xmmImage : XmmImage
  linearWidth : LinearWidth
  /-- Modes: the operating modes the processor admits. -/
  modes : List Mode
  checkExtent : CheckExtent
  memFaultOrder : MemFaultOrder
  /-- Locations with read or write side effects: memory-mapped I/O (20_memory.md R78). -/
  devices : List Region
  deriving DecidableEq, Repr

/-- AcPolicy (60_exceptions.md R186, log 23): which exception a misaligned linear address raises when alignment
checking is enabled at CPL 3. -/
opaque Config.acPolicy : Quad → AcChoice

/-- The byte that x87 state has at an offset of a format other than the default, without and with REX.W (00_scope.md R6,
log 22). -/
opaque Config.otherX87Byte : Bool → X87 → Nat → Byte

/-- The byte that the XMM registers have at an offset of a format other than the default, in each mode (00_scope.md R6,
log 22). -/
opaque Config.otherXmmByte : Mode → Vector (BitVec 128) 16 → Nat → Byte

/-- The byte that execution number `n` leaves in the reserved byte at this offset (20_memory.md R69, log 35). -/
opaque Config.freeReserved : Nat → Nat → Byte

/-- Whether execution number `n`, outside 64-bit mode, stores the byte of XMM8 to XMM15 at this offset
(40_xsaveopt.md R146, log 26). -/
opaque Config.freeUpperXmm : Nat → Nat → Bool

/-- Whether execution number `n`, ended by a limit, canonical or page fault, has stored its byte at this offset
(20_memory.md R79, log 15). -/
opaque Config.freeLanded : Nat → Nat → Bool

/-- Whether execution number `n` faults for an inaccessible byte of Extent it does not touch (20_memory.md R76
case 3, log 14). -/
opaque Config.freeExtentFault : Nat → Bool

/-- Which of the memory-operand faults that apply execution number `n` reports (60_exceptions.md R191, log 12). -/
opaque Config.freeFaultChoice : Nat → Nat

/-- The page-fault error code of execution number `n` (60_exceptions.md R193, log 49). -/
opaque Config.freeFaultCode : Nat → BitVec 32

end Sys2Proof
end

