-- ==== Sys2Proof/Syntax.lean ====
section
/-! DEFINITION. The syntax of the two instructions, whole: prefixes, REX bits, and every form of the memory operand
(30_encoding.md R100 to R119). Nothing an encoding holds is dropped, so that an instruction has one byte sequence. -/

namespace Sys2Proof

/-- The six segment registers (10_state.md R39). -/
inductive SegName where
  | es
  | cs
  | ss
  | ds
  | fs
  | gs
  deriving DecidableEq, Repr

/-- The default address size of the code: 16 bits, 32 bits, or 64-bit mode (30_encoding.md R110). -/
inductive CodeSize where
  | c16
  | c32
  | c64
  deriving DecidableEq, Repr

/-- The address size of one instruction (30_encoding.md R110). -/
inductive AddrSize where
  | a16
  | a32
  | a64
  deriving DecidableEq, Repr

/-- One prefix byte (30_encoding.md R100). `rex` is a byte 40H to 4FH of 64-bit mode; in the prefix list of an
instruction it is one that does not stand immediately before the opcode and is ignored. -/
inductive Prefix where
  | lock
  | repne
  | rep
  | seg (s : SegName)
  | opSize
  | addrSize
  | rex (wrxb : BitVec 4)
  deriving DecidableEq, Repr

/-- The bits of the REX prefix other than W (30_encoding.md R119). -/
structure Rex where
  r : Bool
  x : Bool
  b : Bool
  deriving DecidableEq, Repr

/-- The register part of the 16-bit addressing forms, r/m 000 to 111 (30_encoding.md R109). -/
inductive Form16 where
  | bxSi
  | bxDi
  | bpSi
  | bpDi
  | si
  | di
  | bp
  | bx
  deriving DecidableEq, Repr

/-- The displacement of a 16-bit form: mod 00, 01, 10 (30_encoding.md R109). -/
inductive Disp16 where
  | none
  | d8 (v : BitVec 8)
  | d16 (v : BitVec 16)
  deriving DecidableEq, Repr

/-- The displacement of a 32-bit or 64-bit form: mod 00, 01, 10 (30_encoding.md R106). -/
inductive Disp32 where
  | none
  | d8 (v : BitVec 8)
  | d32 (v : BitVec 32)
  deriving DecidableEq, Repr

/-- The forms of the memory operand ModRM:r/m. Register fields are the three bits of the encoding; REX.X and REX.B
extend them (30_encoding.md R106 to R109). -/
inductive MemOperand where
  /-- A 16-bit form with registers. -/
  | base16 (form : Form16) (disp : Disp16)
  /-- The 16-bit form mod 00, r/m 110: a bare disp16. -/
  | abs16 (disp : BitVec 16)
  /-- A register base without SIB byte. -/
  | base (reg : BitVec 3) (disp : Disp32)
  /-- mod 00, r/m 101: a bare disp32, RIP-relative in 64-bit mode. -/
  | disp32 (disp : BitVec 32)
  /-- r/m 100 with a base register in the SIB byte. -/
  | sib (scale : BitVec 2) (index : BitVec 3) (base : BitVec 3) (disp : Disp32)
  /-- r/m 100, mod 00, SIB.base 101: no base register, a disp32. -/
  | sibNoBase (scale : BitVec 2) (index : BitVec 3) (disp : BitVec 32)
  deriving DecidableEq, Repr

/-- The two instructions (30_encoding.md R118): the prefixes before the REX prefix, the REX prefix, the operand.
XSAVEOPT has no REX prefix or one with W = 0; XSAVEOPT64 has one with W = 1. -/
inductive Instr where
  | xsaveopt (pfx : List Prefix) (rex : Option Rex) (mem : MemOperand)
  | xsaveopt64 (pfx : List Prefix) (rex : Rex) (mem : MemOperand)
  deriving DecidableEq, Repr

/-- Why bytes are not one of the two instructions (30_encoding.md R113, R115, R118). -/
inductive DecodeError where
  /-- The bytes end inside the instruction. -/
  | truncated
  /-- More than 15 bytes (R113). -/
  | tooLong
  /-- After the prefixes the bytes are not 0F AE (R118 step 3); so too a byte 40H to 4FH outside 64-bit mode (R116). -/
  | notTheOpcode
  /-- ModRM.reg is not 6 (R115). -/
  | otherExtension
  /-- ModRM.mod is 11 (R115). -/
  | registerForm
  /-- 66H, F2H or F3H among the prefixes (R102). -/
  | mandatoryPrefix
  /-- Two prefixes of one group (R113). -/
  | repeatedPrefix
  deriving DecidableEq, Repr

end Sys2Proof
end

