-- ==== Sys2Proof/Decode.lean ====
section
/-! DEFINITION. The decoder, total on any bytes and rejecting by name (30_encoding.md R100 to R119), and after it the
encoder, written from the same tables. The decoder is given the bytes at the instruction's address and the code size
(64-bit mode, or the default address size outside it). -/

namespace Sys2Proof

/-- Byte `j` of a value in little-endian order (20_memory.md R61). -/
def byteAt (v j : Nat) : Byte := BitVec.ofNat 8 (v >>> (8 * j))

/-- The segment a segment-override prefix names (30_encoding.md R111). -/
def segPrefixByte : SegName → Byte
  | .es => 0x26#8
  | .cs => 0x2E#8
  | .ss => 0x36#8
  | .ds => 0x3E#8
  | .fs => 0x64#8
  | .gs => 0x65#8

/-- The prefix a byte is, if it is one: the legacy prefixes in every mode, 40H to 4FH in 64-bit mode only
(30_encoding.md R100, R103). -/
def prefixOf (cs : CodeSize) (b : Byte) : Option Prefix :=
  if b = 0xF0#8 then some .lock
  else if b = 0xF2#8 then some .repne
  else if b = 0xF3#8 then some .rep
  else if b = 0x26#8 then some (.seg .es)
  else if b = 0x2E#8 then some (.seg .cs)
  else if b = 0x36#8 then some (.seg .ss)
  else if b = 0x3E#8 then some (.seg .ds)
  else if b = 0x64#8 then some (.seg .fs)
  else if b = 0x65#8 then some (.seg .gs)
  else if b = 0x66#8 then some .opSize
  else if b = 0x67#8 then some .addrSize
  else if cs = .c64 ∧ b.extractLsb' 4 4 = 4#4 then some (.rex (b.extractLsb' 0 4))
  else none

/-- R118 step 1: the prefix bytes in front, and what follows them. -/
def takePrefixes (cs : CodeSize) : List Byte → List Prefix × List Byte
  | [] => ([], [])
  | b :: bs =>
    match prefixOf cs b with
    | some p => (p :: (takePrefixes cs bs).1, (takePrefixes cs bs).2)
    | none => ([], b :: bs)

/-- R118 step 2: only a REX byte that stands last, immediately before the opcode, is the REX prefix. -/
def splitRex (ps : List Prefix) : List Prefix × Option (BitVec 4) :=
  match ps.getLast? with
  | some (.rex v) => (ps.dropLast, some v)
  | _ => (ps, none)

/-- The REX bits R, X and B (30_encoding.md R100). -/
def rexOfBits (v : BitVec 4) : Rex := ⟨v.getLsbD 2, v.getLsbD 1, v.getLsbD 0⟩

/-- The prefixes that `NP` forbids (30_encoding.md R102). -/
def isMandatoryPrefix : Prefix → Bool
  | .repne => true
  | .rep => true
  | .opSize => true
  | _ => false

/-- A LOCK prefix (30_encoding.md R114). -/
def isLockPrefix : Prefix → Bool
  | .lock => true
  | _ => false

/-- A segment-override prefix. -/
def isSegPrefix : Prefix → Bool
  | .seg _ => true
  | _ => false

/-- The 67H prefix. -/
def isAddrSizePrefix : Prefix → Bool
  | .addrSize => true
  | _ => false

/-- A byte 40H to 4FH of 64-bit mode. -/
def isRexPrefix : Prefix → Bool
  | .rex _ => true
  | _ => false

/-- No two prefixes of one group (30_encoding.md R113). -/
def groupsOnce (pfx : List Prefix) : Bool :=
  decide (pfx.countP isLockPrefix ≤ 1) && decide (pfx.countP isSegPrefix ≤ 1)
    && decide (pfx.countP isAddrSizePrefix ≤ 1)

/-- The address size: the default of the code, switched by one 67H prefix (30_encoding.md R110). -/
def addrSizeOf (cs : CodeSize) (pfx : List Prefix) : AddrSize :=
  match cs, pfx.any isAddrSizePrefix with
  | .c64, false => .a64
  | .c64, true => .a32
  | .c32, false => .a32
  | .c32, true => .a16
  | .c16, false => .a16
  | .c16, true => .a32

/-- The 16-bit form of an r/m field (30_encoding.md R109). -/
def form16OfBits (rm : BitVec 3) : Form16 :=
  if rm = 0#3 then .bxSi
  else if rm = 1#3 then .bxDi
  else if rm = 2#3 then .bpSi
  else if rm = 3#3 then .bpDi
  else if rm = 4#3 then .si
  else if rm = 5#3 then .di
  else if rm = 6#3 then .bp
  else .bx

/-- The r/m field of a 16-bit form (30_encoding.md R109). -/
def form16Bits : Form16 → BitVec 3
  | .bxSi => 0#3
  | .bxDi => 1#3
  | .bpSi => 2#3
  | .bpDi => 3#3
  | .si => 4#3
  | .di => 5#3
  | .bp => 6#3
  | .bx => 7#3

/-- An 8-bit displacement and what follows it. -/
def takeDisp8 : List Byte → Option (BitVec 8 × List Byte)
  | b0 :: t => some (b0, t)
  | _ => none

/-- A 16-bit displacement, least significant byte first (30_encoding.md R112). -/
def takeDisp16 : List Byte → Option (BitVec 16 × List Byte)
  | b0 :: b1 :: t => some (b1 ++ b0, t)
  | _ => none

/-- A 32-bit displacement, least significant byte first (30_encoding.md R112). -/
def takeDisp32 : List Byte → Option (BitVec 32 × List Byte)
  | b0 :: b1 :: b2 :: b3 :: t => some (b3 ++ b2 ++ b1 ++ b0, t)
  | _ => none

/-- The operand of a 16-bit address size (30_encoding.md R109). -/
def decodeMem16 (mod : BitVec 2) (rm : BitVec 3) (bs : List Byte) : Option (MemOperand × List Byte) :=
  if mod = 0#2 then
    if rm = 6#3 then (takeDisp16 bs).map fun d => (.abs16 d.1, d.2)
    else some (.base16 (form16OfBits rm) .none, bs)
  else if mod = 1#2 then (takeDisp8 bs).map fun d => (.base16 (form16OfBits rm) (.d8 d.1), d.2)
  else (takeDisp16 bs).map fun d => (.base16 (form16OfBits rm) (.d16 d.1), d.2)

/-- The operand after a SIB byte (30_encoding.md R107). -/
def decodeSib (mod : BitVec 2) (sib : Byte) (bs : List Byte) : Option (MemOperand × List Byte) :=
  let scale := sib.extractLsb' 6 2
  let index := sib.extractLsb' 3 3
  let base := sib.extractLsb' 0 3
  if mod = 0#2 then
    if base = 5#3 then (takeDisp32 bs).map fun d => (.sibNoBase scale index d.1, d.2)
    else some (.sib scale index base .none, bs)
  else if mod = 1#2 then (takeDisp8 bs).map fun d => (.sib scale index base (.d8 d.1), d.2)
  else (takeDisp32 bs).map fun d => (.sib scale index base (.d32 d.1), d.2)

/-- The operand of a 32-bit or 64-bit address size (30_encoding.md R106, R108). -/
def decodeMem32 (mod : BitVec 2) (rm : BitVec 3) (bs : List Byte) : Option (MemOperand × List Byte) :=
  if rm = 4#3 then
    match bs with
    | sib :: t => decodeSib mod sib t
    | [] => none
  else if mod = 0#2 then
    if rm = 5#3 then (takeDisp32 bs).map fun d => (.disp32 d.1, d.2)
    else some (.base rm .none, bs)
  else if mod = 1#2 then (takeDisp8 bs).map fun d => (.base rm (.d8 d.1), d.2)
  else (takeDisp32 bs).map fun d => (.base rm (.d32 d.1), d.2)

/-- The operand by the address size (R118 step 8). -/
def decodeMem (a : AddrSize) (mod : BitVec 2) (rm : BitVec 3) (bs : List Byte) : Option (MemOperand × List Byte) :=
  match a with
  | .a16 => decodeMem16 mod rm bs
  | .a32 => decodeMem32 mod rm bs
  | .a64 => decodeMem32 mod rm bs

/-- R118 step 7: XSAVEOPT64 when there is a REX prefix with W = 1, else XSAVEOPT. -/
def instrOf (pfx : List Prefix) (rex : Option (BitVec 4)) (mem : MemOperand) : Instr :=
  match rex with
  | none => .xsaveopt pfx none mem
  | some v => if v.getLsbD 3 then .xsaveopt64 pfx (rexOfBits v) mem else .xsaveopt pfx (some (rexOfBits v)) mem

/-- How many bytes a displacement of a 32-bit or 64-bit form has (30_encoding.md R113). -/
def dispLength : Disp32 → Nat
  | .none => 0
  | .d8 _ => 1
  | .d32 _ => 4

/-- How many bytes follow the ModRM byte (30_encoding.md R113). -/
def memLength : MemOperand → Nat
  | .base16 _ .none => 0
  | .base16 _ (.d8 _) => 1
  | .base16 _ (.d16 _) => 2
  | .abs16 _ => 2
  | .base _ d => dispLength d
  | .disp32 _ => 4
  | .sib _ _ _ d => 1 + dispLength d
  | .sibNoBase _ _ _ => 5

/-- The length L of an instruction: prefixes, REX, two opcode bytes, ModRM, SIB, displacement (30_encoding.md R113). -/
def instrLength : Instr → Nat
  | .xsaveopt pfx none mem => pfx.length + 3 + memLength mem
  | .xsaveopt pfx (some _) mem => pfx.length + 1 + 3 + memLength mem
  | .xsaveopt64 pfx _ mem => pfx.length + 1 + 3 + memLength mem

/-- What running out of bytes means: past 15 bytes the instruction is too long (30_encoding.md R113). -/
def runOut (window : List Byte) : DecodeError := if 15 ≤ window.length then .tooLong else .truncated

/-- R118 steps 4 to 9, after the opcode: the ModRM byte `m` and the bytes `bs` after it. LOCK stays among the prefixes, and
#UD is raised when the instruction is executed (step 6); that a repeated prefix, missing operand bytes or more than 15
bytes are refused here, before it, is the model's choice (log 53). -/
def decodeModRm (cs : CodeSize) (pfx : List Prefix) (rex : Option (BitVec 4)) (m : Byte) (bs window : List Byte) :
    Except DecodeError (Instr × List Byte) :=
  let mod := m.extractLsb' 6 2
  let reg := m.extractLsb' 3 3
  let rm := m.extractLsb' 0 3
  if reg ≠ 6#3 then .error .otherExtension
  else if mod = 3#2 then .error .registerForm
  else if pfx.any isMandatoryPrefix then .error .mandatoryPrefix
  else if groupsOnce pfx = false then .error .repeatedPrefix
  else
    match decodeMem (addrSizeOf cs pfx) mod rm bs with
    | none => .error (runOut window)
    | some (mem, rest) =>
      if instrLength (instrOf pfx rex mem) ≤ 15 then .ok (instrOf pfx rex mem, rest) else .error .tooLong

/-- The decode procedure of 30_encoding.md R118: the instruction the bytes begin with, and the bytes after it. -/
def decode (cs : CodeSize) (bs : List Byte) : Except DecodeError (Instr × List Byte) :=
  let ps := (takePrefixes cs bs).1
  match (takePrefixes cs bs).2 with
  | [] => .error (runOut bs)
  | o1 :: t1 =>
    if o1 ≠ 0x0F#8 then .error .notTheOpcode
    else
      match t1 with
      | [] => .error (runOut bs)
      | o2 :: t2 =>
        if o2 ≠ 0xAE#8 then .error .notTheOpcode
        else
          match t2 with
          | [] => .error (runOut bs)
          | m :: t3 => decodeModRm cs (splitRex ps).1 (splitRex ps).2 m t3 bs

/-- The byte of a prefix (30_encoding.md R100). -/
def prefixByte : Prefix → Byte
  | .lock => 0xF0#8
  | .repne => 0xF2#8
  | .rep => 0xF3#8
  | .seg s => segPrefixByte s
  | .opSize => 0x66#8
  | .addrSize => 0x67#8
  | .rex v => 4#4 ++ v

/-- The REX byte 0100WRXB (30_encoding.md R103). -/
def rexByte (w : Bool) (r : Rex) : Byte :=
  4#4 ++ (BitVec.ofBool w ++ BitVec.ofBool r.r ++ BitVec.ofBool r.x ++ BitVec.ofBool r.b)

/-- The ModRM byte with reg = 110 (30_encoding.md R105). -/
def modRmByte (mod : BitVec 2) (rm : BitVec 3) : Byte := mod ++ 6#3 ++ rm

/-- The SIB byte (30_encoding.md R107). -/
def sibByte (scale : BitVec 2) (index base : BitVec 3) : Byte := scale ++ index ++ base

/-- A 16-bit displacement in memory order (30_encoding.md R112). -/
def disp16Bytes (d : BitVec 16) : List Byte := [d.extractLsb' 0 8, d.extractLsb' 8 8]

/-- A 32-bit displacement in memory order (30_encoding.md R112). -/
def disp32Bytes (d : BitVec 32) : List Byte :=
  [d.extractLsb' 0 8, d.extractLsb' 8 8, d.extractLsb' 16 8, d.extractLsb' 24 8]

/-- The ModRM byte, SIB byte and displacement of an operand (30_encoding.md R105 to R109). -/
def encodeMem : MemOperand → List Byte
  | .base16 f .none => [modRmByte 0#2 (form16Bits f)]
  | .base16 f (.d8 d) => [modRmByte 1#2 (form16Bits f), d]
  | .base16 f (.d16 d) => modRmByte 2#2 (form16Bits f) :: disp16Bytes d
  | .abs16 d => modRmByte 0#2 6#3 :: disp16Bytes d
  | .base r .none => [modRmByte 0#2 r]
  | .base r (.d8 d) => [modRmByte 1#2 r, d]
  | .base r (.d32 d) => modRmByte 2#2 r :: disp32Bytes d
  | .disp32 d => modRmByte 0#2 5#3 :: disp32Bytes d
  | .sib s i b .none => [modRmByte 0#2 4#3, sibByte s i b]
  | .sib s i b (.d8 d) => [modRmByte 1#2 4#3, sibByte s i b, d]
  | .sib s i b (.d32 d) => modRmByte 2#2 4#3 :: sibByte s i b :: disp32Bytes d
  | .sibNoBase s i d => modRmByte 0#2 4#3 :: sibByte s i 5#3 :: disp32Bytes d

/-- The bytes of an instruction, in memory order (30_encoding.md R100, R118). -/
def encode : Instr → List Byte
  | .xsaveopt pfx none mem => pfx.map prefixByte ++ (0x0F#8 :: 0xAE#8 :: encodeMem mem)
  | .xsaveopt pfx (some r) mem => pfx.map prefixByte ++ (rexByte false r :: 0x0F#8 :: 0xAE#8 :: encodeMem mem)
  | .xsaveopt64 pfx r mem => pfx.map prefixByte ++ (rexByte true r :: 0x0F#8 :: 0xAE#8 :: encodeMem mem)

/-- The operand forms that exist with a 16-bit address size (30_encoding.md R109). -/
def memFits16 : MemOperand → Bool
  | .base16 .bp .none => false
  | .base16 _ _ => true
  | .abs16 _ => true
  | _ => false

/-- The operand forms that exist with a 32-bit or 64-bit address size (30_encoding.md R106 to R108): r/m 100 calls for
a SIB byte, and with mod 00 the numbers 101 stand for the forms without a base. -/
def memFits32 : MemOperand → Bool
  | .base r .none => decide (r ≠ 4#3) && decide (r ≠ 5#3)
  | .base r _ => decide (r ≠ 4#3)
  | .disp32 _ => true
  | .sib _ _ b .none => decide (b ≠ 5#3)
  | .sib _ _ _ _ => true
  | .sibNoBase _ _ _ => true
  | _ => false

/-- The operand has an encoding with this address size. -/
def memFits (a : AddrSize) (m : MemOperand) : Bool :=
  match a with
  | .a16 => memFits16 m
  | .a32 => memFits32 m
  | .a64 => memFits32 m

/-- A row's bits as the opcode table numbers them (opcode_table.json, R118): the FIRST byte in memory order is the most
significant one, so ModRM is bits 7..0 of both rows (log 41). -/
def tableBytes (nbits w : Nat) : List Byte :=
  (List.range (nbits / 8)).map fun j => byteAt w (nbits / 8 - 1 - j)

/-- The bytes of a table row followed by zero bytes, up to the longest instruction (15 bytes, R113). -/
def tableWindow (nbits w : Nat) : List Byte := (tableBytes nbits w ++ List.replicate 15 0#8).take 15

/-- The instruction the decoder reads from a table row's bits. 64-bit mode is the one mode in which both rows decode
(30_encoding.md R116). -/
def decodeTableWord (nbits w : Nat) : Option Instr :=
  match decode .c64 (tableWindow nbits w) with
  | .ok (i, _) => some i
  | .error _ => none

end Sys2Proof
end

