-- ==== Sys2Proof/Machine/State.lean ====
section
/-! DEFINITION. The state of the machine as plain data, holding all of 10_state.md R20, the reasons a step can stop,
and the state after reset. -/

namespace Sys2Proof.Machine

/-- The sixteen general registers (10_state.md R22), numbered 0 to 15 in this order. -/
structure Gprs where
  rax : Quad
  rcx : Quad
  rdx : Quad
  rbx : Quad
  rsp : Quad
  rbp : Quad
  rsi : Quad
  rdi : Quad
  r8  : Quad
  r9  : Quad
  r10 : Quad
  r11 : Quad
  r12 : Quad
  r13 : Quad
  r14 : Quad
  r15 : Quad
  deriving DecidableEq, Repr

/-- What the model holds of a segment register (10_state.md R39): what translation needs of it. The spec states no width
of its parts; 64 bits of base and 32 bits of limit in every mode are the model's choice (log 52). -/
structure SegReg where
  selector : BitVec 16
  base     : Quad
  limit    : BitVec 32
  /-- The selector is null (92_eei_decisions.md D23). -/
  isNull   : Bool
  /-- A store through the segment is possible (92_eei_decisions.md D23). -/
  writable : Bool
  /-- The D bit, read of CS only (10_state.md R38). -/
  dflag    : Bool
  deriving DecidableEq, Repr

/-- The six segment registers (10_state.md R39). -/
structure Segs where
  cs : SegReg
  ds : SegReg
  es : SegReg
  fs : SegReg
  gs : SegReg
  ss : SegReg
  deriving DecidableEq, Repr

/-- The memory image of one of the components 2 to 62 (10_state.md R32); bytes past the list's end are 0 (log 50). -/
structure CompState where
  index : Nat
  bytes : List Byte
  deriving DecidableEq, Repr

/-- The tuple XRSTOR_INFO holds (10_state.md R35). -/
structure XrstorInfo where
  cpl      : Fin 4
  vmxnr    : Bool
  laxa     : Quad
  compMask : Quad
  deriving DecidableEq, Repr

/-- What a privilege level may do with a range of linear addresses (20_memory.md R75). -/
inductive Perm where
  | none
  | read
  | readWrite
  deriving DecidableEq, Repr

/-- A range of linear addresses and the locations behind it, with the permissions of CPL 0 to 2 and of CPL 3
(20_memory.md R75, log 38). -/
structure PageRange where
  lin        : Nat
  size       : Nat
  loc        : Nat
  supervisor : Perm
  user       : Perm
  deriving DecidableEq, Repr

/-- Memory: location and byte, in one canonical form (see `Memory.wf` in Machine/Ops.lean). -/
abbrev Memory := List Host.Cell

/-- The state of the machine (10_state.md R20). -/
structure State where
  gpr : Gprs
  /-- The offset in CS of the instruction being executed (R23), held in 64 bits in every mode (log 51). -/
  pc : Quad
  /-- RFLAGS (R24). -/
  rflags : Quad
  /-- CR0 (R26). -/
  cr0 : Quad
  /-- CR4 (R27). -/
  cr4 : Quad
  /-- XCR0 (R25). -/
  xcr0 : Quad
  /-- State component 0 (R30). -/
  x87 : X87
  /-- XMM0 to XMM15, of state component 1 (R31). -/
  xmm : Vector (BitVec 128) 16
  /-- MXCSR, of state component 1 (R31). -/
  mxcsr : BitVec 32
  /-- State components 2 to 62 (R32). -/
  comps : List CompState
  /-- XINUSE (R33). -/
  xinuse : Quad
  /-- XMODIFIED (R34). -/
  xmodified : Quad
  /-- XRSTOR_INFO (R35); `none` matches no execution. -/
  xrstorInfo : Option XrstorInfo
  /-- The current privilege level (R36); read it with `currentCpl`. -/
  cpl : Fin 4
  /-- In VMX non-root operation (R37). -/
  vmxNonRoot : Bool
  /-- The operating mode (R38). -/
  mode : Mode
  /-- The segment registers (R39). -/
  segs : Segs
  /-- Translation state (R43); `none` is no paging: every linear address is its own location. -/
  paging : Option (List PageRange)
  /-- Armed data breakpoints, as ranges of linear addresses (60_exceptions.md R200). -/
  breakpoints : List Region
  mem : Memory
  /-- The code bytes supplied: the linear address of the first, and how many (00_scope.md R17). -/
  code : Region
  /-- The configuration, which no step changes (00_scope.md R6, log 1). -/
  conf : Config
  /-- The model's own field: how many executions have drawn free values (log 43). -/
  draws : Nat
  deriving DecidableEq, Repr

/-- The six exceptions (60_exceptions.md R180). -/
inductive ExceptionKind where
  | ud
  | nm
  | ss
  | gp
  | pf
  | ac
  deriving DecidableEq, Repr

/-- The outcome Fault(kind, errorCode, faultAddress) of 60_exceptions.md R193. -/
structure Exception where
  kind : ExceptionKind
  errorCode : Option (BitVec 32)
  faultAddress : Option Nat
  deriving DecidableEq, Repr

/-- How a run ends by an exception. The spec describes no delivery (60_exceptions.md R193, log 18). -/
inductive Fault where
  /-- An exception of XSAVEOPT or XSAVEOPT64, raised by `Machine.raise` for every instruction, with the state it leaves
  (60_exceptions.md R192, 20_memory.md R79). Safe: the machine stops where the hardware would enter a handler. -/
  | raised (x : Exception) (after : State)
  deriving DecidableEq, Repr

/-- Why the model gives a situation no meaning. -/
inductive Refusal where
  /-- Raised by `exec` for an instruction without a meaning; no arm does. Safe. -/
  | notModelled (mnemonic : String)
  /-- Raised by a meaning for a term that is no instruction in the current code size (30_encoding.md R100 to R119). Safe:
  the decoder gives no such term. -/
  | illFormedInstr
  /-- Raised by a meaning when the configuration is not well formed (00_scope.md R8, D27). Safe. -/
  | illFormedConfig
  /-- Raised by a meaning in a mode the configuration does not admit (00_scope.md R6, Modes). Safe. -/
  | modeNotAdmitted
  /-- Raised by a meaning when XCR0 has a bit the processor does not support (10_state.md R25, D24). Safe. -/
  | xcr0Unsupported
  /-- Raised by a meaning when the single-step flag is set (60_exceptions.md R200, D34). Safe. -/
  | singleStep
  /-- Raised by a meaning when the operand's segment is null or not writable (60_exceptions.md R183, D23). Safe. -/
  | unusableSegment
  /-- Raised by a meaning when the area passes the largest effective or linear address (20_memory.md R80, D25). Safe. -/
  | operandWrap
  /-- Raised by a meaning when pc + L passes the top of the address space, the CS limit or the largest linear
  address (10_state.md R23, D25). Safe. -/
  | pcWrap
  /-- Raised by a meaning when the area overlaps the program's instructions (20_memory.md R74, D10). Safe. -/
  | codeOverlap
  /-- Raised by a meaning when the area overlaps memory with side effects (20_memory.md R78, D22). Safe. -/
  | sideEffectMemory
  /-- Raised by a meaning when a data breakpoint is armed inside the area (60_exceptions.md R200, D34). Safe. -/
  | dataBreakpoint
  /-- Raised by `step` for bytes that are neither instruction (00_scope.md R17, 30_encoding.md R115). Safe. -/
  | undecodable (e : DecodeError)
  /-- Raised by `step` when an instruction byte cannot be fetched (60_exceptions.md R201: given no step), or lies past
  the largest linear address (92_eei_decisions.md D25). Safe. -/
  | fetchFault
  /-- Raised by `step` when pc stands just past the code bytes: the clean stop of 00_scope.md R17. Safe. -/
  | endOfCode
  /-- Raised by `step` when pc stands elsewhere outside the code bytes (00_scope.md R17). Safe. -/
  | outsideCode
  deriving DecidableEq, Repr

/-- The example configuration TC1 of 95_test_vectors.md, with both parameters CheckExtent and MemFaultOrder open. TC1
gives neither the deprecation of FCS and FDS nor locations with side effects: false and none are the model's choice
(log 7). -/
def configTC1 : Config where
  cpuidXsave := true
  cpuidXsaveopt := true
  components := [⟨2, 576, 256⟩]
  xcr0Supported := 7#64
  mxcsrMask := 0xFFFF#32
  mxcsrOffset := 24
  mxcsrMaskOffset := 28
  xstateBvOffset := 512
  fcsFdsDeprecated := false
  x87Image := .fxsave
  xmmImage := .fxsave
  linearWidth := .w48
  modes := [.realAddress, .protectedMode, .virtual8086, .compatibility, .bits64]
  checkExtent := .draw
  memFaultOrder := .draw
  devices := []

/-- A data segment register after reset: base 0, limit FFFFH (10_state.md R45, log 6). -/
def resetSeg : SegReg := ⟨0#16, 0#64, 0xFFFF#32, false, true, false⟩

/-- The machine after reset: the values of 10_state.md R45's second column (log 6); where it has none, the values of
log 7. -/
def State.reset : State where
  gpr := ⟨0, 0, 0, 0, 0, 0, 0, 0, 0, 0, 0, 0, 0, 0, 0, 0⟩
  pc := 0xFFF0#64
  rflags := 2#64
  cr0 := 0x60000010#64
  cr4 := 0#64
  xcr0 := 1#64
  x87 := ⟨0x40#16, 0#16, 0x5555#16, 0#11, 0#64, 0#16, 0#64, 0#16, Vector.replicate 8 0#80⟩
  xmm := Vector.replicate 16 0#128
  mxcsr := 0x1F80#32
  comps := []
  xinuse := 0#64
  xmodified := 0#64
  xrstorInfo := none
  cpl := 0
  vmxNonRoot := false
  mode := .realAddress
  segs := ⟨⟨0xF000#16, 0xFFFF0000#64, 0xFFFF#32, false, true, false⟩, resetSeg, resetSeg, resetSeg, resetSeg, resetSeg⟩
  paging := none
  breakpoints := []
  mem := []
  code := ⟨0, 0⟩
  conf := configTC1
  draws := 0

end Sys2Proof.Machine
end

