-- ==== Sys2Proof/Machine/Flags.lean ====
section
/-! DEFINITION. The bits of the flags and control registers the instruction reads. It writes none of them: "FLAGS
AFFECTED: None." (10_state.md R24), so there is no flag computation to model. -/

namespace Sys2Proof.Machine

/-- CR0.TS[bit 3] (10_state.md R26). -/
def taskSwitched (s : State) : Bool := s.cr0.getLsbD 3

/-- CR4.OSXSAVE[bit 18] (10_state.md R27). -/
def osxsave (s : State) : Bool := s.cr4.getLsbD 18

/-- AcEnabled: CR0.AM (bit 18) and EFLAGS.AC (bit 18) (10_state.md R40, log 4). -/
def acEnabled (s : State) : Bool := s.cr0.getLsbD 18 && s.rflags.getLsbD 18

/-- The single-step flag EFLAGS.TF, bit 8 (60_exceptions.md R200, log 3). -/
def singleStepping (s : State) : Bool := s.rflags.getLsbD 8

end Sys2Proof.Machine
end

