-- ==== Sys2Proof/Machine/Ops.lean ====
section
/-! DEFINITION. The operations over the state that the meanings share: memory, mode and privilege, translation,
instruction fetch, and raising an exception. -/

namespace Sys2Proof.Machine

/-! ### Memory (20_memory.md R60, R61) -/

/-- What a byte of memory that nothing has written reads as (log 8). -/
def unlistedByte : Byte := 0#8

/-- One byte of memory. -/
def Memory.read (m : Memory) (a : Nat) : Byte :=
  match m.find? (fun c => c.1 == a) with
  | some c => c.2
  | none => unlistedByte

/-- Memory with one byte written; writing what an unlisted byte reads as removes the entry. -/
def Memory.write (m : Memory) (a : Nat) (v : Byte) : Memory :=
  m.filter (fun c => decide (c.1 < a)) ++ ((if v = unlistedByte then [] else [(a, v)])
    ++ m.filter (fun c => decide (a < c.1)))

/-- Memory with a sequence of bytes written, in order. -/
def Memory.writeAll (m : Memory) (ws : List Host.Cell) : Memory := ws.foldl (fun m c => m.write c.1 c.2) m

/-- The canonical form: addresses strictly rising, and no entry equal to what an unlisted byte reads as. -/
abbrev Memory.wf (m : Memory) : Prop := m.Pairwise (fun a b => a.1 < b.1) ∧ ∀ c ∈ m, c.2 ≠ unlistedByte

/-- The unsigned value of bytes in little-endian order (20_memory.md R61). -/
def leValue (bs : List Byte) : Nat := bs.foldr (fun b acc => b.toNat + 256 * acc) 0

/-- Two ranges of addresses have an address in common. -/
def rangesMeet (a n b m : Nat) : Bool := decide (a < b + m) && decide (b < a + n) && decide (0 < n) && decide (0 < m)

/-- An address lies in a range. -/
def inRegion (r : Region) (a : Nat) : Bool := decide (r.first ≤ a) && decide (a < r.first + r.size)

/-! ### Mode and privilege (10_state.md R36, R38) -/

/-- The default address size of the code: 64-bit mode; else CS.D in protected and compatibility mode, and 16 bits in
real-address and virtual-8086 mode (10_state.md R38). -/
def codeSizeOf (s : State) : CodeSize :=
  match s.mode with
  | .bits64 => .c64
  | .protectedMode => if s.segs.cs.dflag then .c32 else .c16
  | .compatibility => if s.segs.cs.dflag then .c32 else .c16
  | .realAddress => .c16
  | .virtual8086 => .c16

/-- CPL: 0 in real-address mode and 3 in virtual-8086 mode, else the field (10_state.md R36, log 5). -/
def currentCpl (s : State) : Fin 4 :=
  match s.mode with
  | .realAddress => 0
  | .virtual8086 => 3
  | _ => s.cpl

/-- The largest value pc can hold, by its width and, outside 64-bit mode, by the CS limit (10_state.md R23): RIP in 64-bit
mode; EIP in protected, compatibility and virtual-8086 mode with a 32-bit code segment; IP in real-address mode and in
16-bit code segments. (CS.D does not change the default address size of virtual-8086 mode: `codeSizeOf`, R38.) -/
def pcMax (s : State) : Nat :=
  match s.mode with
  | .bits64 => 2 ^ 64 - 1
  | .realAddress => min 0xFFFF s.segs.cs.limit.toNat
  | _ => if s.segs.cs.dflag then s.segs.cs.limit.toNat else min 0xFFFF s.segs.cs.limit.toNat

/-! ### Segments and translation (20_memory.md R75, 30_encoding.md R111) -/

/-- The register of a segment name. -/
def segOf (s : State) (n : SegName) : SegReg :=
  match n with
  | .cs => s.segs.cs
  | .ds => s.segs.ds
  | .es => s.segs.es
  | .fs => s.segs.fs
  | .gs => s.segs.gs
  | .ss => s.segs.ss

/-- The base a segment counts with: in 64-bit mode 0 but for FS and GS (30_encoding.md R111). -/
def segBase (s : State) (n : SegName) : Quad :=
  match s.mode, n with
  | .bits64, .fs => s.segs.fs.base
  | .bits64, .gs => s.segs.gs.base
  | .bits64, _ => 0#64
  | _, n => (segOf s n).base

/-- The linear address of an effective address: modulo 2^32 outside 64-bit mode (30_encoding.md R111). -/
def linearAddress (s : State) (n : SegName) (ea : Quad) : Quad :=
  match s.mode with
  | .bits64 => segBase s n + ea
  | _ => ((segBase s n + ea).setWidth 32).setWidth 64

/-- What an access is for. -/
inductive Access where
  | read
  | write
  | fetch
  deriving DecidableEq, Repr

/-- Why an access fails: the segment limit, the real-address-mode bound or the canonical form; or a page fault at a
linear address (20_memory.md R75). -/
inductive AccessFault where
  | limit
  | page (lin : Nat)
  deriving DecidableEq, Repr

/-- Canonical form: bits 63 down to LinearWidth - 1 all equal (00_scope.md R16). -/
def canonical (w : LinearWidth) (a : Nat) : Bool :=
  match w with
  | .w48 => decide (a < 2 ^ 47) || (decide (2 ^ 64 - 2 ^ 47 ≤ a) && decide (a < 2 ^ 64))
  | .w57 => decide (a < 2 ^ 56) || (decide (2 ^ 64 - 2 ^ 56 ≤ a) && decide (a < 2 ^ 64))

/-- Whether a permission covers an access (log 38). -/
def permits : Perm → Access → Bool
  | .none, _ => false
  | .read, .read => true
  | .read, .fetch => true
  | .read, .write => false
  | .readWrite, _ => true

/-- The range of a translation table that covers a linear address: the first one (log 38). -/
def rangeAt (ranges : List PageRange) (lin : Nat) : Option PageRange :=
  ranges.find? fun r => decide (r.lin ≤ lin) && decide (lin < r.lin + r.size)

/-- From a linear address to a location at the current privilege level; real-address mode has no page fault
(60_exceptions.md R185, R187). -/
def pageTranslate (s : State) (kind : Access) (lin : Nat) : Except AccessFault Nat :=
  match s.mode, s.paging with
  | .realAddress, _ => .ok lin
  | _, none => .ok lin
  | _, some ranges =>
    match rangeAt ranges lin with
    | none => .error (.page lin)
    | some r =>
      if permits (if currentCpl s = 3 then r.user else r.supervisor) kind then .ok (r.loc + (lin - r.lin))
      else .error (.page lin)

/-- The location behind a linear address, whatever may be done with it: the overlaps the spec refuses ask for no
permission (20_memory.md R74, R78). -/
def locationAt (s : State) (lin : Nat) : Option Nat :=
  match s.mode, s.paging with
  | .realAddress, _ => some lin
  | _, none => some lin
  | _, some ranges => (rangeAt ranges lin).map fun r => r.loc + (lin - r.lin)

/-- The linear address of byte `k` from effective address `ea` in a segment; in real-address mode modulo 2^32
(30_encoding.md R111). -/
def byteLinear (s : State) (n : SegName) (ea : Quad) (k : Nat) : Nat :=
  match s.mode with
  | .realAddress => ((linearAddress s n ea).toNat + k) % 2 ^ 32
  | _ => (linearAddress s n ea).toNat + k

/-- The largest effective address of a segment outside 64-bit mode: its limit (30_encoding.md R111, 60_exceptions.md R183,
R184), and in real-address mode FFFFH as well (R187, log 54). -/
def segBound (s : State) (n : SegName) : Nat :=
  match s.mode with
  | .realAddress => min 0xFFFF (segOf s n).limit.toNat
  | _ => (segOf s n).limit.toNat

/-- Translate(mode, seg, EA, k, kind) of 20_memory.md R75: the location of byte `k` from effective address `ea` in a
segment, or the fault. 64-bit mode: canonical form (60_exceptions.md R190). The other modes: the bound of the segment
(30_encoding.md R111, 60_exceptions.md R183, R184, R187 to R189). -/
def translate (s : State) (n : SegName) (ea : Quad) (k : Nat) (kind : Access) : Except AccessFault Nat :=
  let lin := byteLinear s n ea k
  match s.mode with
  | .bits64 => if canonical s.conf.linearWidth lin then pageTranslate s kind lin else .error .limit
  | _ => if ea.toNat + k ≤ segBound s n then pageTranslate s kind lin else .error .limit

/-- A store through the segment is possible (92_eei_decisions.md D23). Real-address and 64-bit mode know neither null
nor read-only segments; in protected and compatibility mode a code segment is never writable (30_encoding.md R111,
log 29). -/
def segmentUsable (s : State) (n : SegName) : Bool :=
  match s.mode with
  | .bits64 => true
  | .realAddress => true
  | .virtual8086 => !(segOf s n).isNull && (segOf s n).writable
  | _ => decide (n ≠ .cs) && !(segOf s n).isNull && (segOf s n).writable

/-! ### Instruction fetch (20_memory.md R60, 00_scope.md R17) -/

/-- The linear address of the instruction at pc, through CS. -/
def instrLinear (s : State) : Nat := (linearAddress s .cs s.pc).toNat

/-- The location of the code byte at offset `j` from pc, if it can be fetched: in 64-bit mode at a canonical address,
outside it within `pcMax` and at a linear address of 32 bits (20_memory.md R60, 92_eei_decisions.md D25). -/
def fetchLocation (s : State) (j : Nat) : Option Nat :=
  match s.mode with
  | .bits64 =>
    if canonical s.conf.linearWidth (instrLinear s + j) then (pageTranslate s .fetch (instrLinear s + j)).toOption
    else none
  | _ =>
    if s.pc.toNat + j ≤ pcMax s ∧ instrLinear s + j < 2 ^ 32 then
      (pageTranslate s .fetch (instrLinear s + j)).toOption
    else none

/-- The byte at offset `j` from pc belongs to the code bytes supplied. -/
def inCode (s : State) (j : Nat) : Bool := inRegion s.code (instrLinear s + j)

/-- The code byte at offset `j` from pc. -/
def fetchByte (s : State) (j : Nat) : Option Byte :=
  if inCode s j then (fetchLocation s j).map s.mem.read else none

/-- At most `n` code bytes from offset `j` on, up to the first that cannot be fetched. -/
def fetchFrom (s : State) : Nat → Nat → List Byte
  | 0, _ => []
  | n + 1, j =>
    match fetchByte s j with
    | some b => b :: fetchFrom s n (j + 1)
    | none => []

/-- The bytes an instruction at pc can have: at most 15 (30_encoding.md R113). -/
def fetchWindow (s : State) : List Byte := fetchFrom s 15 0

/-- The first byte that is missing from the window is a code byte that cannot be fetched. -/
def fetchBlocked (s : State) : Bool := inCode s (fetchWindow s).length

/-- The refusal for bytes that are not one of the two instructions (00_scope.md R17); if the bytes ran out at one that
cannot be fetched, it is the fetch's (60_exceptions.md R201). -/
def decodeRefusal (s : State) (e : DecodeError) : Refusal :=
  if e = .truncated ∧ fetchBlocked s then .fetchFault else .undecodable e

/-- The refusal outside the code bytes supplied: just past them it is the clean stop (00_scope.md R17). -/
def outsideRefusal (s : State) : Refusal :=
  if instrLinear s = s.code.first + s.code.size then .endOfCode else .outsideCode

/-! ### What an execution changes, and exceptions (60_exceptions.md R192, R193) -/

/-- All that an execution can change: memory, pc, and the model's draw counter (10_state.md R41, log 43). -/
def State.leave (s : State) (m : Memory) (p : Quad) : State := { s with mem := m, pc := p, draws := s.draws + 1 }

/-- Raising an exception, for every instruction: the run ends with kind, error code and fault address, in the state
`after`, whose pc is that of the instruction (60_exceptions.md R192, R193). There is no delivery and no return in the
spec (R194, log 18). -/
def raise (kind : ExceptionKind) (code : Option (BitVec 32)) (addr : Option Nat) (after : State) :
    Host.Outcome State Fault Refusal :=
  .fault (.raised ⟨kind, code, addr⟩ after)

/-- The exception of a limit or canonical fault: #GP without error code in real-address mode (60_exceptions.md R187),
#SS(0) when the operand references SS (R184, R190), else #GP(0) (R183, R190). -/
def raiseLimit (n : SegName) (after : State) : Host.Outcome State Fault Refusal :=
  match after.mode with
  | .realAddress => raise .gp none none after
  | _ => if n = .ss then raise .ss (some 0#32) none after else raise .gp (some 0#32) none after

/-- The exception of a misaligned operand: #GP; where alignment checking is enabled at CPL 3, #AC or #GP as AcPolicy
says; never #AC in real-address mode (60_exceptions.md R186, R187). -/
def raiseAlign (laxa : Quad) (after : State) : Host.Outcome State Fault Refusal :=
  match after.mode with
  | .realAddress => raise .gp none none after
  | _ =>
    if acEnabled after ∧ currentCpl after = 3 ∧ Config.acPolicy laxa = .ac then raise .ac (some 0#32) none after
    else raise .gp (some 0#32) none after

/-- A page fault: a free error code, and the linear address (60_exceptions.md R193, log 49). -/
def raisePage (code : BitVec 32) (lin : Nat) (after : State) : Host.Outcome State Fault Refusal :=
  raise .pf (some code) (some lin) after

end Sys2Proof.Machine
end

