-- ==== Sys2Proof/WellFormed.lean ====
section
/-! DEFINITION. Which terms of the syntax are instructions in code of a given size (30_encoding.md R100 to R119). The
checks are named so that the decoder's tables (Decode.lean) are their only content. -/

namespace Sys2Proof

/-- The legacy prefixes and ignored REX bytes of an instruction. -/
def instrPrefixes : Instr → List Prefix
  | .xsaveopt pfx _ _ => pfx
  | .xsaveopt64 pfx _ _ => pfx

/-- The memory operand of an instruction. -/
def instrMem : Instr → MemOperand
  | .xsaveopt _ _ mem => mem
  | .xsaveopt64 _ _ mem => mem

/-- The REX prefix of an instruction, if it has one. -/
def instrRex : Instr → Option Rex
  | .xsaveopt _ rex _ => rex
  | .xsaveopt64 _ rex _ => some rex

/-- w, the REX.W bit, the one parameter in which the two instructions differ (40_xsaveopt.md R145). -/
def instrW : Instr → Bool
  | .xsaveopt _ _ _ => false
  | .xsaveopt64 _ _ _ => true

/-- REX bytes exist in 64-bit mode only; so XSAVEOPT64 does too (30_encoding.md R103, R116). -/
def rexFits (cs : CodeSize) (i : Instr) : Bool :=
  decide (cs = .c64) || (decide (instrRex i = none) && !(instrPrefixes i).any isRexPrefix)

/-- Without a REX prefix, the last prefix is no REX byte: it would be the REX prefix (30_encoding.md R100). -/
def rexStandsLast (i : Instr) : Bool :=
  (instrRex i).isSome || !((instrPrefixes i).getLast?.any isRexPrefix)

/-- The instruction exists in code of this size: R102 (NP), R113 (one prefix of a group, 15 bytes), R103 and R116 (REX),
R106 to R109 (operand forms). -/
def wellFormed (cs : CodeSize) (i : Instr) : Bool :=
  !(instrPrefixes i).any isMandatoryPrefix && groupsOnce (instrPrefixes i) && rexFits cs i && rexStandsLast i
    && memFits (addrSizeOf cs (instrPrefixes i)) (instrMem i) && decide (instrLength i ≤ 15)

end Sys2Proof
end

