-- ==== Sys2Proof/Machine/Operands.lean ====
section
/-! DEFINITION. The memory operand: every addressing form, the default segment and the override, and the effective and
linear address (30_encoding.md R105 to R112), and the implicit operand EDX:EAX (00_scope.md R10). -/

namespace Sys2Proof.Machine

/-- The register with a number, 0 to 15 (10_state.md R22). -/
def gprAt (g : Gprs) (n : Nat) : Quad :=
  match n with
  | 0 => g.rax
  | 1 => g.rcx
  | 2 => g.rdx
  | 3 => g.rbx
  | 4 => g.rsp
  | 5 => g.rbp
  | 6 => g.rsi
  | 7 => g.rdi
  | 8 => g.r8
  | 9 => g.r9
  | 10 => g.r10
  | 11 => g.r11
  | 12 => g.r12
  | 13 => g.r13
  | 14 => g.r14
  | _ => g.r15

/-- A register number: three bits of the encoding and the REX bit that extends them (30_encoding.md R119). -/
def regNumber (ext : Bool) (r : BitVec 3) : Nat := (if ext then 8 else 0) + r.toNat

/-- REX.B, 0 without a REX prefix. -/
def rexB (i : Instr) : Bool := (instrRex i).any (·.b)

/-- REX.X, 0 without a REX prefix. -/
def rexX (i : Instr) : Bool := (instrRex i).any (·.x)

/-- The instruction is used with a LOCK prefix (30_encoding.md R114). -/
def hasLock (i : Instr) : Bool := (instrPrefixes i).any isLockPrefix

/-- The registers of a 16-bit form (30_encoding.md R109). -/
def form16Sum (g : Gprs) : Form16 → Quad
  | .bxSi => g.rbx + g.rsi
  | .bxDi => g.rbx + g.rdi
  | .bpSi => g.rbp + g.rsi
  | .bpDi => g.rbp + g.rdi
  | .si => g.rsi
  | .di => g.rdi
  | .bp => g.rbp
  | .bx => g.rbx

/-- A displacement of a 16-bit form, sign-extended (30_encoding.md R112). -/
def disp16Value : Disp16 → Quad
  | .none => 0#64
  | .d8 v => v.signExtend 64
  | .d16 v => v.signExtend 64

/-- A displacement of a 32-bit or 64-bit form, sign-extended (30_encoding.md R112). -/
def disp32Value : Disp32 → Quad
  | .none => 0#64
  | .d8 v => v.signExtend 64
  | .d32 v => v.signExtend 64

/-- Index * 2^scale; index 100 with REX.X = 0 is no index (30_encoding.md R107). -/
def indexValue (g : Gprs) (x : Bool) (scale : BitVec 2) (index : BitVec 3) : Quad :=
  if index = 4#3 ∧ x = false then 0#64 else gprAt g (regNumber x index) <<< scale.toNat

/-- pcnext: the address of the byte after the instruction (30_encoding.md R108). -/
def pcNext (s : State) (i : Instr) : Quad := s.pc + BitVec.ofNat 64 (instrLength i)

/-- The sum of an addressing form, before it is taken modulo the address size (30_encoding.md R106 to R109). The low
bits of a sum need only the low bits of its terms, so 64-bit terms serve every address size. -/
def addressSum (s : State) (i : Instr) : Quad :=
  match instrMem i with
  | .base16 f d => form16Sum s.gpr f + disp16Value d
  | .abs16 d => d.signExtend 64
  | .base r d => gprAt s.gpr (regNumber (rexB i) r) + disp32Value d
  | .disp32 d => (if s.mode = .bits64 then pcNext s i else 0#64) + d.signExtend 64
  | .sib sc ix b d => gprAt s.gpr (regNumber (rexB i) b) + indexValue s.gpr (rexX i) sc ix + disp32Value d
  | .sibNoBase sc ix d => indexValue s.gpr (rexX i) sc ix + d.signExtend 64

/-- How many bits an address size has. -/
def addrBits : AddrSize → Nat
  | .a16 => 16
  | .a32 => 32
  | .a64 => 64

/-- The address size of an instruction in this state (30_encoding.md R110). -/
def addrSizeIn (s : State) (i : Instr) : AddrSize := addrSizeOf (codeSizeOf s) (instrPrefixes i)

/-- The effective address: the sum modulo 2 to the address size, zero-extended (30_encoding.md R110). -/
def effectiveAddress (s : State) (i : Instr) : Quad :=
  ((addressSum s i).setWidth (addrBits (addrSizeIn s i))).setWidth 64

/-- The default segment of an addressing form: SS when the base register is BP, EBP, RBP, ESP or RSP, else DS; not SS
for R12 and R13 (30_encoding.md R106 to R109). -/
def defaultSeg (i : Instr) : SegName :=
  match instrMem i with
  | .base16 .bpSi _ => .ss
  | .base16 .bpDi _ => .ss
  | .base16 .bp _ => .ss
  | .base16 _ _ => .ds
  | .abs16 _ => .ds
  | .base r _ => if r = 5#3 ∧ rexB i = false then .ss else .ds
  | .disp32 _ => .ds
  | .sib _ _ b _ => if (b = 4#3 ∨ b = 5#3) ∧ rexB i = false then .ss else .ds
  | .sibNoBase _ _ _ => .ds

/-- The last segment override of a prefix list (30_encoding.md R111). -/
def segOverride (pfx : List Prefix) : Option SegName :=
  pfx.foldl (fun acc p => match p with | .seg n => some n | _ => acc) none

/-- The segment the operand uses; in 64-bit mode only the overrides FS and GS count (30_encoding.md R111). -/
def operandSeg (s : State) (i : Instr) : SegName :=
  match s.mode, segOverride (instrPrefixes i) with
  | .bits64, some .fs => .fs
  | .bits64, some .gs => .gs
  | .bits64, _ => defaultSeg i
  | _, some n => n
  | _, none => defaultSeg i

/-- LAXA: the linear address of the XSAVE area (20_memory.md R62). -/
def laxaOf (s : State) (i : Instr) : Quad := linearAddress s (operandSeg s i) (effectiveAddress s i)

/-- The linear address of byte `k` of the XSAVE area: LAXA + k (20_memory.md R62). -/
def areaLinear (s : State) (i : Instr) (k : Nat) : Nat := byteLinear s (operandSeg s i) (effectiveAddress s i) k

/-- The location of byte `k` of the XSAVE area, or the fault of an access to it (20_memory.md R75). -/
def locate (s : State) (i : Instr) (k : Nat) (kind : Access) : Except AccessFault Nat :=
  translate s (operandSeg s i) (effectiveAddress s i) k kind

/-- The byte at offset `k` of the area as memory holds it; 0 where it cannot be read. -/
def areaByte (s : State) (i : Instr) (k : Nat) : Byte :=
  match locate s i k .read with
  | .ok l => s.mem.read l
  | .error _ => 0#8

/-- The instruction mask EDX:EAX (00_scope.md R10, 10_state.md R21). -/
def instructionMask (s : State) : Quad :=
  (s.gpr.rdx.setWidth 32).setWidth 64 <<< 32 ||| (s.gpr.rax.setWidth 32).setWidth 64

end Sys2Proof.Machine
end

