-- ==== Sys2Proof/Machine/Images.lean ====
section
/-! DEFINITION. The XSAVE area: which offsets each part covers and the bytes stored there (20_memory.md R63 to R66),
the well-formedness of a configuration (00_scope.md R8), and AreaSize (20_memory.md R66). -/

namespace Sys2Proof.Machine

/-- A byte to be stored: its offset from the base of the XSAVE area, and its value. -/
abbrev Store := Nat × Byte

/-- The numbers of the state components of the extended region, 2 to 62 (10_state.md R32). -/
def compNumbers : List Nat := List.range' 2 61

/-- CompOffset(i) (10_state.md R29). -/
def compOffset (c : Config) (i : Nat) : Nat :=
  match c.components.find? (fun e => e.index == i) with
  | some e => e.offset
  | none => 0

/-- CompSize(i) (10_state.md R29). -/
def compSize (c : Config) (i : Nat) : Nat :=
  match c.components.find? (fun e => e.index == i) with
  | some e => e.size
  | none => 0

/-! ### Which offsets a part covers -/

/-- The bytes of the x87 image of the default format, less the reserved ones (20_memory.md R64); `w` is REX.W. -/
def fxsaveX87Covers (w : Bool) (o : Nat) : Bool :=
  (decide (o < 24) && decide (o ≠ 5)
      && (w || (decide (o ≠ 14) && decide (o ≠ 15) && decide (o ≠ 22) && decide (o ≠ 23))))
    || (decide (32 ≤ o) && decide (o < 160) && decide ((o - 32) % 16 < 10))

/-- The bytes of the x87 image (00_scope.md R6, X87Image); `w` is REX.W. -/
def x87Covers (c : Config) (w : Bool) (o : Nat) : Bool :=
  match c.x87Image with
  | .fxsave => fxsaveX87Covers w o
  | .other plain wide => (if w then wide else plain).contains o

/-- The bytes of the XMM registers (00_scope.md R6, XmmImage; by default 20_memory.md R64). -/
def xmmCovers (c : Config) (o : Nat) : Bool :=
  match c.xmmImage with
  | .fxsave => decide (160 ≤ o) && decide (o < 416)
  | .other low high => low.contains o || high.contains o

/-- The bytes of XMM8 to XMM15 among them (40_xsaveopt.md R146). -/
def xmmHighCovers (c : Config) (o : Nat) : Bool :=
  match c.xmmImage with
  | .fxsave => decide (288 ≤ o) && decide (o < 416)
  | .other _ high => high.contains o

/-- The bytes of MXCSR and MXCSR_MASK (20_memory.md R64). -/
def mxcsrCovers (c : Config) (o : Nat) : Bool :=
  (decide (c.mxcsrOffset ≤ o) && decide (o < c.mxcsrOffset + 4))
    || (decide (c.mxcsrMaskOffset ≤ o) && decide (o < c.mxcsrMaskOffset + 4))

/-- The bytes of XSTATE_BV (20_memory.md R65). -/
def xstateBvCovers (c : Config) (o : Nat) : Bool :=
  decide (c.xstateBvOffset ≤ o) && decide (o < c.xstateBvOffset + 8)

/-- The bytes of component i (20_memory.md R66). -/
def compCovers (c : Config) (i o : Nat) : Bool :=
  decide (compOffset c i ≤ o) && decide (o < compOffset c i + compSize c i)

/-- The reserved bytes of the legacy region: those below 464 that belong to no part (20_memory.md R64, R69). -/
def reservedCovers (c : Config) (w : Bool) (o : Nat) : Bool :=
  decide (o < 464) && !x87Covers c w o && !xmmCovers c o && !mxcsrCovers c o

/-! ### Well-formed configurations -/

/-- The components that XCR0 can enable. -/
def supportedComps (c : Config) : List Nat := compNumbers.filter fun i => c.xcr0Supported.getLsbD i

/-- 00_scope.md R8: offsets at or above 576, components pairwise disjoint and disjoint from XSTATE_BV. -/
def compsOk (c : Config) : Bool :=
  (supportedComps c).all fun i =>
    decide (576 ≤ compOffset c i)
      && !rangesMeet (compOffset c i) (compSize c i) c.xstateBvOffset 8
      && (supportedComps c).all fun j =>
        decide (i = j) || !rangesMeet (compOffset c i) (compSize c i) (compOffset c j) (compSize c j)

/-- The places of MXCSR, MXCSR_MASK and XSTATE_BV: in the legacy region below 464, apart, and in the header
(92_eei_decisions.md D15, log 22). -/
def fieldsOk (c : Config) : Bool :=
  decide (c.mxcsrOffset + 4 ≤ 464) && decide (c.mxcsrMaskOffset + 4 ≤ 464)
    && !rangesMeet c.mxcsrOffset 4 c.mxcsrMaskOffset 4
    && decide (512 ≤ c.xstateBvOffset) && decide (c.xstateBvOffset + 8 ≤ 576)

/-- The offsets an x87 or XMM format other than the default names lie below 464: no image writes bytes 511:464 or a byte
of the header (92_eei_decisions.md D15). -/
def offsetsOk (c : Config) : Bool :=
  (match c.x87Image with
    | .fxsave => true
    | .other plain wide => (plain ++ wide).all fun o => decide (o < 464))
  && match c.xmmImage with
    | .fxsave => true
    | .other low high => (low ++ high).all fun o => decide (o < 464)

/-- No byte of the legacy region belongs to two of the x87 image, the XMM image and the MXCSR fields, so that no store
overlaps another (40_xsaveopt.md R151, log 22). -/
def imagesApart (c : Config) : Bool :=
  (List.range 464).all fun o =>
    !(x87Covers c false o && (xmmCovers c o || mxcsrCovers c o))
      && !(x87Covers c true o && (xmmCovers c o || mxcsrCovers c o))
      && !(xmmCovers c o && mxcsrCovers c o)

/-- Bit 0 of XCR0_SUPPORTED is always 1 and bit 63 always 0 (00_scope.md R6, 92_eei_decisions.md D24, log 55). -/
def supportedOk (c : Config) : Bool := c.xcr0Supported.getLsbD 0 && !c.xcr0Supported.getLsbD 63

/-- A well-formed configuration (00_scope.md R8, R6). -/
def configOk (c : Config) : Bool := compsOk c && fieldsOk c && offsetsOk c && imagesApart c && supportedOk c

/-- XCR0 AND NOT XCR0_SUPPORTED = 0 (10_state.md R25, D24). -/
def xcr0Ok (s : State) : Bool := decide (s.xcr0 &&& ~~~s.conf.xcr0Supported = 0#64)

/-- AreaSize: the extent of the area for the components enabled in XCR0 (20_memory.md R66). -/
def areaSize (s : State) : Nat :=
  (compNumbers.filter fun i => s.xcr0.getLsbD i).foldl (fun m i => max m (compOffset s.conf i + compSize s.conf i)) 576

/-! ### The images -/

/-- The abridged tag word: bit j is 1 when register j is not empty, its two tag bits not 11 (20_memory.md R64). -/
def abridgedTag (ftw : BitVec 16) : Byte :=
  BitVec.ofNat 8 ((List.range 8).foldl (fun acc j => if ftw.extractLsb' (2 * j) 2 = 3#2 then acc else acc + 2 ^ j) 0)

/-- FCS or FDS as stored (20_memory.md R64). -/
def storedSelector (c : Config) (v : BitVec 16) : Nat := if c.fcsFdsDeprecated then 0 else v.toNat

/-- The byte of the x87 image of the default format at an offset it covers (20_memory.md R64); `w` is REX.W
(40_xsaveopt.md R145). -/
def fxsaveX87Value (c : Config) (w : Bool) (x : X87) (o : Nat) : Byte :=
  if o < 2 then byteAt x.fcw.toNat o
  else if o < 4 then byteAt x.fsw.toNat (o - 2)
  else if o = 4 then abridgedTag x.ftw
  else if o < 8 then byteAt x.fop.toNat (o - 6)
  else if o < 16 then
    if w ∨ o < 12 then byteAt x.fip.toNat (o - 8) else byteAt (storedSelector c x.fcs) (o - 12)
  else if o < 24 then
    if w ∨ o < 20 then byteAt x.fdp.toNat (o - 16) else byteAt (storedSelector c x.fds) (o - 20)
  else byteAt (x.st[(o - 32) / 16]?.getD 0#80).toNat ((o - 32) % 16)

/-- The byte of the x87 image at an offset it covers (00_scope.md R6, X87Image). -/
def x87Value (c : Config) (w : Bool) (x : X87) (o : Nat) : Byte :=
  match c.x87Image with
  | .fxsave => fxsaveX87Value c w x o
  | .other _ _ => Config.otherX87Byte w x o

/-- The byte of the XMM image at an offset it covers (00_scope.md R6, XmmImage; by default 20_memory.md R64). -/
def xmmValue (c : Config) (m : Mode) (xmm : Vector (BitVec 128) 16) (o : Nat) : Byte :=
  match c.xmmImage with
  | .fxsave => byteAt (xmm[(o - 160) / 16]?.getD 0#128).toNat ((o - 160) % 16)
  | .other _ _ => Config.otherXmmByte m xmm o

/-- The image of component i (10_state.md R32). -/
def compValue (s : State) (i k : Nat) : Byte :=
  match s.comps.find? (fun c => c.index == i) with
  | some c => c.bytes.getD k 0#8
  | none => 0#8

/-- The bytes of a field of `n` bytes with value `v` at an offset (20_memory.md R61). -/
def fieldStores (at_ n v : Nat) : List Store := (List.range n).map fun j => (at_ + j, byteAt v j)

/-- X87Image(s, w) (40_xsaveopt.md R145). -/
def x87Stores (w : Bool) (s : State) : List Store :=
  ((List.range 464).filter (x87Covers s.conf w)).map fun o => (o, x87Value s.conf w s.x87 o)

/-- Whether the XMM step stores the byte at an offset: always in 64-bit mode and for XMM0 to XMM7; else a free value
(40_xsaveopt.md R146, D19). -/
def storesXmmByte (s : State) (o : Nat) : Bool :=
  decide (s.mode = .bits64) || !xmmHighCovers s.conf o || Config.freeUpperXmm s.draws o

/-- XmmImage(s, mode) (40_xsaveopt.md R146). -/
def xmmStores (s : State) : List Store :=
  ((List.range 464).filter fun o => xmmCovers s.conf o && storesXmmByte s o).map fun o =>
    (o, xmmValue s.conf s.mode s.xmm o)

/-- MXCSR and MXCSR_MASK (40_xsaveopt.md R147). -/
def mxcsrStores (s : State) : List Store :=
  fieldStores s.conf.mxcsrOffset 4 s.mxcsr.toNat ++ fieldStores s.conf.mxcsrMaskOffset 4 s.conf.mxcsrMask.toNat

/-- CompImage(i, s) at CompOffset(i) (40_xsaveopt.md R148). -/
def compStores (s : State) (i : Nat) : List Store :=
  (List.range (compSize s.conf i)).map fun k => (compOffset s.conf i + k, compValue s i k)

end Sys2Proof.Machine
end

