-- ==== Sys2Proof/Machine/Xsaveopt.lean ====
section
/-! DEFINITION. The operation of XSAVEOPT and XSAVEOPT64 (40_xsaveopt.md R140 to R155) with its checks
(60_exceptions.md R180 to R191), and the two meanings. -/

namespace Sys2Proof.Machine

/-! ### The bitmaps (40_xsaveopt.md R141 to R144, R149) -/

/-- RFBM := XCR0 AND EDX:EAX (R141). -/
def rfbm (s : State) : Quad := s.xcr0 &&& instructionMask s

/-- XRSTOR_INFO = (CPL, VMXNR, LAXA, 0) (R144). -/
def rstorMatches (s : State) (laxa : Quad) : Bool :=
  decide (s.xrstorInfo = some ⟨currentCpl s, s.vmxNonRoot, laxa, 0#64⟩)

/-- TO_BE_SAVED: the init optimization, then the modified optimization (R143, R144). -/
def toBeSaved (s : State) (laxa : Quad) : Quad :=
  if rstorMatches s laxa then rfbm s &&& s.xinuse &&& s.xmodified else rfbm s &&& s.xinuse

/-- OLD_BV: the XSTATE_BV field as read from the header (R142). -/
def oldBv (s : State) (i : Instr) : Quad :=
  BitVec.ofNat 64 (leValue ((List.range 8).map fun j => areaByte s i (s.conf.xstateBvOffset + j)))

/-- The new XSTATE_BV: (OLD_BV AND NOT RFBM) OR (XINUSE AND RFBM) (R149). -/
def newBv (s : State) (i : Instr) : Quad := (oldBv s i &&& ~~~rfbm s) ||| (s.xinuse &&& rfbm s)

/-! ### The stores (40_xsaveopt.md R145 to R149) -/

/-- The stores of one execution, in the order of the OPERATION section (R140); `w` is REX.W. -/
def operationStores (w : Bool) (i : Instr) (s : State) : List Store :=
  let saved := toBeSaved s (laxaOf s i)
  (if saved.getLsbD 0 then x87Stores w s else [])
    ++ (if saved.getLsbD 1 then xmmStores s else [])
    ++ (if (rfbm s).getLsbD 1 || (rfbm s).getLsbD 2 then mxcsrStores s else [])
    ++ (compNumbers.filter saved.getLsbD).flatMap (compStores s)
    ++ fieldStores s.conf.xstateBvOffset 8 (newBv s i).toNat

/-- The reserved bytes below 464 when a part of the legacy region is stored to: free values (20_memory.md R69). -/
def reservedStores (w : Bool) (i : Instr) (s : State) : List Store :=
  if (operationStores w i s).any (fun e => decide (e.1 < 464)) then
    ((List.range 464).filter (reservedCovers s.conf w)).map fun o => (o, Config.freeReserved s.draws o)
  else []

/-- All bytes an execution writes. -/
def allStores (w : Bool) (i : Instr) (s : State) : List Store := reservedStores w i s ++ operationStores w i s

/-- The location a store goes to, where a write is possible. -/
def located (s : State) (i : Instr) (e : Store) : Option Host.Cell :=
  match locate s i e.1 .write with
  | .ok l => some (l, e.2)
  | .error _ => none

/-- Memory after some stores; a byte that cannot be written stays (20_memory.md R79). -/
def commit (s : State) (i : Instr) (ss : List Store) : Memory := s.mem.writeAll (ss.filterMap (located s i))

/-- The state after an execution that completes: memory, pc and the model's draw counter change (R152). -/
def completed (w : Bool) (i : Instr) (s : State) : State :=
  s.leave (commit s i (allStores w i s)) (pcNext s i)

/-- The state after a fault at an access: each byte it would have written has its old or its new value, by a free value
(20_memory.md R79). -/
def interrupted (w : Bool) (i : Instr) (s : State) : State :=
  s.leave (commit s i ((allStores w i s).filter fun e => Config.freeLanded s.draws e.1)) s.pc

/-! ### The checks -/

/-- Situations the spec gives no meaning whatever the instruction finds: the term (30_encoding.md), the configuration
(00_scope.md R8), the mode (R6), XCR0 (10_state.md R25), single step (60_exceptions.md R200). -/
def launchRefusal (i : Instr) (s : State) : Option Refusal :=
  if wellFormed (codeSizeOf s) i = false then some .illFormedInstr
  else if configOk s.conf = false then some .illFormedConfig
  else if s.mode ∉ s.conf.modes then some .modeNotAdmitted
  else if xcr0Ok s = false then some .xcr0Unsupported
  else if singleStepping s then some .singleStep
  else none

/-- #UD: LOCK, the CPUID bits, CR4.OSXSAVE (60_exceptions.md R181). -/
def undefinedOpcode (i : Instr) (s : State) : Bool :=
  hasLock i || !s.conf.cpuidXsave || !s.conf.cpuidXsaveopt || !osxsave s

/-- `EA + k` or `LAXA + k` passes the largest address for a byte of Extent; in real-address mode that is #GP, not
refused (20_memory.md R80). -/
def operandWraps (i : Instr) (s : State) : Bool :=
  match s.mode with
  | .realAddress => false
  | .bits64 =>
    decide (2 ^ addrBits (addrSizeIn s i) < (effectiveAddress s i).toNat + areaSize s)
      || decide (2 ^ 64 < (laxaOf s i).toNat + areaSize s)
  | _ =>
    decide (2 ^ addrBits (addrSizeIn s i) < (effectiveAddress s i).toNat + areaSize s)
      || decide (2 ^ 32 < (laxaOf s i).toNat + areaSize s)

/-- pc + L passes the top of the address space or the CS limit (10_state.md R23), or, outside 64-bit mode, the largest
linear address (92_eei_decisions.md D25). -/
def pcWraps (i : Instr) (s : State) : Bool :=
  decide (pcMax s < s.pc.toNat + instrLength i)
    || (decide (s.mode ≠ .bits64) && decide (2 ^ 32 ≤ instrLinear s + instrLength i))

/-- The linear addresses of the bytes of Extent. -/
def extentLinear (i : Instr) (s : State) : List Nat := (List.range (areaSize s)).map (areaLinear s i)

/-- The locations of the bytes of Extent, whatever their permissions. -/
def extentLocations (i : Instr) (s : State) : List Nat := (extentLinear i s).filterMap (locationAt s)

/-- The locations of the program's code bytes, whatever their permissions. -/
def codeLocations (s : State) : List Nat :=
  (List.range s.code.size).filterMap fun j => locationAt s (s.code.first + j)

/-- Extent overlaps the program, at a linear address or at a location (20_memory.md R74, log 17). -/
def overlapsCode (i : Instr) (s : State) : Bool :=
  (extentLinear i s).any (inRegion s.code) || (codeLocations s).any fun c => (extentLocations i s).contains c

/-- Extent overlaps memory with side effects (20_memory.md R78). -/
def overlapsDevice (i : Instr) (s : State) : Bool :=
  s.conf.devices.any fun r => (extentLocations i s).any (inRegion r)

/-- A data breakpoint is armed inside Extent (60_exceptions.md R200). -/
def overlapsBreakpoint (i : Instr) (s : State) : Bool :=
  s.breakpoints.any fun r => (extentLinear i s).any (inRegion r)

/-- Executions the spec gives no meaning because of their operand or their end. -/
def operandRefusal (i : Instr) (s : State) : Option Refusal :=
  if segmentUsable s (operandSeg s i) = false then some .unusableSegment
  else if operandWraps i s then some .operandWrap
  else if pcWraps i s then some .pcWrap
  else if overlapsCode i s then some .codeOverlap
  else if overlapsDevice i s then some .sideEffectMemory
  else if overlapsBreakpoint i s then some .dataBreakpoint
  else none

/-- The memory-operand faults (60_exceptions.md R191). -/
inductive MemCause where
  | align
  | limit
  | page (lin : Nat)
  deriving DecidableEq, Repr

/-- The fault of one access, if it has one. -/
def accessFault (s : State) (i : Instr) (k : Nat) (kind : Access) : Option AccessFault :=
  match locate s i k kind with
  | .ok _ => none
  | .error f => some f

/-- The accesses of one execution: the read of XSTATE_BV and every store (20_memory.md R68). -/
def touchedFaults (w : Bool) (i : Instr) (s : State) : List AccessFault :=
  ((List.range' s.conf.xstateBvOffset 8).filterMap fun k => accessFault s i k .read)
    ++ (operationStores w i s).filterMap fun e => accessFault s i e.1 .write

/-- The faults of a write to each byte of Extent (20_memory.md R76). -/
def extentFaults (i : Instr) (s : State) : List AccessFault :=
  (List.range (areaSize s)).filterMap fun k => accessFault s i k .write

/-- The causes behind a list of faults: limit once, each page fault. -/
def causesOf (fs : List AccessFault) : List MemCause :=
  (if fs.any (fun f => decide (f = .limit)) then [.limit] else [])
    ++ fs.filterMap fun f => match f with | .page lin => some (.page lin) | .limit => none

/-- Whether an untouched inaccessible byte of Extent faults: CheckExtent (20_memory.md R76 case 3). -/
def extentChecked (s : State) : Bool :=
  match s.conf.checkExtent with
  | .draw => Config.freeExtentFault s.draws
  | .touchedOnly => false
  | .wholeExtent => true

/-- The faults of the accesses by 20_memory.md R76: case 1, a touched byte; case 2, none; case 3, open. -/
def accessCauses (w : Bool) (i : Instr) (s : State) : List MemCause :=
  match touchedFaults w i s with
  | f :: fs => causesOf (f :: fs)
  | [] =>
    match extentFaults i s with
    | [] => []
    | f :: fs => if extentChecked s then causesOf (f :: fs) else []

/-- LAXA[5:0] is not 0 (20_memory.md R67). -/
def misaligned (i : Instr) (s : State) : Bool := decide ((laxaOf s i).extractLsb' 0 6 ≠ 0#6)

/-- The memory-operand faults that apply (60_exceptions.md R191). -/
def memCauses (w : Bool) (i : Instr) (s : State) : List MemCause :=
  (if misaligned i s then [.align] else []) ++ accessCauses w i s

/-- One of the causes `c :: cs`, by a free value where there are several. -/
def drawCause (n : Nat) (c : MemCause) (cs : List MemCause) : MemCause :=
  match cs with
  | [] => c
  | _ => (c :: cs).getD (n % (cs.length + 1)) c

/-- The cause that is reported: MemFaultOrder (60_exceptions.md R191). -/
def reportedCause (s : State) (c : MemCause) (cs : List MemCause) : MemCause :=
  match s.conf.memFaultOrder with
  | .draw => drawCause (Config.freeFaultChoice s.draws) c cs
  | .limitAlignPage =>
    if .limit ∈ c :: cs then .limit
    else if .align ∈ c :: cs then .align
    else drawCause (Config.freeFaultChoice s.draws) c cs

/-- Raising a memory-operand fault: memory unchanged by the alignment fault, and as 20_memory.md R79 says by the
others. -/
def raiseCause (w : Bool) (i : Instr) (s : State) (c : MemCause) : Host.Outcome State Fault Refusal :=
  match c with
  | .align => raiseAlign (laxaOf s i) (s.leave s.mem s.pc)
  | .limit => raiseLimit (operandSeg s i) (interrupted w i s)
  | .page lin => raisePage (Config.freeFaultCode s.draws) lin (interrupted w i s)

/-! ### The operation -/

/-- The memory-operand checks, and the execution when none applies (40_xsaveopt.md R153). -/
def finishSave (w : Bool) (i : Instr) (s : State) : Host.Outcome State Fault Refusal :=
  match memCauses w i s with
  | [] => .next (completed w i s)
  | c :: cs => raiseCause w i s (reportedCause s c cs)

/-- XSAVEOPT_common(w) of 40_xsaveopt.md R153, its checks in the order of 60_exceptions.md R191: #UD, #NM, then the
memory-operand faults; what the spec refuses is refused (log 40). -/
def saveCommon (w : Bool) (i : Instr) (s : State) : Host.Outcome State Fault Refusal :=
  match launchRefusal i s with
  | some r => .refused r
  | none =>
    if undefinedOpcode i s then raise .ud none none s
    else if taskSwitched s then raise .nm none none s
    else
      match operandRefusal i s with
      | some r => .refused r
      | none => finishSave w i s

/-- XSAVEOPT mem (40_xsaveopt.md R153): the operation with the x87 format w = 0. -/
def execXsaveopt (pfx : List Prefix) (rex : Option Rex) (mem : MemOperand) (s : State) :
    Host.Outcome State Fault Refusal :=
  saveCommon false (.xsaveopt pfx rex mem) s

/-- XSAVEOPT64 mem (40_xsaveopt.md R154): the operation with the x87 format w = 1. -/
def execXsaveopt64 (pfx : List Prefix) (rex : Rex) (mem : MemOperand) (s : State) :
    Host.Outcome State Fault Refusal :=
  saveCommon true (.xsaveopt64 pfx rex mem) s

end Sys2Proof.Machine
end

