-- ==== Sys2Proof/Machine/Dispatch.lean ====
section
/-! DEFINITION. One arm per constructor of Instr. -/

namespace Sys2Proof.Machine
open Sys2Proof

def exec (i : Instr) (s : State) : Host.Outcome State Fault Refusal :=
  match i with
  | .xsaveopt pfx rex mem => Sys2Proof.Machine.execXsaveopt pfx rex mem s
  | .xsaveopt64 pfx rex mem => Sys2Proof.Machine.execXsaveopt64 pfx rex mem s

end Sys2Proof.Machine
end

