-- ==== Sys2Proof/Machine/Step.lean ====
section
/-! DEFINITION. One step: fetch at pc, decode, execute (00_scope.md R17); and placing an instruction where the next step
fetches. -/

namespace Sys2Proof.Machine

/-- One step. Outside the code bytes supplied the run has stopped (00_scope.md R17); bytes that are neither instruction
are refused (30_encoding.md R115, D29). -/
def step (s : State) : Host.Outcome State Fault Refusal :=
  if inCode s 0 then
    match decode (codeSizeOf s) (fetchWindow s) with
    | .ok (i, _) => exec i s
    | .error e => .refused (decodeRefusal s e)
  else .refused (outsideRefusal s)

/-- The caller's load of one instruction (00_scope.md R17, log 20): 64-bit mode, in which both rows of the opcode table
decode, the 15 bytes at pc as the code bytes, and the row's bytes, followed by zeros, in memory there. -/
def State.withFetchWord (s : State) (nbits w : Nat) : State :=
  let t : State := { s with mode := .bits64, code := ⟨instrLinear { s with mode := .bits64 }, 15⟩ }
  { t with
    mem := t.mem.writeAll ((tableWindow nbits w).zipIdx.filterMap fun e => (fetchLocation t e.2).map fun l => (l, e.1)) }

end Sys2Proof.Machine
end

