-- ==== Sys2Proof/Safety.lean ====
section
/-! DEFINITION. When a save runs, in the terms claims use: the conditions of 70_reset_and_hazards.md R232, and the
invariant of launch states. -/

namespace Sys2Proof.Machine

/-- The situations the spec gives a meaning: nothing of the state or of the operand is refused. -/
def Accepted (i : Instr) (s : State) : Prop := launchRefusal i s = none ∧ operandRefusal i s = none

/-- Conditions 1, 2, 3 and 7 of 70_reset_and_hazards.md R232: the feature is present and enabled, CR0.TS is 0, no LOCK
prefix. -/
def Enabled (i : Instr) (s : State) : Prop :=
  s.conf.cpuidXsave = true ∧ s.conf.cpuidXsaveopt = true ∧ s.cr4.getLsbD 18 = true ∧ s.cr0.getLsbD 3 = false
    ∧ hasLock i = false

/-- Byte `k` of the area of `i` lies at a non-canonical address in 64-bit mode; above the limit of the operand's segment in
the other modes; and in real-address mode also where it lies outside 0 to FFFFH (60_exceptions.md R183, R184, R187, R190,
30_encoding.md R111, log 54). -/
def OutsideBounds (i : Instr) (s : State) (k : Nat) : Prop :=
  match s.mode with
  | .realAddress =>
    0xFFFF < (effectiveAddress s i).toNat + k
      ∨ (segOf s (operandSeg s i)).limit.toNat < (effectiveAddress s i).toNat + k
  | .bits64 => canonical s.conf.linearWidth ((laxaOf s i).toNat + k) = false
  | _ => (segOf s (operandSeg s i)).limit.toNat < (effectiveAddress s i).toNat + k

/-- Every byte of Extent can be written (70_reset_and_hazards.md R232 condition 5). -/
def AllAccessible (i : Instr) (s : State) : Prop := ∀ k < areaSize s, accessFault s i k .write = none

/-- Every byte an execution touches can be accessed: XSTATE_BV read, and every store written (20_memory.md R68, R76). -/
def TouchedAccessible (i : Instr) (s : State) : Prop :=
  (∀ j < 8, accessFault s i (s.conf.xstateBvOffset + j) .read = none)
    ∧ ∀ e ∈ operationStores (instrW i) i s, accessFault s i e.1 .write = none

/-- `x` is the fault that translation reports for a write to byte `k` of the area (20_memory.md R76): #GP or #SS for a byte
outside its bounds, else #PF at its linear address. -/
def ReportsByte (i : Instr) (s : State) (x : Exception) (k : Nat) : Prop :=
  (OutsideBounds i s k ∧ (x.kind = .gp ∨ x.kind = .ss))
    ∨ ∃ a, locate s i k .write = .error (.page a) ∧ x.kind = .pf ∧ x.faultAddress = some a

/-- The conditions of 70_reset_and_hazards.md R232 under which XSAVEOPT executes without an exception, in a situation
the spec gives a meaning. -/
structure SaveReady (i : Instr) (s : State) : Prop where
  accepted : Accepted i s
  enabled : Enabled i s
  aligned : (laxaOf s i).toNat % 64 = 0
  accessible : AllAccessible i s

/-- No two bytes of Extent share a location: translation does not fold the area onto itself (log 38). -/
def AliasFree (i : Instr) (s : State) : Prop :=
  ∀ j < areaSize s, ∀ k < areaSize s, ∀ l, locate s i j .write = .ok l → locate s i k .write = .ok l → j = k

/-- The invariant of launch states that a step keeps: memory in its canonical form, a well-formed configuration
(00_scope.md R8), XCR0 within XCR0_SUPPORTED (10_state.md R25), and pc within its width and the CS limit (R23). -/
def LaunchInv (s : State) : Prop :=
  Memory.wf s.mem ∧ configOk s.conf = true ∧ s.xcr0 &&& ~~~s.conf.xcr0Supported = 0#64 ∧ s.pc.toNat ≤ pcMax s

/-- In `t`, the byte of the area that execution of `i` in `s` has at offset `k` is `v`. -/
def HoldsAt (i : Instr) (s t : State) (k : Nat) (v : Byte) : Prop :=
  ∀ l, locate s i k .write = .ok l → t.mem.read l = v

/-- In `t`, the byte of the area at offset `k` is what it was in `s`. -/
def UnchangedAt (i : Instr) (s t : State) (k : Nat) : Prop :=
  ∀ l, locate s i k .write = .ok l → t.mem.read l = s.mem.read l

/-- In `t`, the `n` bytes of the area from offset `o` on are the little-endian bytes of `v` (20_memory.md R61). -/
def FieldHolds (i : Instr) (s t : State) (o n v : Nat) : Prop := ∀ j < n, HoldsAt i s t (o + j) (byteAt v j)

/-- Every byte of memory outside the area `[0, AreaSize)` of `i` in `s` is in `t` what it was in `s`. -/
def OutsideUnchanged (i : Instr) (s t : State) : Prop :=
  ∀ l, (∀ k < areaSize s, locate s i k .write ≠ .ok l) → t.mem.read l = s.mem.read l

/-- In `s` the XSTATE_BV field of the area of `i` reads as `v`. -/
def HeaderReads (i : Instr) (s : State) (v : Quad) : Prop :=
  ∀ j < 8, ∃ l, locate s i (s.conf.xstateBvOffset + j) .read = .ok l ∧ s.mem.read l = byteAt v.toNat j

/-- The bytes of state component `n` of the area: the x87 image, the XMM registers, or the component's place in the
extended region (20_memory.md R64, R66). -/
def partCovers (c : Config) (w : Bool) (n o : Nat) : Bool :=
  if n = 0 then x87Covers c w o else if n = 1 then xmmCovers c o else compCovers c n o

/-- In `t`, bit `n` of the XSTATE_BV field of the area that `i` has in `s` is `v` (20_memory.md R61). -/
def HeaderBitIs (i : Instr) (s t : State) (n : Nat) (v : Bool) : Prop :=
  ∀ l, locate s i (s.conf.xstateBvOffset + n / 8) .write = .ok l → (t.mem.read l).getLsbD (n % 8) = v

/-- A step that neither faults nor is refused. -/
def Completes (s : State) : Prop := ∃ t, step s = .next t

end Sys2Proof.Machine
end

