-- ==== Sys2Proof/Certificates/Slice0/Obligations.lean ====
section
/-! DEFINITION. The statements for the provers. Each docstring names the rule of spec/ it formalises. "i" ranges over
both instructions wherever a statement says `∀ i : Instr`; `locate s i k .write` is the function the meaning uses for the
location of byte k of the XSAVE area, and `s.leave m p` is `s` with memory `m`, pc `p` and the model's own draw counter
advanced: every other field is that of `s`. -/

open Sys2Proof Sys2Proof.Machine

/-! ### Encoding -/

/-- 95_test_vectors.md X2, X4, X13, X18, X23 and X31, from the encodings of 30_encoding.md: words written out bit by bit
decode to the instructions they stand for. -/
def Obligations.VectorWordsDecode : Prop :=
  decode .c64 [0x48#8, 0x0F#8, 0xAE#8, 0x30#8] = .ok (.xsaveopt64 [] ⟨false, false, false⟩ (.base 0#3 .none), [])
    ∧ decode .c64 [0x0F#8, 0xAE#8, 0x74#8, 0x24#8, 0x40#8]
        = .ok (.xsaveopt [] none (.sib 0#2 4#3 4#3 (.d8 0x40#8)), [])
    ∧ decode .c64 [0x4A#8, 0x0F#8, 0xAE#8, 0x34#8, 0x20#8]
        = .ok (.xsaveopt64 [] ⟨false, true, false⟩ (.sib 0#2 4#3 0#3 .none), [])
    ∧ decode .c64 [0x48#8, 0x65#8, 0x0F#8, 0xAE#8, 0x37#8]
        = .ok (.xsaveopt [.rex 8#4, .seg .gs] none (.base 7#3 .none), [])
    ∧ decode .c16 [0x0F#8, 0xAE#8, 0x36#8, 0x00#8, 0x20#8] = .ok (.xsaveopt [] none (.abs16 0x2000#16), [])
    ∧ decode .c32 [0x48#8, 0x0F#8, 0xAE#8, 0x30#8] = .error .notTheOpcode

/-- 30_encoding.md R100 to R119: every well-formed instruction, with every operand its encoding admits, is read back from
its bytes, whatever follows them. -/
def Obligations.DecodeOfEncode : Prop :=
  ∀ (cs : CodeSize) (i : Instr) (rest : List Byte), wellFormed cs i = true → decode cs (encode i ++ rest) = .ok (i, rest)

/-- 30_encoding.md R113, R118: what the decoder accepts is a well-formed instruction, and the bytes it consumed are that
instruction's encoding, 3 to 15 bytes, as many as its length L. -/
def Obligations.EncodeOfDecode : Prop :=
  ∀ (cs : CodeSize) (bs : List Byte) (i : Instr) (rest : List Byte), decode cs bs = .ok (i, rest) →
    wellFormed cs i = true ∧ bs = encode i ++ rest ∧ (encode i).length = instrLength i
      ∧ 3 ≤ instrLength i ∧ instrLength i ≤ 15

/-- 30_encoding.md R102: with 66H, F2H or F3H among the prefixes the bytes are never XSAVEOPT or XSAVEOPT64. -/
def Obligations.MandatoryPrefixRefused : Prop :=
  ∀ (cs : CodeSize) (pre post : List Byte) (b : Byte), (∀ p ∈ pre, (prefixOf cs p).isSome = true) →
    (b = 0x66#8 ∨ b = 0xF2#8 ∨ b = 0xF3#8) → ∀ r, decode cs (pre ++ b :: post) ≠ .ok r

/-- 30_encoding.md R115: 0F AE with another reg field, or with mod = 11, is neither instruction. -/
def Obligations.NeighboursRefused : Prop :=
  ∀ (cs : CodeSize) (pre post : List Byte) (m : Byte), (∀ p ∈ pre, (prefixOf cs p).isSome = true) →
    (m.extractLsb' 3 3 ≠ 6#3 ∨ m.extractLsb' 6 2 = 3#2) → ∀ r, decode cs (pre ++ 0x0F#8 :: 0xAE#8 :: m :: post) ≠ .ok r

/-- 30_encoding.md R116, D3: outside 64-bit mode a byte 40H to 4FH where the opcode should stand is refused, and
XSAVEOPT64 is decoded in 64-bit mode only. -/
def Obligations.RexBytesOutsideBits64 : Prop :=
  (∀ (cs : CodeSize) (pre post : List Byte) (b : Byte), cs ≠ .c64 → (∀ p ∈ pre, (prefixOf cs p).isSome = true) →
    b.extractLsb' 4 4 = 4#4 → decode cs (pre ++ b :: post) = .error .notTheOpcode)
    ∧ ∀ (cs : CodeSize) (bs rest : List Byte) (pfx : List Prefix) (rex : Rex) (mem : MemOperand),
      decode cs bs = .ok (.xsaveopt64 pfx rex mem, rest) → cs = .c64

/-- 30_encoding.md R118 steps 2 and 7: in 64-bit mode REX.W of the REX byte immediately before the opcode chooses
XSAVEOPT64; a byte before the opcode that is no REX byte leaves XSAVEOPT, whatever REX byte came earlier. -/
def Obligations.RexWChoosesXsaveopt64 : Prop :=
  (∀ (pre post rest : List Byte) (v : BitVec 4) (i : Instr), (∀ p ∈ pre, (prefixOf .c64 p).isSome = true) →
    decode .c64 (pre ++ (4#4 ++ v) :: 0x0F#8 :: post) = .ok (i, rest) → instrW i = v.getLsbD 3)
    ∧ ∀ (pre post rest : List Byte) (b : Byte) (i : Instr), (∀ p ∈ pre, (prefixOf .c64 p).isSome = true) →
      b.extractLsb' 4 4 ≠ 4#4 → (prefixOf .c64 b).isSome = true →
      decode .c64 (pre ++ b :: 0x0F#8 :: post) = .ok (i, rest) → instrW i = false

/-! ### Step -/

/-- 00_scope.md R17: where pc lies in the code bytes and the bytes fetched there decode to a well-formed instruction, the
step is that instruction's execution, and nothing is added around it (the execution itself advances pc). -/
def Obligations.StepRunsDecoded : Prop :=
  ∀ (s : State) (i : Instr) (rest : List Byte), inCode s 0 = true →
    decode (codeSizeOf s) (fetchWindow s) = .ok (i, rest) → wellFormed (codeSizeOf s) i = true → step s = exec i s

/-- 00_scope.md R17 with 30_encoding.md R118: where the code bytes at pc are the encoding of a well-formed instruction, a
step executes it. -/
def Obligations.EncodedInstructionRuns : Prop :=
  ∀ (s : State) (i : Instr), wellFormed (codeSizeOf s) i = true →
    (∀ j b, (encode i)[j]? = some b → fetchByte s j = some b) → step s = exec i s

/-- 00_scope.md R17, log 20 (the form of the outcome is the model's choice): just past the code bytes the run has
stopped. -/
def Obligations.CleanStopPastTheCode : Prop :=
  ∀ s : State, instrLinear s = s.code.first + s.code.size → step s = .refused .endOfCode

/-- 10_state.md R41, R42: no step writes a register, a control register, a state component, XINUSE, XMODIFIED,
XRSTOR_INFO, the mode, a segment, the translation state or the configuration; only memory, pc and the model's draw
counter change. -/
def Obligations.StepWritesOnlyMemoryAndPc : Prop := ∀ s t : State, step s = .next t → t = s.leave t.mem t.pc

/-! ### Operand and bitmaps -/

/-- 30_encoding.md R109, R112: the effective address of every 16-bit form, modulo 2^16. -/
def Obligations.EffectiveAddress16 : Prop :=
  ∀ (s : State) (i : Instr), addrSizeIn s i = .a16 →
    (∀ d, instrMem i = .abs16 d → (effectiveAddress s i).toNat = d.toNat)
    ∧ ∀ f d, instrMem i = .base16 f d →
        (effectiveAddress s i).toNat
          = ((match f with
              | .bxSi => s.gpr.rbx.toNat + s.gpr.rsi.toNat
              | .bxDi => s.gpr.rbx.toNat + s.gpr.rdi.toNat
              | .bpSi => s.gpr.rbp.toNat + s.gpr.rsi.toNat
              | .bpDi => s.gpr.rbp.toNat + s.gpr.rdi.toNat
              | .si => s.gpr.rsi.toNat
              | .di => s.gpr.rdi.toNat
              | .bp => s.gpr.rbp.toNat
              | .bx => s.gpr.rbx.toNat)
            + (match d with
              | .none => 0
              | .d8 v => (v.signExtend 16).toNat
              | .d16 v => v.toNat)) % 2 ^ 16

/-- 30_encoding.md R106, R107, R108, R112: the effective address of every form with a 32-bit address size, modulo 2^32,
the RIP-relative one of 64-bit mode with 67H among them. -/
def Obligations.EffectiveAddress32 : Prop :=
  ∀ (s : State) (i : Instr), addrSizeIn s i = .a32 →
    (∀ d, instrMem i = .disp32 d →
        (effectiveAddress s i).toNat
          = if s.mode = .bits64 then (s.pc.toNat + instrLength i + (d.signExtend 64).toNat) % 2 ^ 32 else d.toNat)
    ∧ (∀ r d, instrMem i = .base r d →
        (effectiveAddress s i).toNat
          = ((gprAt s.gpr (regNumber (rexB i) r)).toNat
              + (match d with
                | .none => 0
                | .d8 v => (v.signExtend 32).toNat
                | .d32 v => v.toNat)) % 2 ^ 32)
    ∧ (∀ sc ix b d, instrMem i = .sib sc ix b d →
        (effectiveAddress s i).toNat
          = ((gprAt s.gpr (regNumber (rexB i) b)).toNat
              + (if ix = 4#3 ∧ rexX i = false then 0
                  else (gprAt s.gpr (regNumber (rexX i) ix)).toNat * 2 ^ sc.toNat)
              + (match d with
                | .none => 0
                | .d8 v => (v.signExtend 32).toNat
                | .d32 v => v.toNat)) % 2 ^ 32)
    ∧ (∀ sc ix d, instrMem i = .sibNoBase sc ix d →
        (effectiveAddress s i).toNat
          = ((if ix = 4#3 ∧ rexX i = false then 0
                else (gprAt s.gpr (regNumber (rexX i) ix)).toNat * 2 ^ sc.toNat) + d.toNat) % 2 ^ 32)

/-- 30_encoding.md R107, R108, R112: the effective address of every form with the 64-bit address size, modulo 2^64, the
RIP-relative one among them. -/
def Obligations.EffectiveAddress64 : Prop :=
  ∀ (s : State) (i : Instr), s.mode = .bits64 → addrSizeIn s i = .a64 →
    (∀ d, instrMem i = .disp32 d →
        (effectiveAddress s i).toNat = (s.pc.toNat + instrLength i + (d.signExtend 64).toNat) % 2 ^ 64)
    ∧ (∀ r d, instrMem i = .base r d →
        (effectiveAddress s i).toNat
          = ((gprAt s.gpr (regNumber (rexB i) r)).toNat
              + (match d with
                | .none => 0
                | .d8 v => (v.signExtend 64).toNat
                | .d32 v => (v.signExtend 64).toNat)) % 2 ^ 64)
    ∧ (∀ sc ix b d, instrMem i = .sib sc ix b d →
        (effectiveAddress s i).toNat
          = ((gprAt s.gpr (regNumber (rexB i) b)).toNat
              + (if ix = 4#3 ∧ rexX i = false then 0
                  else (gprAt s.gpr (regNumber (rexX i) ix)).toNat * 2 ^ sc.toNat)
              + (match d with
                | .none => 0
                | .d8 v => (v.signExtend 64).toNat
                | .d32 v => (v.signExtend 64).toNat)) % 2 ^ 64)
    ∧ (∀ sc ix d, instrMem i = .sibNoBase sc ix d →
        (effectiveAddress s i).toNat
          = ((if ix = 4#3 ∧ rexX i = false then 0
                else (gprAt s.gpr (regNumber (rexX i) ix)).toNat * 2 ^ sc.toNat)
              + (d.signExtend 64).toNat) % 2 ^ 64)

/-- 30_encoding.md R110: the address size by the mode, the code segment's D bit and a 67H prefix. -/
def Obligations.AddressSize : Prop :=
  ∀ (s : State) (i : Instr),
    addrSizeIn s i
      = if s.mode = .bits64 then (if .addrSize ∈ instrPrefixes i then .a32 else .a64)
        else if (s.mode = .protectedMode ∨ s.mode = .compatibility) ∧ s.segs.cs.dflag = true then
          (if .addrSize ∈ instrPrefixes i then .a16 else .a32)
        else (if .addrSize ∈ instrPrefixes i then .a32 else .a16)

/-- 30_encoding.md R106 to R109, R111: without an override the segment is SS when the base register is BP, ESP, EBP, RSP
or RBP (not R12 or R13), else DS; the linear address is the effective address in 64-bit mode, and outside it the sum
with the segment's base modulo 2^32. -/
def Obligations.DefaultSegment : Prop :=
  ∀ (s : State) (i : Instr), segOverride (instrPrefixes i) = none →
    operandSeg s i
      = (match instrMem i with
        | .base16 f _ => if f = .bpSi ∨ f = .bpDi ∨ f = .bp then .ss else .ds
        | .abs16 _ => .ds
        | .base r _ => if regNumber (rexB i) r = 5 then .ss else .ds
        | .disp32 _ => .ds
        | .sib _ _ b _ => if regNumber (rexB i) b = 4 ∨ regNumber (rexB i) b = 5 then .ss else .ds
        | .sibNoBase _ _ _ => .ds)
    ∧ (s.mode = .bits64 → laxaOf s i = effectiveAddress s i)
    ∧ (s.mode ≠ .bits64 →
        (laxaOf s i).toNat = ((segOf s (operandSeg s i)).base.toNat + (effectiveAddress s i).toNat) % 2 ^ 32)

/-- 30_encoding.md R111: in 64-bit mode the overrides 26H, 2EH, 36H and 3EH are ignored, the bases of CS, DS, ES and SS
count as 0; an override FS or GS chooses that segment, so that the address does not reference SS whatever its form, and
its base is added modulo 2^64. Outside 64-bit mode an override chooses the segment, whose base is added modulo 2^32. -/
def Obligations.SegmentAndLinearAddress : Prop :=
  ∀ (s : State) (i : Instr),
    (s.mode = .bits64 → ∀ n, segOverride (instrPrefixes i) = some n → n ≠ .fs → n ≠ .gs →
        operandSeg s i = defaultSeg i ∧ laxaOf s i = effectiveAddress s i)
    ∧ (s.mode = .bits64 → segOverride (instrPrefixes i) = some .gs →
        operandSeg s i = .gs
          ∧ (laxaOf s i).toNat = (s.segs.gs.base.toNat + (effectiveAddress s i).toNat) % 2 ^ 64)
    ∧ (s.mode = .bits64 → segOverride (instrPrefixes i) = some .fs →
        operandSeg s i = .fs
          ∧ (laxaOf s i).toNat = (s.segs.fs.base.toNat + (effectiveAddress s i).toNat) % 2 ^ 64)
    ∧ (s.mode ≠ .bits64 → ∀ n, segOverride (instrPrefixes i) = some n →
        operandSeg s i = n ∧ (laxaOf s i).toNat = ((segOf s n).base.toNat + (effectiveAddress s i).toNat) % 2 ^ 32)

/-- 00_scope.md R10, 10_state.md R21, 40_xsaveopt.md R141: bit n of RFBM is that of XCR0 AND EDX:EAX, EAX the low and EDX
the high half; the upper halves of RAX and RDX never enter. -/
def Obligations.RfbmBits : Prop :=
  ∀ (s : State) (n : Nat), n < 64 →
    (rfbm s).getLsbD n
      = (s.xcr0.getLsbD n && (if n < 32 then s.gpr.rax.getLsbD n else s.gpr.rdx.getLsbD (n - 32)))

/-- 40_xsaveopt.md R143, R144: bit n of TO_BE_SAVED: requested, in use, and, when XRSTOR_INFO is exactly
(CPL, VMXNR, LAXA, 0), modified. -/
def Obligations.ToBeSavedBits : Prop :=
  ∀ (s : State) (laxa : Quad) (n : Nat),
    (toBeSaved s laxa).getLsbD n
      = ((rfbm s).getLsbD n && s.xinuse.getLsbD n
          && (s.xmodified.getLsbD n
              || !decide (s.xrstorInfo = some ⟨currentCpl s, s.vmxNonRoot, laxa, 0#64⟩)))

/-! ### Completion and frame -/

/-- 40_xsaveopt.md R153 with 70_reset_and_hazards.md R232: XSAVEOPT completes under the conditions of R232, every byte of
Extent accessible (20_memory.md R76 case 2; the other cases are CheckExtentDecides and TouchedBytesMustBeWritable); pc
advances by L (10_state.md R23, 40_xsaveopt.md R152: decision D2, log 10, PRESUMED), no register changes, no byte outside
the area changes, and XSTATE_BV becomes (OLD_BV AND NOT RFBM) OR (XINUSE AND RFBM). That the linear address is the one that
must be aligned is decision D5 (log 13, DESIGN CHOICE). -/
def Obligations.XsaveoptCompletes : Prop :=
  ∀ (pfx : List Prefix) (rex : Option Rex) (mem : MemOperand) (s : State), SaveReady (.xsaveopt pfx rex mem) s →
    ∃ t, exec (.xsaveopt pfx rex mem) s = .next t ∧ t = s.leave t.mem t.pc
      ∧ t.pc.toNat = s.pc.toNat + instrLength (.xsaveopt pfx rex mem)
      ∧ OutsideUnchanged (.xsaveopt pfx rex mem) s t
      ∧ (AliasFree (.xsaveopt pfx rex mem) s → ∀ old, HeaderReads (.xsaveopt pfx rex mem) s old →
          FieldHolds (.xsaveopt pfx rex mem) s t s.conf.xstateBvOffset 8
            ((old &&& ~~~(s.xcr0 &&& instructionMask s)) ||| (s.xinuse &&& (s.xcr0 &&& instructionMask s))).toNat)

/-- 40_xsaveopt.md R154 with 70_reset_and_hazards.md R232: the same of XSAVEOPT64, with the same decisions: pc advances by L
(D2, log 10, PRESUMED), and the linear address is the one that must be aligned (D5, log 13, DESIGN CHOICE). -/
def Obligations.Xsaveopt64Completes : Prop :=
  ∀ (pfx : List Prefix) (rex : Rex) (mem : MemOperand) (s : State), SaveReady (.xsaveopt64 pfx rex mem) s →
    ∃ t, exec (.xsaveopt64 pfx rex mem) s = .next t ∧ t = s.leave t.mem t.pc
      ∧ t.pc.toNat = s.pc.toNat + instrLength (.xsaveopt64 pfx rex mem)
      ∧ OutsideUnchanged (.xsaveopt64 pfx rex mem) s t
      ∧ (AliasFree (.xsaveopt64 pfx rex mem) s → ∀ old, HeaderReads (.xsaveopt64 pfx rex mem) s old →
          FieldHolds (.xsaveopt64 pfx rex mem) s t s.conf.xstateBvOffset 8
            ((old &&& ~~~(s.xcr0 &&& instructionMask s)) ||| (s.xinuse &&& (s.xcr0 &&& instructionMask s))).toNat)

/-- 10_state.md R41: after XSAVEOPT or XSAVEOPT64 completes without an exception, all state other than memory and pc (and
the model's own draw counter) has the value it had before. -/
def Obligations.RegistersKept : Prop :=
  ∀ (i : Instr) (s t : State), exec i s = .next t → t = s.leave t.mem t.pc

/-- 10_state.md R24: no flag, x87 status bit or MXCSR flag is written, by a completed execution or by an exception; and of
the flags none but the alignment-check enable (bit 18, R40) enters what happens, where the single-step flag (bit 8,
log 3), for which a state is refused, stays the same. -/
def Obligations.FlagsNotAffected : Prop :=
  ∀ (i : Instr) (s t : State) (r : Quad), r.getLsbD 8 = s.rflags.getLsbD 8 → r.getLsbD 18 = s.rflags.getLsbD 18 →
    (exec i s = .next t →
      t.rflags = s.rflags ∧ t.x87 = s.x87 ∧ t.mxcsr = s.mxcsr
        ∧ exec i { s with rflags := r } = .next { t with rflags := r })
    ∧ ∀ x, exec i s = .fault (.raised x t) →
      t.rflags = s.rflags ∧ t.x87 = s.x87 ∧ t.mxcsr = s.mxcsr
        ∧ exec i { s with rflags := r } = .fault (.raised x { t with rflags := r })

/-- Whenever XSAVEOPT or XSAVEOPT64 completes, only memory and pc (and the model's draw counter) change (10_state.md R41);
pc advances by L (R23, 40_xsaveopt.md R152: decision D2, log 10, PRESUMED); and memory changes only inside the area
(20_memory.md R69 (4), which the spec marks derived). -/
def Obligations.CompletedFrame : Prop :=
  ∀ (i : Instr) (s t : State), exec i s = .next t →
    t = s.leave t.mem t.pc ∧ t.pc.toNat = s.pc.toNat + instrLength i ∧ OutsideUnchanged i s t

/-- 40_xsaveopt.md R149: an execution that completes writes XSTATE_BV with (OLD_BV AND NOT RFBM) OR (XINUSE AND RFBM),
bit by bit XINUSE[n] where RFBM[n] = 1 and the bit read from memory where RFBM[n] = 0; and no other byte of the header
changes. That each of its eight bytes is one it could write, even where the value is the same, is the spec's decision D31
(log 34, DESIGN CHOICE). -/
def Obligations.XstateBvWritten : Prop :=
  ∀ (i : Instr) (s t : State), exec i s = .next t →
    (∀ j < 8, ∃ l, locate s i (s.conf.xstateBvOffset + j) .write = .ok l)
    ∧ (AliasFree i s →
      (∀ old, HeaderReads i s old →
        FieldHolds i s t s.conf.xstateBvOffset 8 ((old &&& ~~~rfbm s) ||| (s.xinuse &&& rfbm s)).toNat
        ∧ ∀ n < 64, HeaderBitIs i s t n (if (rfbm s).getLsbD n then s.xinuse.getLsbD n else old.getLsbD n))
      ∧ ∀ o, 512 ≤ o → o < 576 → xstateBvCovers s.conf o = false → UnchangedAt i s t o)

/-- 40_xsaveopt.md R145: when TO_BE_SAVED[0] = 1, XSAVEOPT stores every byte of the x87 image without REX.W (00_scope.md R6,
X87Image); in the default format (20_memory.md R64, log 22) these are the fields with FIP[31:0], FCS, FDP[31:0], FDS. -/
def Obligations.XsaveoptStoresX87 : Prop :=
  ∀ (pfx : List Prefix) (rex : Option Rex) (mem : MemOperand) (s t : State),
    exec (.xsaveopt pfx rex mem) s = .next t → AliasFree (.xsaveopt pfx rex mem) s →
    (toBeSaved s (laxaOf s (.xsaveopt pfx rex mem))).getLsbD 0 = true →
      (∀ o, x87Covers s.conf false o = true →
        HoldsAt (.xsaveopt pfx rex mem) s t o (x87Value s.conf false s.x87 o))
      ∧ (s.conf.x87Image = .fxsave →
        FieldHolds (.xsaveopt pfx rex mem) s t 0 2 s.x87.fcw.toNat
        ∧ FieldHolds (.xsaveopt pfx rex mem) s t 2 2 s.x87.fsw.toNat
        ∧ (∃ b : Byte, HoldsAt (.xsaveopt pfx rex mem) s t 4 b
            ∧ ∀ j < 8, b.getLsbD j = decide (s.x87.ftw.extractLsb' (2 * j) 2 ≠ 3#2))
        ∧ FieldHolds (.xsaveopt pfx rex mem) s t 6 2 s.x87.fop.toNat
        ∧ FieldHolds (.xsaveopt pfx rex mem) s t 8 4 s.x87.fip.toNat
        ∧ FieldHolds (.xsaveopt pfx rex mem) s t 12 2 (if s.conf.fcsFdsDeprecated then 0 else s.x87.fcs.toNat)
        ∧ FieldHolds (.xsaveopt pfx rex mem) s t 16 4 s.x87.fdp.toNat
        ∧ FieldHolds (.xsaveopt pfx rex mem) s t 20 2 (if s.conf.fcsFdsDeprecated then 0 else s.x87.fds.toNat)
        ∧ ∀ k : Fin 8, FieldHolds (.xsaveopt pfx rex mem) s t (32 + 16 * k.val) 10 s.x87.st[k].toNat)

/-- 40_xsaveopt.md R145, R154: when TO_BE_SAVED[0] = 1, XSAVEOPT64 stores every byte of the x87 image with REX.W (00_scope.md
R6, X87Image); in the default format (20_memory.md R64, log 22) these are the fields with FIP and FDP in full. -/
def Obligations.Xsaveopt64StoresX87 : Prop :=
  ∀ (pfx : List Prefix) (rex : Rex) (mem : MemOperand) (s t : State),
    exec (.xsaveopt64 pfx rex mem) s = .next t → AliasFree (.xsaveopt64 pfx rex mem) s →
    (toBeSaved s (laxaOf s (.xsaveopt64 pfx rex mem))).getLsbD 0 = true →
      (∀ o, x87Covers s.conf true o = true →
        HoldsAt (.xsaveopt64 pfx rex mem) s t o (x87Value s.conf true s.x87 o))
      ∧ (s.conf.x87Image = .fxsave →
        FieldHolds (.xsaveopt64 pfx rex mem) s t 0 2 s.x87.fcw.toNat
        ∧ FieldHolds (.xsaveopt64 pfx rex mem) s t 2 2 s.x87.fsw.toNat
        ∧ (∃ b : Byte, HoldsAt (.xsaveopt64 pfx rex mem) s t 4 b
            ∧ ∀ j < 8, b.getLsbD j = decide (s.x87.ftw.extractLsb' (2 * j) 2 ≠ 3#2))
        ∧ FieldHolds (.xsaveopt64 pfx rex mem) s t 6 2 s.x87.fop.toNat
        ∧ FieldHolds (.xsaveopt64 pfx rex mem) s t 8 8 s.x87.fip.toNat
        ∧ FieldHolds (.xsaveopt64 pfx rex mem) s t 16 8 s.x87.fdp.toNat
        ∧ ∀ k : Fin 8, FieldHolds (.xsaveopt64 pfx rex mem) s t (32 + 16 * k.val) 10 s.x87.st[k].toNat)

/-- 40_xsaveopt.md R146, D19: when TO_BE_SAVED[1] = 1, every byte of the XMM image is stored in 64-bit mode (00_scope.md R6,
XmmImage); outside it those of XMM0 to XMM7 are, and each byte of XMM8 to XMM15 is unchanged or the image's. In the default
format (20_memory.md R64, log 22) XMM(k) is at 160 + 16k. -/
def Obligations.XmmStored : Prop :=
  ∀ (i : Instr) (s t : State), exec i s = .next t → AliasFree i s →
    (toBeSaved s (laxaOf s i)).getLsbD 1 = true →
      (∀ o, xmmCovers s.conf o = true →
        ((s.mode = .bits64 ∨ xmmHighCovers s.conf o = false) → HoldsAt i s t o (xmmValue s.conf s.mode s.xmm o))
        ∧ (UnchangedAt i s t o ∨ HoldsAt i s t o (xmmValue s.conf s.mode s.xmm o)))
      ∧ (s.conf.xmmImage = .fxsave → ∀ k : Fin 16,
        ((s.mode = .bits64 ∨ k.val < 8) → FieldHolds i s t (160 + 16 * k.val) 16 s.xmm[k].toNat)
        ∧ ∀ j < 16, UnchangedAt i s t (160 + 16 * k.val + j)
            ∨ HoldsAt i s t (160 + 16 * k.val + j) (byteAt s.xmm[k].toNat j))

/-- 40_xsaveopt.md R143, R147: MXCSR and MXCSR_MASK are stored when RFBM[1] = 1 or RFBM[2] = 1, regardless of XINUSE,
XMODIFIED and XRSTOR_INFO; else their bytes are not written. That each is four bytes is general knowledge (20_memory.md
R64, log 22, PRESUMED). -/
def Obligations.MxcsrStored : Prop :=
  ∀ (i : Instr) (s t : State), exec i s = .next t → AliasFree i s →
    (((rfbm s).getLsbD 1 = true ∨ (rfbm s).getLsbD 2 = true) →
      FieldHolds i s t s.conf.mxcsrOffset 4 s.mxcsr.toNat
        ∧ FieldHolds i s t s.conf.mxcsrMaskOffset 4 s.conf.mxcsrMask.toNat)
    ∧ (((rfbm s).getLsbD 1 = false ∧ (rfbm s).getLsbD 2 = false) →
      ∀ j < 4, UnchangedAt i s t (s.conf.mxcsrOffset + j) ∧ UnchangedAt i s t (s.conf.mxcsrMaskOffset + j))

/-- 40_xsaveopt.md R148: component n of 2 to 62 is stored at CompOffset(n), CompSize(n) bytes, when TO_BE_SAVED[n] = 1. -/
def Obligations.ComponentsStored : Prop :=
  ∀ (i : Instr) (s t : State) (n : Nat), exec i s = .next t → AliasFree i s → 2 ≤ n → n ≤ 62 →
    (toBeSaved s (laxaOf s i)).getLsbD n = true →
      ∀ k < compSize s.conf n, HoldsAt i s t (compOffset s.conf n + k) (compValue s n k)

/-- 20_memory.md R69 (3), 40_xsaveopt.md R145, R146, R148: the bytes of a component with TO_BE_SAVED[n] = 0 are not
written; n is x87 or SSE state, or any component the processor supports, whether or not XCR0 enables it. -/
def Obligations.UnsavedComponentsUnchanged : Prop :=
  ∀ (i : Instr) (s t : State) (n o : Nat), exec i s = .next t → AliasFree i s → n ≤ 62 →
    (n < 2 ∨ s.conf.xcr0Supported.getLsbD n = true) → (toBeSaved s (laxaOf s i)).getLsbD n = false →
    o < areaSize s → partCovers s.conf (instrW i) n o = true → UnchangedAt i s t o

/-- 20_memory.md R68, R69: every byte of the area that no access of R68 stores to keeps its content: a byte that is neither
a reserved one nor in XSTATE_BV, in the MXCSR fields where RFBM[1] = 1 or RFBM[2] = 1, or in a part with
TO_BE_SAVED[n] = 1. So the bytes of the extended region that belong to no component XCR0 enables stay as they are. -/
def Obligations.UnstoredBytesUnchanged : Prop :=
  ∀ (i : Instr) (s t : State) (o : Nat), exec i s = .next t → AliasFree i s → o < areaSize s →
    reservedCovers s.conf (instrW i) o = false → xstateBvCovers s.conf o = false →
    (((rfbm s).getLsbD 1 = true ∨ (rfbm s).getLsbD 2 = true) → mxcsrCovers s.conf o = false) →
    (∀ n ≤ 62, (toBeSaved s (laxaOf s i)).getLsbD n = true → partCovers s.conf (instrW i) n o = false) →
      UnchangedAt i s t o

/-- 20_memory.md R69, D32 (log 35, DESIGN CHOICE): an execution that stores no part of the legacy region (x87 state is not
saved and neither RFBM[1] nor RFBM[2] is set) leaves every byte of it as it was, the reserved ones too. -/
def Obligations.ReservedBytesKept : Prop :=
  ∀ (i : Instr) (s t : State) (o : Nat), exec i s = .next t → AliasFree i s →
    (toBeSaved s (laxaOf s i)).getLsbD 0 = false → (rfbm s).getLsbD 1 = false → (rfbm s).getLsbD 2 = false →
    o < 512 → UnchangedAt i s t o

/-- 40_xsaveopt.md R143, R155 case 3 (the init optimization): requested and XINUSE[n] = 0: the bytes keep their content
and XSTATE_BV[n] becomes 0. -/
def Obligations.InitOptimization : Prop :=
  ∀ (i : Instr) (s t : State) (n o : Nat), exec i s = .next t → AliasFree i s → n ≤ 62 →
    (rfbm s).getLsbD n = true → s.xinuse.getLsbD n = false →
      (partCovers s.conf (instrW i) n o = true → UnchangedAt i s t o) ∧ HeaderBitIs i s t n false

/-- 40_xsaveopt.md R144, R155 case 4, 70_reset_and_hazards.md R233 (the modified optimization): requested, in use,
XRSTOR_INFO matches and XMODIFIED[n] = 0: the bytes are not written and XSTATE_BV[n] becomes 1. -/
def Obligations.ModifiedOptimization : Prop :=
  ∀ (i : Instr) (s t : State) (n o : Nat), exec i s = .next t → AliasFree i s → n ≤ 62 →
    (rfbm s).getLsbD n = true → s.xinuse.getLsbD n = true →
    s.xrstorInfo = some ⟨currentCpl s, s.vmxNonRoot, laxaOf s i, 0#64⟩ → s.xmodified.getLsbD n = false →
      (partCovers s.conf (instrW i) n o = true → UnchangedAt i s t o) ∧ HeaderBitIs i s t n true

/-- 40_xsaveopt.md R155 cases 5 and 11: RFBM[n] = 0: XSTATE_BV[n] passes through, and the bytes of the component do not
change, whatever XINUSE[n] is; n is x87 or SSE state, or any component the processor supports. -/
def Obligations.NotRequestedUnchanged : Prop :=
  ∀ (i : Instr) (s t : State) (n : Nat), exec i s = .next t → AliasFree i s → n < 64 → (rfbm s).getLsbD n = false →
    (∀ l, locate s i (s.conf.xstateBvOffset + n / 8) .write = .ok l →
        (t.mem.read l).getLsbD (n % 8) = (s.mem.read l).getLsbD (n % 8))
    ∧ ∀ o < areaSize s, n ≤ 62 → (n < 2 ∨ s.conf.xcr0Supported.getLsbD n = true) →
        partCovers s.conf (instrW i) n o = true → UnchangedAt i s t o

/-- 20_memory.md R69 (1) and (2): bytes 511:464 of the legacy region, and every part of the header but XSTATE_BV, are
never modified. -/
def Obligations.SoftwareBytesKept : Prop :=
  ∀ (i : Instr) (s t : State) (o : Nat), exec i s = .next t → AliasFree i s → 464 ≤ o → o < 576 →
    xstateBvCovers s.conf o = false → UnchangedAt i s t o

/-- 40_xsaveopt.md R155 case 1: RFBM = 0: nothing in memory changes. -/
def Obligations.EmptyRequestChangesNothing : Prop :=
  ∀ (i : Instr) (s t : State), exec i s = .next t → AliasFree i s → rfbm s = 0#64 →
    ∀ l, t.mem.read l = s.mem.read l

/-! ### Comparisons of two executions -/

/-- 40_xsaveopt.md R155 case 7: where XRSTOR_INFO differs from (CPL, VMXNR, LAXA, 0), the save is as if XMODIFIED were all
ones. -/
def Obligations.NoMatchIgnoresModified : Prop :=
  ∀ (i : Instr) (s t : State), exec i s = .next t →
    s.xrstorInfo ≠ some ⟨currentCpl s, s.vmxNonRoot, laxaOf s i, 0#64⟩ →
      exec i { s with xmodified := BitVec.allOnes 64 } = .next { t with xmodified := BitVec.allOnes 64 }

/-- 40_xsaveopt.md R154: when TO_BE_SAVED[0] = 0, XSAVEOPT and XSAVEOPT64 of the same operand write the same bytes (the
reserved bytes of the legacy region, which no rule fixes, apart). -/
def Obligations.SameBytesWithoutX87 : Prop :=
  ∀ (pfx : List Prefix) (rex : Rex) (mem : MemOperand) (s t u : State),
    exec (.xsaveopt pfx (some rex) mem) s = .next t → exec (.xsaveopt64 pfx rex mem) s = .next u →
    AliasFree (.xsaveopt64 pfx rex mem) s → (toBeSaved s (laxaOf s (.xsaveopt64 pfx rex mem))).getLsbD 0 = false →
      t.pc = u.pc ∧ ∀ o < areaSize s, reservedCovers s.conf false o = false → reservedCovers s.conf true o = false →
        ∀ l, locate s (.xsaveopt64 pfx rex mem) o .write = .ok l → t.mem.read l = u.mem.read l

/-- 10_state.md R21, 40_xsaveopt.md R155 case 10: the upper halves of RAX and RDX never matter where they do not form the
address. -/
def Obligations.UpperHalvesIgnored : Prop :=
  ∀ (i : Instr) (s t : State) (a d : Quad), a.setWidth 32 = s.gpr.rax.setWidth 32 →
    d.setWidth 32 = s.gpr.rdx.setWidth 32 →
    effectiveAddress { s with gpr := { s.gpr with rax := a, rdx := d } } i = effectiveAddress s i →
    exec i s = .next t →
      exec i { s with gpr := { s.gpr with rax := a, rdx := d } }
        = .next { t with gpr := { s.gpr with rax := a, rdx := d } }

/-- 40_xsaveopt.md R157, 60_exceptions.md R196: no privilege level is forbidden: an execution that uses neither paging nor
the modified optimization completes alike at every CPL. -/
def Obligations.CompletesAtEveryCpl : Prop :=
  ∀ (i : Instr) (s t : State) (c : Fin 4), s.paging = none → s.xrstorInfo = none → exec i s = .next t →
    exec i { s with cpl := c } = .next { t with cpl := c }

/-- 20_memory.md R68, R79: in 64-bit mode, executing again from the same pc writes the same bytes (the reserved bytes of
the legacy region apart); so XSTATE_BV keeps its new value on a restart. -/
def Obligations.RepeatWritesTheSame : Prop :=
  ∀ (i : Instr) (s t u : State), s.mode = .bits64 → exec i s = .next t → AliasFree i s →
    exec i { t with pc := s.pc } = .next u →
      ∀ o < areaSize s, reservedCovers s.conf (instrW i) o = false →
        ∀ l, locate s i o .write = .ok l → u.mem.read l = t.mem.read l

/-! ### Exceptions -/

/-- 60_exceptions.md R181, R201: #UD when LOCK is used, a CPUID bit is 0 or CR4.OSXSAVE = 0, and only then. That it comes
before #NM and the memory-operand faults is the spec's decision D4 (R191; log 12, DESIGN CHOICE), that it comes before the
refusal of an operand is the model's (log 40, DESIGN CHOICE), and that nothing has changed is D7 (R192; log 15). -/
def Obligations.InvalidOpcodeRaised : Prop :=
  ∀ (i : Instr) (s : State), launchRefusal i s = none →
    ((hasLock i = true ∨ s.conf.cpuidXsave = false ∨ s.conf.cpuidXsaveopt = false ∨ s.cr4.getLsbD 18 = false) →
      exec i s = .fault (.raised ⟨.ud, none, none⟩ s))
    ∧ ((hasLock i = false ∧ s.conf.cpuidXsave = true ∧ s.conf.cpuidXsaveopt = true ∧ s.cr4.getLsbD 18 = true) →
      ∀ x t, exec i s = .fault (.raised x t) → x.kind ≠ .ud)

/-- 60_exceptions.md R182, R201: #NM when CR0.TS = 1, and only then. That #UD comes before it and it before the
memory-operand faults is the spec's decision D4 (R191; log 12, DESIGN CHOICE), that it comes before the refusal of an
operand is the model's (log 40, DESIGN CHOICE), and that nothing has changed is D7 (R192; log 15). -/
def Obligations.DeviceNotAvailableRaised : Prop :=
  ∀ (i : Instr) (s : State), launchRefusal i s = none → hasLock i = false → s.conf.cpuidXsave = true →
    s.conf.cpuidXsaveopt = true → s.cr4.getLsbD 18 = true →
      (s.cr0.getLsbD 3 = true → exec i s = .fault (.raised ⟨.nm, none, none⟩ s))
      ∧ (s.cr0.getLsbD 3 = false → ∀ x t, exec i s = .fault (.raised x t) → x.kind ≠ .nm)

/-- 20_memory.md R67: a misaligned operand never succeeds. That the linear and not the effective address is tested is the
spec's decision D5 (log 13, DESIGN CHOICE). -/
def Obligations.MisalignedNeverCompletes : Prop :=
  ∀ (i : Instr) (s t : State), (laxaOf s i).toNat % 64 ≠ 0 → exec i s ≠ .next t

/-- 60_exceptions.md R183 (2), R186, R187, R191: the alignment fault, where the area is accessible, or where MemFaultOrder is
limitAlignPage and no byte of the area is outside its bounds (it then comes before #PF): #GP with no error code in
real-address mode; #AC or #GP(0) as AcPolicy says where alignment checking is enabled and CPL = 3; else #GP(0). That the
linear address is tested is the spec's decision D5 (log 13, DESIGN CHOICE), that memory and pc are unchanged D7 (R192, log
15, DESIGN CHOICE) and D2 (log 10, PRESUMED); the two bits that enable the check are R40's general knowledge (log 4,
PRESUMED), and #AC's error code 0 is R180's (log 49, DESIGN CHOICE). -/
def Obligations.AlignmentFaultRaised : Prop :=
  ∀ (i : Instr) (s : State), Accepted i s → Enabled i s →
    (AllAccessible i s ∨ s.conf.memFaultOrder = .limitAlignPage ∧ ∀ k < areaSize s, ¬OutsideBounds i s k) →
    (laxaOf s i).toNat % 64 ≠ 0 →
    exec i s = .fault (.raised
      (if s.mode = .realAddress then ⟨.gp, none, none⟩
        else if s.cr0.getLsbD 18 = true ∧ s.rflags.getLsbD 18 = true ∧ currentCpl s = 3 then
          (match Config.acPolicy (laxaOf s i) with
            | .ac => ⟨.ac, some 0#32, none⟩
            | .gp => ⟨.gp, some 0#32, none⟩)
        else ⟨.gp, some 0#32, none⟩)
      (s.leave s.mem s.pc))

/-- 60_exceptions.md R183 (1), R184, R188, R189, 20_memory.md R76 (1): a byte that is stored lies above the segment limit,
in protected, virtual-8086 and compatibility mode: #SS(0) through SS, else #GP(0), where no other memory-operand fault can
be reported in its place (R191). That an offset above the limit is outside the segment is the model's reading (log 48,
DESIGN CHOICE: R39 gives no meaning of a limit). -/
def Obligations.SegmentLimitFaultRaised : Prop :=
  ∀ (i : Instr) (s : State) (e : Store), (s.mode = .protectedMode ∨ s.mode = .virtual8086 ∨ s.mode = .compatibility) →
    Accepted i s → Enabled i s →
    ((laxaOf s i).toNat % 64 = 0 ∧ s.paging = none ∨ s.conf.memFaultOrder = .limitAlignPage) →
    e ∈ operationStores (instrW i) i s →
    (segOf s (operandSeg s i)).limit.toNat < (effectiveAddress s i).toNat + e.1 →
      ∃ t, exec i s
        = .fault (.raised (if operandSeg s i = .ss then ⟨.ss, some 0#32, none⟩ else ⟨.gp, some 0#32, none⟩) t)

/-- 60_exceptions.md R190, 20_memory.md R76 (1): a byte that is stored lies at a non-canonical address in 64-bit mode: #SS(0)
where the address references SS, else #GP(0), where no other memory-operand fault can be reported in its place (R191). -/
def Obligations.NonCanonicalFaultRaised : Prop :=
  ∀ (i : Instr) (s : State) (e : Store), s.mode = .bits64 → Accepted i s → Enabled i s →
    ((laxaOf s i).toNat % 64 = 0 ∧ s.paging = none ∨ s.conf.memFaultOrder = .limitAlignPage) →
    e ∈ operationStores (instrW i) i s → canonical s.conf.linearWidth ((laxaOf s i).toNat + e.1) = false →
      ∃ t, exec i s
        = .fault (.raised (if operandSeg s i = .ss then ⟨.ss, some 0#32, none⟩ else ⟨.gp, some 0#32, none⟩) t)

/-- 60_exceptions.md R187, 20_memory.md R76 (1): in real-address mode a byte that is stored lies outside 0 to FFFFH, or above
the limit of its segment (30_encoding.md R111): #GP without error code, through SS too. That the limit's fault is this one
is the model's choice (log 54, DESIGN CHOICE: R187 lists no limit). -/
def Obligations.RealModeBoundFaultRaised : Prop :=
  ∀ (i : Instr) (s : State) (e : Store), s.mode = .realAddress → Accepted i s → Enabled i s →
    e ∈ operationStores (instrW i) i s →
    (0xFFFF < (effectiveAddress s i).toNat + e.1
      ∨ (segOf s (operandSeg s i)).limit.toNat < (effectiveAddress s i).toNat + e.1) →
      ∃ t, exec i s = .fault (.raised ⟨.gp, none, none⟩ t)

/-- 20_memory.md R76 (1): where a byte that is stored, one of XSTATE_BV among them, cannot be written, no execution
completes; and in a situation the spec gives a meaning a memory-operand fault is raised. That XSTATE_BV is stored even
where its value stays the same is the spec's decision D31 (log 34, DESIGN CHOICE). -/
def Obligations.TouchedBytesMustBeWritable : Prop :=
  (∀ (i : Instr) (s t : State) (j : Nat), j < 8 → accessFault s i (s.conf.xstateBvOffset + j) .write ≠ none →
    exec i s ≠ .next t)
  ∧ ∀ (i : Instr) (s : State) (e : Store), e ∈ operationStores (instrW i) i s → accessFault s i e.1 .write ≠ none →
    (∀ t, exec i s ≠ .next t)
    ∧ (Accepted i s → Enabled i s →
      ∃ x t, exec i s = .fault (.raised x t) ∧ (x.kind = .gp ∨ x.kind = .ss ∨ x.kind = .pf ∨ x.kind = .ac))

/-- 20_memory.md R76, D6 (log 14, DESIGN CHOICE), and the parameter CheckExtent of 00_scope.md R6: where every byte the
execution touches is accessible, an aligned save completes when CheckExtent is touchedOnly, whatever the other bytes of
Extent are; when it is wholeExtent, a byte of Extent that cannot be written makes the execution fault; and whatever
CheckExtent is, an aligned save completes or raises the fault of one of the bytes that cannot be written. -/
def Obligations.CheckExtentDecides : Prop :=
  ∀ (i : Instr) (s : State), Accepted i s → Enabled i s →
    (s.conf.checkExtent = .touchedOnly → (laxaOf s i).toNat % 64 = 0 → TouchedAccessible i s → ∃ t, exec i s = .next t)
    ∧ (s.conf.checkExtent = .wholeExtent → (∃ k < areaSize s, accessFault s i k .write ≠ none) →
        ∃ x t, exec i s = .fault (.raised x t)
          ∧ ((laxaOf s i).toNat % 64 = 0 → ∃ k < areaSize s, ReportsByte i s x k))
    ∧ ((laxaOf s i).toNat % 64 = 0 →
        (∃ t, exec i s = .next t) ∨ ∃ x t, exec i s = .fault (.raised x t) ∧ ∃ k < areaSize s, ReportsByte i s x k)

/-- 60_exceptions.md R185, R193: a page fault is reported with an error code and the linear address of a byte of the area
for which Translate reported it, and never in real-address mode. -/
def Obligations.PageFaultReported : Prop :=
  ∀ (i : Instr) (s t : State) (x : Exception), exec i s = .fault (.raised x t) → x.kind = .pf →
    s.mode ≠ .realAddress ∧ x.errorCode.isSome = true
      ∧ ∃ k < areaSize s, ∃ kind a, locate s i k kind = .error (.page a) ∧ x.faultAddress = some a
          ∧ a = (laxaOf s i).toNat + k

/-- 60_exceptions.md R180, R183, R184, R186, R187, R190, R193, R201: which exceptions a mode has, their error codes, and when
alone they are raised: no error code with #UD, #NM and the #GP of real-address mode, 0 with #SS, #GP and #AC; no #SS, #PF
or #AC in real-address mode; #GP only for a misaligned operand, or for a byte of the area outside the bounds of its
segment or address space, not through SS but in real-address mode; #SS only for such a byte through SS; #AC only at CPL 3
with alignment checking enabled and a misaligned operand. The bits that enable that check are R40's general knowledge
(log 4, PRESUMED), #AC's error code 0 is R180's (log 49, DESIGN CHOICE), that the linear address is the one that is
misaligned is D5 (log 13, DESIGN CHOICE), and the bounds are read as logs 48 and 54 say (DESIGN CHOICE). -/
def Obligations.ExceptionShape : Prop :=
  ∀ (i : Instr) (s t : State) (x : Exception), exec i s = .fault (.raised x t) →
    match x.kind with
    | .ud => x.errorCode = none ∧ x.faultAddress = none
    | .nm => x.errorCode = none ∧ x.faultAddress = none
    | .gp => x.errorCode = (if s.mode = .realAddress then none else some 0#32) ∧ x.faultAddress = none
        ∧ ((laxaOf s i).toNat % 64 ≠ 0
          ∨ ((s.mode = .realAddress ∨ operandSeg s i ≠ .ss) ∧ ∃ k < areaSize s, OutsideBounds i s k))
    | .ss => s.mode ≠ .realAddress ∧ operandSeg s i = .ss ∧ x.errorCode = some 0#32 ∧ x.faultAddress = none
        ∧ ∃ k < areaSize s, OutsideBounds i s k
    | .pf => s.mode ≠ .realAddress ∧ x.errorCode.isSome = true ∧ x.faultAddress.isSome = true
    | .ac => s.mode ≠ .realAddress ∧ currentCpl s = 3 ∧ acEnabled s = true ∧ (laxaOf s i).toNat % 64 ≠ 0
        ∧ x.errorCode = some 0#32 ∧ x.faultAddress = none

/-- 60_exceptions.md R192, 20_memory.md R79: the state at an exception: pc and every register unchanged; memory unchanged
by #UD, #NM and #AC; else each byte is unchanged or holds the value the execution would have written there. What memory
holds is the spec's decision D7 (log 15, DESIGN CHOICE), that pc is unchanged is D2 (log 10, PRESUMED). -/
def Obligations.FaultLeavesRegisters : Prop :=
  ∀ (i : Instr) (s t : State) (x : Exception), exec i s = .fault (.raised x t) →
    (t = s ∨ t = s.leave t.mem s.pc) ∧ ((x.kind = .ud ∨ x.kind = .nm ∨ x.kind = .ac) → t.mem = s.mem)
      ∧ ∀ l, t.mem.read l = s.mem.read l
          ∨ ∃ e ∈ allStores (instrW i) i s, locate s i e.1 .write = .ok l ∧ t.mem.read l = e.2

/-! ### What is refused, invariants, reset -/

/-- No execution completes in a situation the spec refuses: a mode not admitted (00_scope.md R6), an ill-formed
configuration (R8), XCR0 outside XCR0_SUPPORTED, or bit 63 in either (10_state.md R25, D24), single-stepping
(60_exceptions.md R200; that the flag is bit 8 is PRESUMED, log 3), a segment that is null, not writable or, in protected
and compatibility mode, CS (60_exceptions.md R183, D23, log 29), an area that passes the largest effective or linear address (20_memory.md R80), a
pc + L that passes the width of pc or the CS limit (`pcMax`) or the largest linear address (10_state.md R23, D25), an area
that overlaps the code (20_memory.md R74) or memory with side effects (R78), whatever the permissions (log 17), or an armed
data breakpoint inside it (60_exceptions.md R200). -/
def Obligations.CompletesOnlyWhereDefined : Prop :=
  ∀ (i : Instr) (s t : State), exec i s = .next t →
    s.mode ∈ s.conf.modes
    ∧ (∀ n, 2 ≤ n → n ≤ 62 → s.conf.xcr0Supported.getLsbD n = true →
        576 ≤ compOffset s.conf n
        ∧ ∀ o, compCovers s.conf n o = true → xstateBvCovers s.conf o = false
          ∧ ∀ m, 2 ≤ m → m ≤ 62 → s.conf.xcr0Supported.getLsbD m = true → m ≠ n → compCovers s.conf m o = false)
    ∧ s.xcr0 &&& ~~~s.conf.xcr0Supported = 0#64
    ∧ s.conf.xcr0Supported.getLsbD 63 = false
    ∧ s.xcr0.getLsbD 63 = false
    ∧ s.rflags.getLsbD 8 = false
    ∧ ((s.mode = .protectedMode ∨ s.mode = .virtual8086 ∨ s.mode = .compatibility) →
        (segOf s (operandSeg s i)).isNull = false ∧ (segOf s (operandSeg s i)).writable = true)
    ∧ ((s.mode = .protectedMode ∨ s.mode = .compatibility) → operandSeg s i ≠ .cs)
    ∧ (s.mode ≠ .realAddress →
        (effectiveAddress s i).toNat + areaSize s ≤ 2 ^ addrBits (addrSizeIn s i)
        ∧ (laxaOf s i).toNat + areaSize s ≤ if s.mode = .bits64 then 2 ^ 64 else 2 ^ 32)
    ∧ s.pc.toNat + instrLength i ≤ pcMax s
    ∧ (s.mode ≠ .bits64 → instrLinear s + instrLength i < 2 ^ 32)
    ∧ (∀ k < areaSize s,
        ¬(s.code.first ≤ areaLinear s i k ∧ areaLinear s i k < s.code.first + s.code.size)
        ∧ (∀ r ∈ s.breakpoints, ¬(r.first ≤ areaLinear s i k ∧ areaLinear s i k < r.first + r.size))
        ∧ ∀ l, locationAt s (areaLinear s i k) = some l →
          (∀ j < s.code.size, locationAt s (s.code.first + j) ≠ some l)
          ∧ ∀ r ∈ s.conf.devices, ¬(r.first ≤ l ∧ l < r.first + r.size))

/-- 00_scope.md R8, 10_state.md R23, R25, and the canonical form of memory (log 8): every step keeps the invariant of
launch states. -/
def Obligations.LaunchInvariantKept : Prop := ∀ s t : State, LaunchInv s → step s = .next t → LaunchInv t

/-- The reset state meets the invariant. -/
def Obligations.ResetMeetsLaunchInvariant : Prop := LaunchInv State.reset

/-- 10_state.md R45, second column (PRESUMED, the family's values, log 6): what reset leaves. -/
def Obligations.ResetValues : Prop :=
  State.reset.pc = 0xFFF0#64 ∧ State.reset.segs.cs.base = 0xFFFF0000#64 ∧ State.reset.rflags = 2#64
    ∧ State.reset.xcr0 = 1#64 ∧ State.reset.cr0 = 0x60000010#64 ∧ State.reset.cr4 = 0#64
    ∧ State.reset.mxcsr = 0x1F80#32 ∧ State.reset.x87.fcw = 0x40#16 ∧ State.reset.x87.ftw = 0x5555#16
    ∧ State.reset.xrstorInfo = none ∧ State.reset.cpl = 0 ∧ State.reset.vmxNonRoot = false
    ∧ State.reset.mode = .realAddress

/-- 10_state.md R45, 70_reset_and_hazards.md R231 (PRESUMED, log 6): after reset CR4.OSXSAVE = 0, so an XSAVEOPT or
XSAVEOPT64 placed there raises #UD. -/
def Obligations.UndefinedAfterReset : Prop :=
  ∀ i : Instr, launchRefusal i State.reset = none →
    exec i State.reset = .fault (.raised ⟨.ud, none, none⟩ State.reset)
end

