-- ==== Sys2Proof/Laws/Decode.lean ====
section
/-! SUPPORT. What each part of the decoder and the encoder can do: prefix bytes, the split of the REX prefix, the bit
fields of ModRM and SIB, displacements. -/

namespace Sys2Proof

/-! ### Prefix bytes -/

theorem rexNibble (v : BitVec 4) : (4#4 ++ v : BitVec 8).extractLsb' 4 4 = 4#4 ∧ (4#4 ++ v :
    BitVec 8).extractLsb' 0 4 = v := by
  revert v; decide

/-- The byte of a prefix is read back as that prefix, a REX byte in 64-bit mode only. -/
theorem prefixOf_prefixByte (cs : CodeSize) (p : Prefix) (h : isRexPrefix p = true → cs = .c64) :
    prefixOf cs (prefixByte p) = some p := by
  cases p with
  | seg n => cases n <;> rfl
  | rex v =>
    have hc := h rfl
    subst hc
    revert v
    decide
  | _ => rfl

theorem prefixOf_checked (cs : CodeSize) (b : Byte) :
    (prefixOf cs b).all (fun p => decide (prefixByte p = b) && (!isRexPrefix p || decide (cs = .c64))) = true := by
  cases cs <;> revert b <;> decide +kernel

/-- A byte read as a prefix is that prefix's byte. -/
theorem prefixOf_eq_some {cs : CodeSize} {b : Byte} {p : Prefix} (h : prefixOf cs b = some p) :
    prefixByte p = b ∧ (isRexPrefix p = true → cs = .c64) := by
  have hc := prefixOf_checked cs b
  rw [h] at hc
  simp only [Option.all_some, Bool.and_eq_true, decide_eq_true_eq, Bool.or_eq_true, Bool.not_eq_true'] at hc
  refine ⟨hc.1, fun hr => ?_⟩
  rcases hc.2 with h0 | h0
  · rw [hr] at h0; cases h0
  · exact h0

theorem prefixOf_opcode (cs : CodeSize) : prefixOf cs 0x0F#8 = none := by
  cases cs <;> decide

/-- The prefixes in front are taken, up to the first byte that is none. -/
theorem takePrefixes_append (cs : CodeSize) (ps : List Prefix) (h : ∀ p ∈ ps, isRexPrefix p = true → cs = .c64)
    (b : Byte) (t : List Byte) (hb : prefixOf cs b = none) :
    takePrefixes cs (ps.map prefixByte ++ b :: t) = (ps, b :: t) := by
  induction ps with
  | nil => simp [takePrefixes, hb]
  | cons p ps ih =>
    have ih := ih fun q hq => h q (List.mem_cons_of_mem _ hq)
    simp [takePrefixes, prefixOf_prefixByte cs p (h p List.mem_cons_self), ih]

/-- The bytes are the taken prefixes' bytes and the rest, and the rest begins with no prefix byte. -/
theorem takePrefixes_spec (cs : CodeSize) (bs : List Byte) :
    bs = (takePrefixes cs bs).1.map prefixByte ++ (takePrefixes cs bs).2
      ∧ (∀ p ∈ (takePrefixes cs bs).1, isRexPrefix p = true → cs = .c64)
      ∧ ∀ b t, (takePrefixes cs bs).2 = b :: t → prefixOf cs b = none := by
  induction bs with
  | nil => simp [takePrefixes]
  | cons b bs ih =>
    unfold takePrefixes
    split
    · rename_i p hp
      obtain ⟨h1, h2, h3⟩ := ih
      obtain ⟨hb, hr⟩ := prefixOf_eq_some hp
      refine ⟨?_, ?_, h3⟩
      · simp only [List.map_cons, List.cons_append, hb, List.cons.injEq, true_and]
        exact h1
      · intro q hq
        rcases List.mem_cons.1 hq with rfl | hq
        · exact hr
        · exact h2 q hq
    · rename_i hp
      refine ⟨by simp, by simp, ?_⟩
      intro c t hc
      cases hc
      exact hp

/-- Bytes that are all prefix bytes come before whatever follows. -/
theorem takePrefixes_isSome_append (cs : CodeSize) (pre t : List Byte) (h : ∀ b ∈ pre, (prefixOf cs b).isSome) :
    ∃ ps, ps.map prefixByte = pre ∧ takePrefixes cs (pre ++ t) = (ps ++ (takePrefixes cs t).1, (takePrefixes cs t).2) := by
  induction pre with
  | nil => exact ⟨[], rfl, rfl⟩
  | cons b pre ih =>
    obtain ⟨ps, hps, ht⟩ := ih fun c hc => h c (List.mem_cons_of_mem _ hc)
    obtain ⟨p, hp⟩ := Option.isSome_iff_exists.1 (h b List.mem_cons_self)
    refine ⟨p :: ps, ?_, ?_⟩
    · simp [hps, (prefixOf_eq_some hp).1]
    · simp [takePrefixes, hp, ht]

/-! ### The REX prefix -/

theorem splitRex_rex (ps : List Prefix) (v : BitVec 4) : splitRex (ps ++ [.rex v]) = (ps, some v) := by
  simp [splitRex]

theorem splitRex_none (ps : List Prefix) (h : ps.getLast?.any isRexPrefix = false) : splitRex ps = (ps, none) := by
  unfold splitRex
  split
  · rename_i v hv
    simp [hv, isRexPrefix] at h
  · rfl

/-- The split loses nothing, and without a REX prefix the last prefix is no REX byte. -/
theorem splitRex_spec (ps : List Prefix) :
    (∃ v, (splitRex ps).2 = some v ∧ ps = (splitRex ps).1 ++ [.rex v])
      ∨ ((splitRex ps).2 = none ∧ (splitRex ps).1 = ps ∧ ps.getLast?.any isRexPrefix = false) := by
  unfold splitRex
  split
  · rename_i v hv
    left
    refine ⟨v, rfl, ?_⟩
    obtain ⟨l, rfl⟩ := List.getLast?_eq_some_iff.1 hv
    simp
  · rename_i hno
    right
    refine ⟨rfl, rfl, ?_⟩
    cases hl : ps.getLast? with
    | none => rfl
    | some p =>
      cases p with
      | rex v => exact absurd hl (hno v)
      | _ => rfl

theorem rexBits_spec (w : Bool) (r : Rex) :
    ∃ v : BitVec 4, rexByte w r = prefixByte (.rex v) ∧ v.getLsbD 3 = w ∧ rexOfBits v = r := by
  obtain ⟨a, b, c⟩ := r
  refine ⟨BitVec.ofBool w ++ BitVec.ofBool a ++ BitVec.ofBool b ++ BitVec.ofBool c, rfl, ?_, ?_⟩ <;>
    cases w <;> cases a <;> cases b <;> cases c <;> rfl

theorem prefixByte_rex (v : BitVec 4) : prefixByte (.rex v) = rexByte (v.getLsbD 3) (rexOfBits v) := by
  revert v; decide

/-! ### ModRM, SIB and displacements -/

theorem modRm_fields (mod : BitVec 2) (rm : BitVec 3) :
    (modRmByte mod rm).extractLsb' 6 2 = mod ∧ (modRmByte mod rm).extractLsb' 3 3 = 6#3
      ∧ (modRmByte mod rm).extractLsb' 0 3 = rm := by
  revert mod rm; decide

theorem modRm_of_fields (m : Byte) (h : m.extractLsb' 3 3 = 6#3) :
    m = modRmByte (m.extractLsb' 6 2) (m.extractLsb' 0 3) := by
  revert m; decide

theorem sib_fields (s : BitVec 2) (i b : BitVec 3) :
    (sibByte s i b).extractLsb' 6 2 = s ∧ (sibByte s i b).extractLsb' 3 3 = i ∧ (sibByte s i b).extractLsb' 0 3 = b := by
  revert s i b; decide

theorem sib_of_fields (m : Byte) : m = sibByte (m.extractLsb' 6 2) (m.extractLsb' 3 3) (m.extractLsb' 0 3) := by
  revert m; decide

/-- A bit of a value with a byte appended below it. -/
theorem getLsbD_append_byte {n : Nat} (x : BitVec n) (b : Byte) (j : Nat) :
    (x ++ b).getLsbD j = if j < 8 then b.getLsbD j else x.getLsbD (j - 8) := by
  rw [BitVec.getLsbD_append]

@[simp] theorem form16_round (f : Form16) : form16OfBits (form16Bits f) = f := by cases f <;> rfl

@[simp] theorem form16Bits_round (rm : BitVec 3) : form16Bits (form16OfBits rm) = rm := by revert rm; decide

@[simp] theorem takeDisp8_cons (d : Byte) (t : List Byte) : takeDisp8 (d :: t) = some (d, t) := rfl

@[simp] theorem takeDisp16_bytes (d : BitVec 16) (t : List Byte) :
    takeDisp16 (disp16Bytes d ++ t) = some (d, t) := by
  simp only [disp16Bytes, List.cons_append, List.nil_append, takeDisp16, Option.some.injEq, Prod.mk.injEq, and_true]
  apply BitVec.eq_of_getLsbD_eq
  intro j hj
  rw [getLsbD_append_byte]
  simp only [BitVec.getLsbD_extractLsb']
  split <;> (rw [decide_eq_true (by omega), Bool.true_and]; congr 1; omega)

@[simp] theorem takeDisp32_bytes (d : BitVec 32) (t : List Byte) :
    takeDisp32 (disp32Bytes d ++ t) = some (d, t) := by
  simp only [disp32Bytes, List.cons_append, List.nil_append, takeDisp32, Option.some.injEq, Prod.mk.injEq, and_true]
  apply BitVec.eq_of_getLsbD_eq
  intro j hj
  simp only [getLsbD_append_byte, BitVec.getLsbD_extractLsb']
  repeat' split
  all_goals (rw [decide_eq_true (by omega), Bool.true_and]; congr 1; omega)

/-- Taking a displacement takes its bytes. -/
theorem takeDisp8_eq_some {bs : List Byte} {d : BitVec 8} {t : List Byte} (h : takeDisp8 bs = some (d, t)) :
    bs = d :: t := by
  cases bs with
  | nil => cases h
  | cons b bs => simp only [takeDisp8, Option.some.injEq, Prod.mk.injEq] at h; rw [h.1, h.2]

theorem takeDisp16_eq_some {bs : List Byte} {d : BitVec 16} {t : List Byte} (h : takeDisp16 bs = some (d, t)) :
    bs = disp16Bytes d ++ t := by
  match bs, h with
  | b0 :: b1 :: u, h =>
    simp only [takeDisp16, Option.some.injEq, Prod.mk.injEq] at h
    obtain ⟨rfl, rfl⟩ := h
    simp only [disp16Bytes, List.cons_append, List.nil_append, List.cons.injEq, and_true]
    refine ⟨?_, ?_⟩ <;>
      (apply BitVec.eq_of_getLsbD_eq
       intro j hj
       rw [BitVec.getLsbD_extractLsb', getLsbD_append_byte, decide_eq_true hj, Bool.true_and]
       split <;> first | omega | (congr 1; omega))

theorem takeDisp32_eq_some {bs : List Byte} {d : BitVec 32} {t : List Byte} (h : takeDisp32 bs = some (d, t)) :
    bs = disp32Bytes d ++ t := by
  match bs, h with
  | b0 :: b1 :: b2 :: b3 :: u, h =>
    simp only [takeDisp32, Option.some.injEq, Prod.mk.injEq] at h
    obtain ⟨rfl, rfl⟩ := h
    simp only [disp32Bytes, List.cons_append, List.nil_append, List.cons.injEq, and_true]
    refine ⟨?_, ?_, ?_, ?_⟩ <;>
      (apply BitVec.eq_of_getLsbD_eq
       intro j hj
       rw [BitVec.getLsbD_extractLsb', decide_eq_true hj, Bool.true_and]
       simp only [getLsbD_append_byte]
       repeat' split
       all_goals first | omega | (congr 1; omega))

/-! ### Operands -/

/-- The bytes of an operand: ModRM with mod other than 11, then as many bytes as `memLength` says. -/
theorem encodeMem_cons (m : MemOperand) :
    ∃ mod rm ext, encodeMem m = modRmByte mod rm :: ext ∧ ext.length = memLength m ∧ mod ≠ 3#2 := by
  cases m with
  | base16 f d => cases d <;> exact ⟨_, _, _, rfl, rfl, by decide⟩
  | abs16 d => exact ⟨_, _, _, rfl, rfl, by decide⟩
  | base f d => cases d <;> exact ⟨_, _, _, rfl, rfl, by decide⟩
  | disp32 d => exact ⟨_, _, _, rfl, rfl, by decide⟩
  | sib a b c d => cases d <;> exact ⟨_, _, _, rfl, rfl, by decide⟩
  | sibNoBase a b d => exact ⟨_, _, _, rfl, rfl, by decide⟩

/-- The encoder and the decoder of a 16-bit operand agree. -/
theorem memRound16 (m : MemOperand) (h : memFits16 m = true) (rest : List Byte) :
    ∃ mod rm ext, encodeMem m = modRmByte mod rm :: ext ∧ ext.length = memLength m ∧ mod ≠ 3#2
    ∧ decodeMem16 mod rm (ext ++ rest) = some (m, rest) := by
  cases m with
  | base16 f d =>
    cases d with
    | none => 
      refine ⟨_, _, _, rfl, rfl, by decide, ?_⟩
      cases f <;> first | rfl | cases h
    | d8 v => 
      refine ⟨_, _, _, rfl, rfl, by decide, ?_⟩
      simp [decodeMem16]
    | d16 v => 
      refine ⟨_, _, _, rfl, rfl, by decide, ?_⟩
      simp [decodeMem16]
  | abs16 d => 
      refine ⟨_, _, _, rfl, rfl, by decide, ?_⟩
      simp [decodeMem16]
  | _ => cases h

/-- The encoder and the decoder of a 32-bit or 64-bit operand agree. -/
theorem memRound32 (m : MemOperand) (h : memFits32 m = true) (rest : List Byte) :
    ∃ mod rm ext, encodeMem m = modRmByte mod rm :: ext ∧ ext.length = memLength m ∧ mod ≠ 3#2
    ∧ decodeMem32 mod rm (ext ++ rest) = some (m, rest) := by
  cases m with
  | base r d =>
    cases d with
    | none => 
      simp [memFits32] at h
      refine ⟨_, _, _, rfl, rfl, by decide, ?_⟩
      simp [decodeMem32, h]
    | d8 v => 
      simp [memFits32] at h
      refine ⟨_, _, _, rfl, rfl, by decide, ?_⟩
      simp [decodeMem32, h]
    | d32 v => 
      simp [memFits32] at h
      refine ⟨_, _, _, rfl, rfl, by decide, ?_⟩
      simp [decodeMem32, h]
  | disp32 d =>
      refine ⟨_, _, _, rfl, rfl, by decide, ?_⟩
      simp [decodeMem32]
  | sib s i b d =>
    cases d with
    | none =>
      simp [memFits32] at h
      refine ⟨_, _, _, rfl, rfl, by decide, ?_⟩
      simp [decodeMem32, decodeSib, sib_fields, h]
    | d8 v =>
      refine ⟨_, _, _, rfl, rfl, by decide, ?_⟩
      simp [decodeMem32, decodeSib, sib_fields]
    | d32 v =>
      refine ⟨_, _, _, rfl, rfl, by decide, ?_⟩
      simp [decodeMem32, decodeSib, sib_fields]
  | sibNoBase s i d =>
      refine ⟨_, _, _, rfl, rfl, by decide, ?_⟩
      simp [decodeMem32, decodeSib, sib_fields]
  | _ => cases h

/-- The encoder and the decoder of an operand agree. -/
theorem memRound (a : AddrSize) (m : MemOperand) (h : memFits a m = true) (rest : List Byte) :
    ∃ mod rm ext, encodeMem m = modRmByte mod rm :: ext ∧ ext.length = memLength m ∧ mod ≠ 3#2
    ∧ decodeMem a mod rm (ext ++ rest) = some (m, rest) := by
  cases a
  · exact memRound16 m h rest
  · exact memRound32 m h rest
  · exact memRound32 m h rest

/-- Decoding after any prefix bytes is decoding from the ModRM byte on. -/
theorem decode_of_prefixes (cs : CodeSize) (ps : List Prefix) (h : ∀ p ∈ ps, isRexPrefix p = true → cs = .c64) (m :
    Byte) (t : List Byte) :
    decode cs (ps.map prefixByte ++ 0x0F#8 :: 0xAE#8 :: m :: t)
      = decodeModRm cs (splitRex ps).1 (splitRex ps).2 m t (ps.map prefixByte ++ 0x0F#8 :: 0xAE#8 :: m :: t) := by
  unfold decode
  rw [takePrefixes_append cs ps h _ _ (prefixOf_opcode cs)]
  rfl

/-- What the decoder of a 16-bit operand reads: an operand that fits, and its bytes. -/
theorem decodeMem16_spec {mod : BitVec 2} {rm : BitVec 3} {bs rest : List Byte} {m : MemOperand} (hmod : mod ≠ 3#2)
    (h : decodeMem16 mod rm bs = some (m, rest)) :
    memFits16 m = true ∧ modRmByte mod rm :: bs = encodeMem m ++ rest := by
  unfold decodeMem16 at h
  split at h
  · rename_i h0
    subst h0
    split at h
    · rename_i h6
      subst h6
      obtain ⟨⟨d, t⟩, hd, he⟩ := Option.map_eq_some_iff.1 h
      cases he
      exact ⟨rfl, by rw [takeDisp16_eq_some hd]; rfl⟩
    · rename_i h6
      cases h
      refine ⟨?_, by simp [encodeMem]⟩
      revert rm; decide
  · split at h
    · rename_i h1
      subst h1
      obtain ⟨⟨d, t⟩, hd, he⟩ := Option.map_eq_some_iff.1 h
      cases he
      refine ⟨?_, by rw [takeDisp8_eq_some hd]; simp [encodeMem]⟩
      cases form16OfBits rm <;> rfl
    · rename_i h0 h1
      have h2 : mod = 2#2 := by revert mod; decide
      subst h2
      obtain ⟨⟨d, t⟩, hd, he⟩ := Option.map_eq_some_iff.1 h
      cases he
      refine ⟨?_, by rw [takeDisp16_eq_some hd]; simp [encodeMem]⟩
      cases form16OfBits rm <;> rfl

/-- What the decoder of a SIB form reads: an operand that fits, and its bytes. -/
theorem decodeSib_spec {mod : BitVec 2} {sib : Byte} {bs rest : List Byte} {m : MemOperand} (hmod : mod ≠ 3#2)
    (h : decodeSib mod sib bs = some (m, rest)) :
    memFits32 m = true ∧ modRmByte mod 4#3 :: sib :: bs = encodeMem m ++ rest := by
  unfold decodeSib at h
  simp only at h
  split at h
  · rename_i h0
    subst h0
    split at h
    · rename_i h5
      obtain ⟨⟨d, t⟩, hd, he⟩ := Option.map_eq_some_iff.1 h
      cases he
      refine ⟨rfl, ?_⟩
      rw [takeDisp32_eq_some hd]
      conv => lhs; rw [sib_of_fields sib, h5]
      simp [encodeMem]
    · rename_i h5
      cases h
      refine ⟨by simpa [memFits32] using h5, ?_⟩
      conv => lhs; rw [sib_of_fields sib]
      simp [encodeMem]
  · split at h
    · rename_i h1
      subst h1
      obtain ⟨⟨d, t⟩, hd, he⟩ := Option.map_eq_some_iff.1 h
      cases he
      refine ⟨rfl, ?_⟩
      rw [takeDisp8_eq_some hd]
      conv => lhs; rw [sib_of_fields sib]
      simp [encodeMem]
    · rename_i h0 h1
      have h2 : mod = 2#2 := by revert mod; decide
      subst h2
      obtain ⟨⟨d, t⟩, hd, he⟩ := Option.map_eq_some_iff.1 h
      cases he
      refine ⟨rfl, ?_⟩
      rw [takeDisp32_eq_some hd]
      conv => lhs; rw [sib_of_fields sib]
      simp [encodeMem]

/-- What the decoder of a 32-bit or 64-bit operand reads: an operand that fits, and its bytes. -/
theorem decodeMem32_spec {mod : BitVec 2} {rm : BitVec 3} {bs rest : List Byte} {m : MemOperand} (hmod : mod ≠ 3#2)
    (h : decodeMem32 mod rm bs = some (m, rest)) :
    memFits32 m = true ∧ modRmByte mod rm :: bs = encodeMem m ++ rest := by
  unfold decodeMem32 at h
  split at h
  · rename_i h4
    subst h4
    split at h
    · exact decodeSib_spec hmod h
    · cases h
  · rename_i h4
    split at h
    · rename_i h0
      subst h0
      split at h
      · rename_i h5
        subst h5
        obtain ⟨⟨d, t⟩, hd, he⟩ := Option.map_eq_some_iff.1 h
        cases he
        exact ⟨rfl, by rw [takeDisp32_eq_some hd]; simp [encodeMem]⟩
      · rename_i h5
        cases h
        exact ⟨by simp [memFits32, h4, h5], by simp [encodeMem]⟩
    · split at h
      · rename_i h1
        subst h1
        obtain ⟨⟨d, t⟩, hd, he⟩ := Option.map_eq_some_iff.1 h
        cases he
        exact ⟨by simp [memFits32, h4], by rw [takeDisp8_eq_some hd]; simp [encodeMem]⟩
      · rename_i h0 h1
        have h2 : mod = 2#2 := by revert mod; decide
        subst h2
        obtain ⟨⟨d, t⟩, hd, he⟩ := Option.map_eq_some_iff.1 h
        cases he
        exact ⟨by simp [memFits32, h4], by rw [takeDisp32_eq_some hd]; simp [encodeMem]⟩

/-- What the decoder of an operand reads: an operand that fits, and its bytes. -/
theorem decodeMem_spec {a : AddrSize} {mod : BitVec 2} {rm : BitVec 3} {bs rest : List Byte} {m : MemOperand} (hmod :
    mod ≠ 3#2)
    (h : decodeMem a mod rm bs = some (m, rest)) :
    memFits a m = true ∧ modRmByte mod rm :: bs = encodeMem m ++ rest := by
  cases a
  · exact decodeMem16_spec hmod h
  · exact decodeMem32_spec hmod h
  · exact decodeMem32_spec hmod h

/-- What is accepted from the ModRM byte on. -/
theorem decodeModRm_ok {cs : CodeSize} {pfx : List Prefix} {rex : Option (BitVec 4)} {m : Byte} {bs window :
    List Byte} {i : Instr} {rest : List Byte}
    (h : decodeModRm cs pfx rex m bs window = .ok (i, rest)) :
    m.extractLsb' 3 3 = 6#3 ∧ m.extractLsb' 6 2 ≠ 3#2 ∧ pfx.any isMandatoryPrefix = false ∧ groupsOnce pfx = true
      ∧ ∃ mem, decodeMem (addrSizeOf cs pfx) (m.extractLsb' 6 2) (m.extractLsb' 0 3) bs = some (mem, rest)
        ∧ i = instrOf pfx rex mem ∧ instrLength i ≤ 15 := by
  unfold decodeModRm at h
  simp only at h
  split at h
  · cases h
  rename_i h1
  split at h
  · cases h
  rename_i h2
  split at h
  · cases h
  rename_i h3
  split at h
  · cases h
  rename_i h4
  split at h
  · cases h
  rename_i mem t hm
  split at h
  · rename_i hl
    cases h
    exact ⟨by simpa using h1, h2, by simpa using h3, by simpa using h4, mem, hm, rfl, hl⟩
  · cases h

/-- What is accepted: prefixes, 0F AE, and what `decodeModRm` accepts. -/
theorem decode_ok {cs : CodeSize} {bs : List Byte} {i : Instr} {rest : List Byte} (h : decode cs bs = .ok (i, rest)) :
    ∃ m t, (takePrefixes cs bs).2 = 0x0F#8 :: 0xAE#8 :: m :: t
      ∧ decodeModRm cs (splitRex (takePrefixes cs bs).1).1 (splitRex (takePrefixes cs bs).1).2 m t bs = .ok (i, rest) := by
  unfold decode at h
  simp only at h
  split at h
  · cases h
  rename_i o1 t1 h1
  split at h
  · cases h
  rename_i ho1
  split at h
  · cases h
  rename_i o2 t2
  split at h
  · cases h
  rename_i ho2
  split at h
  · cases h
  rename_i m t3
  simp at ho1 ho2
  subst ho1 ho2
  exact ⟨_, _, h1, h⟩

/-- How many bytes an operand has. -/
theorem encodeMem_length (m : MemOperand) : (encodeMem m).length = memLength m + 1 := by
  obtain ⟨a, b, e, h, hl, _⟩ := encodeMem_cons m
  rw [h]; simp [hl]

/-- How many bytes an instruction has (30_encoding.md R113). -/
theorem encode_length (i : Instr) : (encode i).length = instrLength i := by
  cases i with
  | xsaveopt p r m => cases r <;> simp [encode, instrLength, encodeMem_length] <;> omega
  | xsaveopt64 p r m => simp [encode, instrLength, encodeMem_length]; omega

end Sys2Proof
end

