-- ==== Sys2Proof/Laws/Memory.lean ====
section
/-! SUPPORT. What memory answers after a write, and that every memory operation keeps the canonical form. -/

namespace Sys2Proof.Machine

theorem find?_filter_of_imp (m : Memory) (a : Nat) (p : Host.Cell → Bool) (h : ∀ c : Host.Cell, c.1 = a → p c = true) :
    (m.filter p).find? (fun c => c.1 == a) = m.find? (fun c => c.1 == a) := by
  rw [List.find?_filter]
  congr 1
  funext c
  by_cases hc : c.1 = a
  · simp [hc, h c hc]
  · simp [hc]

theorem find?_filter_of_not (m : Memory) (a : Nat) (p : Host.Cell → Bool) (h : ∀ c : Host.Cell, c.1 = a → p c = false) :
    (m.filter p).find? (fun c => c.1 == a) = none := by
  rw [List.find?_eq_none]
  intro c hc
  rw [List.mem_filter] at hc
  intro he
  have := h c (by simpa using he)
  simp [this] at hc

/-- A read after a write to the same place gives the value written. -/
@[simp] theorem read_write_same (m : Memory) (a : Nat) (v : Byte) : (m.write a v).read a = v := by
  unfold Memory.read Memory.write
  rw [List.find?_append, List.find?_append,
    find?_filter_of_not m a (fun c => decide (c.1 < a)) (by intro c hc; simp [hc]),
    find?_filter_of_not m a (fun c => decide (a < c.1)) (by intro c hc; simp [hc])]
  by_cases hv : v = unlistedByte
  · simp [hv]
  · simp [hv]

/-- A write leaves every other place alone. -/
theorem read_write_other (m : Memory) {a b : Nat} (v : Byte) (h : b ≠ a) : (m.write a v).read b = m.read b := by
  have hmid : (if v = unlistedByte then ([] : Memory) else [(a, v)]).find? (fun c => c.1 == b) = none := by
    by_cases hv : v = unlistedByte
    · simp [hv]
    · simp [hv]; exact fun e => h e.symm
  unfold Memory.read Memory.write
  rw [List.find?_append, List.find?_append, hmid]
  rcases Nat.lt_or_gt_of_ne h with hlt | hgt
  · rw [find?_filter_of_imp m b (fun c => decide (c.1 < a)) (by intro c hc; simp [hc, hlt]),
      find?_filter_of_not m b (fun c => decide (a < c.1)) (by intro c hc; simp [hc]; omega)]
    simp
  · rw [find?_filter_of_not m b (fun c => decide (c.1 < a)) (by intro c hc; simp [hc]; omega),
      find?_filter_of_imp m b (fun c => decide (a < c.1)) (by intro c hc; simp [hc, hgt])]
    simp

/-- A write keeps the canonical form. -/
theorem write_wf {m : Memory} (h : m.wf) (a : Nat) (v : Byte) : (m.write a v).wf := by
  obtain ⟨hs, hz⟩ := h
  refine ⟨?_, ?_⟩
  · unfold Memory.write
    refine List.pairwise_append.2 ⟨hs.filter _, List.pairwise_append.2 ⟨?_, hs.filter _, ?_⟩, ?_⟩
    · split <;> simp
    · intro x hx y hy
      have hy' := (List.mem_filter.1 hy).2
      split at hx
      · simp at hx
      · simp only [List.mem_singleton] at hx
        subst hx
        simpa using hy'
    · intro x hx y hy
      have hx' : x.1 < a := by simpa using (List.mem_filter.1 hx).2
      rcases List.mem_append.1 hy with hy | hy
      · split at hy
        · simp at hy
        · simp only [List.mem_singleton] at hy
          subst hy
          exact hx'
      · have : a < y.1 := by simpa using (List.mem_filter.1 hy).2
        omega
  · intro c hc
    unfold Memory.write at hc
    rcases List.mem_append.1 hc with hc | hc
    · exact hz c (List.mem_filter.1 hc).1
    · rcases List.mem_append.1 hc with hc | hc
      · split at hc
        · simp at hc
        · simp only [List.mem_singleton] at hc
          subst hc
          assumption
      · exact hz c (List.mem_filter.1 hc).1

/-- A sequence of writes keeps the canonical form. -/
theorem writeAll_wf {m : Memory} (h : m.wf) (ws : List Host.Cell) : (m.writeAll ws).wf := by
  induction ws generalizing m with
  | nil => exact h
  | cons c t ih => exact ih (write_wf h c.1 c.2)

@[simp] theorem writeAll_nil (m : Memory) : m.writeAll [] = m := rfl

@[simp] theorem writeAll_cons (m : Memory) (c : Host.Cell) (t : List Host.Cell) :
    m.writeAll (c :: t) = (m.write c.1 c.2).writeAll t := rfl

theorem writeAll_append (m : Memory) (a b : List Host.Cell) : m.writeAll (a ++ b) = (m.writeAll a).writeAll b := by
  simp [Memory.writeAll]

/-- A sequence of writes leaves a place alone that none of them goes to. -/
theorem read_writeAll_other (m : Memory) (ws : List Host.Cell) (a : Nat) (h : ∀ c ∈ ws, c.1 ≠ a) :
    (m.writeAll ws).read a = m.read a := by
  induction ws generalizing m with
  | nil => rfl
  | cons c t ih =>
    rw [writeAll_cons, ih _ (fun d hd => h d (List.mem_cons_of_mem _ hd)),
      read_write_other _ _ (Ne.symm (h c List.mem_cons_self))]

/-- A place holds, after a sequence of writes, its old value or one that was written to it. -/
theorem read_writeAll_cases (m : Memory) (ws : List Host.Cell) (a : Nat) :
    (m.writeAll ws).read a = m.read a ∨ ∃ c ∈ ws, c.1 = a ∧ (m.writeAll ws).read a = c.2 := by
  induction ws generalizing m with
  | nil => exact .inl rfl
  | cons c t ih =>
    rw [writeAll_cons]
    rcases ih (m.write c.1 c.2) with h | ⟨d, hd, hda, hv⟩
    · by_cases hc : c.1 = a
      · right
        refine ⟨c, List.mem_cons_self, hc, ?_⟩
        rw [h, ← hc, read_write_same]
      · left
        rw [h, read_write_other _ _ (Ne.symm hc)]
    · exact .inr ⟨d, List.mem_cons_of_mem _ hd, hda, hv⟩

/-- A place some write goes to holds one of the values written to it. -/
theorem read_writeAll_mem (m : Memory) (ws : List Host.Cell) (a : Nat) (h : ∃ c ∈ ws, c.1 = a) :
    ∃ c ∈ ws, c.1 = a ∧ (m.writeAll ws).read a = c.2 := by
  induction ws generalizing m with
  | nil => simp at h
  | cons c t ih =>
    rw [writeAll_cons]
    by_cases ht : ∃ d ∈ t, d.1 = a
    · obtain ⟨d, hd, hda, hv⟩ := ih (m.write c.1 c.2) ht
      exact ⟨d, List.mem_cons_of_mem _ hd, hda, hv⟩
    · have hca : c.1 = a := by
        obtain ⟨d, hd, hda⟩ := h
        rcases List.mem_cons.1 hd with rfl | hd
        · exact hda
        · exact absurd ⟨d, hd, hda⟩ ht
      refine ⟨c, List.mem_cons_self, hca, ?_⟩
      rw [read_writeAll_other _ _ _ (fun d hd he => ht ⟨d, hd, he⟩), ← hca, read_write_same]

/-- If every write to a place writes the same value, and one does, the place holds it. -/
theorem read_writeAll_value (m : Memory) (ws : List Host.Cell) (a : Nat) (v : Byte) (h : (a, v) ∈ ws)
    (hu : ∀ c ∈ ws, c.1 = a → c.2 = v) : (m.writeAll ws).read a = v := by
  obtain ⟨c, hc, hca, hv⟩ := read_writeAll_mem m ws a ⟨_, h, rfl⟩
  rw [hv, hu c hc hca]

end Sys2Proof.Machine
end

