-- ==== Sys2Proof/Laws/PerInstr.lean ====
section
/-! SUPPORT. Statements made for each instruction as syntax, one lemma per constructor of Instr. -/

namespace Sys2Proof.Laws.EncodedLength

/-- 30_encoding.md R113: the encoding has as many bytes as the instruction's length L, prefixes, opcode and ModRM byte at
least, and at most 15 when it is well formed. -/
def Statement (i : Instr) : Prop :=
  (encode i).length = instrLength i ∧ (instrPrefixes i).length + 3 ≤ instrLength i
    ∧ ∀ cs, wellFormed cs i = true → instrLength i ≤ 15

theorem xsaveopt (pfx : List Prefix) (rex : Option Rex) (mem : MemOperand) : Statement (.xsaveopt pfx rex mem) := by
  refine ⟨encode_length _, ?_, fun cs h => ?_⟩
  · rcases rex with _ | r
    · simp [instrPrefixes, instrLength]
    · simp [instrPrefixes, instrLength]
      omega
  · simp only [wellFormed, Bool.and_eq_true, decide_eq_true_eq] at h
    exact h.2

theorem xsaveopt64 (pfx : List Prefix) (rex : Rex) (mem : MemOperand) : Statement (.xsaveopt64 pfx rex mem) := by
  refine ⟨encode_length _, ?_, fun cs h => ?_⟩
  · simp [instrPrefixes, instrLength]
    omega
  · simp only [wellFormed, Bool.and_eq_true, decide_eq_true_eq] at h
    exact h.2

end Sys2Proof.Laws.EncodedLength
end

