-- ==== Sys2Proof/Laws/State.lean ====
section
/-! SUPPORT. One lemma per field per update of the state: `State.leave`, the only update an execution makes, and what
the accessors read of it; and the update of `withFetchWord`. -/

namespace Sys2Proof.Machine

variable (s : State) (m : Memory) (p : Quad)

@[simp] theorem leave_gpr : (s.leave m p).gpr = s.gpr := rfl
@[simp] theorem leave_rflags : (s.leave m p).rflags = s.rflags := rfl
@[simp] theorem leave_cr0 : (s.leave m p).cr0 = s.cr0 := rfl
@[simp] theorem leave_cr4 : (s.leave m p).cr4 = s.cr4 := rfl
@[simp] theorem leave_xcr0 : (s.leave m p).xcr0 = s.xcr0 := rfl
@[simp] theorem leave_x87 : (s.leave m p).x87 = s.x87 := rfl
@[simp] theorem leave_xmm : (s.leave m p).xmm = s.xmm := rfl
@[simp] theorem leave_mxcsr : (s.leave m p).mxcsr = s.mxcsr := rfl
@[simp] theorem leave_comps : (s.leave m p).comps = s.comps := rfl
@[simp] theorem leave_xinuse : (s.leave m p).xinuse = s.xinuse := rfl
@[simp] theorem leave_xmodified : (s.leave m p).xmodified = s.xmodified := rfl
@[simp] theorem leave_xrstorInfo : (s.leave m p).xrstorInfo = s.xrstorInfo := rfl
@[simp] theorem leave_cpl : (s.leave m p).cpl = s.cpl := rfl
@[simp] theorem leave_vmxNonRoot : (s.leave m p).vmxNonRoot = s.vmxNonRoot := rfl
@[simp] theorem leave_mode : (s.leave m p).mode = s.mode := rfl
@[simp] theorem leave_segs : (s.leave m p).segs = s.segs := rfl
@[simp] theorem leave_paging : (s.leave m p).paging = s.paging := rfl
@[simp] theorem leave_breakpoints : (s.leave m p).breakpoints = s.breakpoints := rfl
@[simp] theorem leave_code : (s.leave m p).code = s.code := rfl
@[simp] theorem leave_conf : (s.leave m p).conf = s.conf := rfl
@[simp] theorem leave_mem : (s.leave m p).mem = m := rfl
@[simp] theorem leave_pc : (s.leave m p).pc = p := rfl
@[simp] theorem leave_draws : (s.leave m p).draws = s.draws + 1 := rfl
@[simp] theorem leave_leave (m' : Memory) (p' : Quad) :
    (s.leave m p).leave m' p' = { s.leave m' p' with draws := s.draws + 2 } := rfl

@[simp] theorem codeSizeOf_leave : codeSizeOf (s.leave m p) = codeSizeOf s := rfl
@[simp] theorem currentCpl_leave : currentCpl (s.leave m p) = currentCpl s := rfl
@[simp] theorem pcMax_leave : pcMax (s.leave m p) = pcMax s := rfl
@[simp] theorem taskSwitched_leave : taskSwitched (s.leave m p) = taskSwitched s := rfl
@[simp] theorem osxsave_leave : osxsave (s.leave m p) = osxsave s := rfl
@[simp] theorem acEnabled_leave : acEnabled (s.leave m p) = acEnabled s := rfl
@[simp] theorem singleStepping_leave : singleStepping (s.leave m p) = singleStepping s := rfl
@[simp] theorem rfbm_leave : rfbm (s.leave m p) = rfbm s := rfl
@[simp] theorem xcr0Ok_leave : xcr0Ok (s.leave m p) = xcr0Ok s := rfl
@[simp] theorem areaSize_leave : areaSize (s.leave m p) = areaSize s := rfl
@[simp] theorem instructionMask_leave : instructionMask (s.leave m p) = instructionMask s := rfl
@[simp] theorem segOf_leave (n : SegName) : segOf (s.leave m p) n = segOf s n := rfl
@[simp] theorem segBase_leave (n : SegName) : segBase (s.leave m p) n = segBase s n := rfl
@[simp] theorem segBound_leave (n : SegName) : segBound (s.leave m p) n = segBound s n := rfl
@[simp] theorem linearAddress_leave (n : SegName) (ea : Quad) :
    linearAddress (s.leave m p) n ea = linearAddress s n ea := rfl
@[simp] theorem pageTranslate_leave (k : Access) (a : Nat) :
    pageTranslate (s.leave m p) k a = pageTranslate s k a := rfl
@[simp] theorem locationAt_leave (a : Nat) : locationAt (s.leave m p) a = locationAt s a := rfl
@[simp] theorem byteLinear_leave (n : SegName) (ea : Quad) (j : Nat) :
    byteLinear (s.leave m p) n ea j = byteLinear s n ea j := rfl
@[simp] theorem translate_leave (n : SegName) (ea : Quad) (j : Nat) (k : Access) :
    translate (s.leave m p) n ea j k = translate s n ea j k := rfl

variable (nbits w : Nat)

@[simp] theorem withFetchWord_gpr : (s.withFetchWord nbits w).gpr = s.gpr := rfl
@[simp] theorem withFetchWord_rflags : (s.withFetchWord nbits w).rflags = s.rflags := rfl
@[simp] theorem withFetchWord_cr0 : (s.withFetchWord nbits w).cr0 = s.cr0 := rfl
@[simp] theorem withFetchWord_cr4 : (s.withFetchWord nbits w).cr4 = s.cr4 := rfl
@[simp] theorem withFetchWord_xcr0 : (s.withFetchWord nbits w).xcr0 = s.xcr0 := rfl
@[simp] theorem withFetchWord_x87 : (s.withFetchWord nbits w).x87 = s.x87 := rfl
@[simp] theorem withFetchWord_xmm : (s.withFetchWord nbits w).xmm = s.xmm := rfl
@[simp] theorem withFetchWord_mxcsr : (s.withFetchWord nbits w).mxcsr = s.mxcsr := rfl
@[simp] theorem withFetchWord_comps : (s.withFetchWord nbits w).comps = s.comps := rfl
@[simp] theorem withFetchWord_xinuse : (s.withFetchWord nbits w).xinuse = s.xinuse := rfl
@[simp] theorem withFetchWord_xmodified : (s.withFetchWord nbits w).xmodified = s.xmodified := rfl
@[simp] theorem withFetchWord_xrstorInfo : (s.withFetchWord nbits w).xrstorInfo = s.xrstorInfo := rfl
@[simp] theorem withFetchWord_cpl : (s.withFetchWord nbits w).cpl = s.cpl := rfl
@[simp] theorem withFetchWord_vmxNonRoot : (s.withFetchWord nbits w).vmxNonRoot = s.vmxNonRoot := rfl
@[simp] theorem withFetchWord_segs : (s.withFetchWord nbits w).segs = s.segs := rfl
@[simp] theorem withFetchWord_paging : (s.withFetchWord nbits w).paging = s.paging := rfl
@[simp] theorem withFetchWord_breakpoints : (s.withFetchWord nbits w).breakpoints = s.breakpoints := rfl
@[simp] theorem withFetchWord_conf : (s.withFetchWord nbits w).conf = s.conf := rfl
@[simp] theorem withFetchWord_pc : (s.withFetchWord nbits w).pc = s.pc := rfl
@[simp] theorem withFetchWord_draws : (s.withFetchWord nbits w).draws = s.draws := rfl
@[simp] theorem withFetchWord_mode : (s.withFetchWord nbits w).mode = .bits64 := rfl
@[simp] theorem withFetchWord_codeSize : (s.withFetchWord nbits w).code.size = 15 := rfl

end Sys2Proof.Machine
end

