-- ==== Sys2Proof/Laws/Save.lean ====
section
/-! SUPPORT. What an execution can do, said once: the outcomes of `saveCommon`, the stores of each part, and what memory
holds after a commit. -/

namespace Sys2Proof.Machine

/-! ### Outcomes -/

theorem exec_eq (i : Instr) (s : State) : exec i s = saveCommon (instrW i) i s := by cases i <;> rfl

theorem raise_ne_next (k : ExceptionKind) (c : Option (BitVec 32)) (a : Option Nat) (s t : State) :
    raise k c a s ≠ .next t := by simp [raise]

/-- What raising a limit or canonical fault gives. -/
theorem raiseLimit_eq (n : SegName) (s : State) :
    raiseLimit n s = .fault (.raised
      (if s.mode = .realAddress then ⟨.gp, none, none⟩
        else if n = .ss then ⟨.ss, some 0#32, none⟩ else ⟨.gp, some 0#32, none⟩) s) := by
  unfold raiseLimit raise
  cases s.mode <;> simp <;> split <;> rfl

/-- What raising an alignment fault gives. -/
theorem raiseAlign_eq (a : Quad) (s : State) :
    raiseAlign a s = .fault (.raised
      (if s.mode = .realAddress then ⟨.gp, none, none⟩
        else if acEnabled s ∧ currentCpl s = 3 ∧ Config.acPolicy a = .ac then ⟨.ac, some 0#32, none⟩
        else ⟨.gp, some 0#32, none⟩) s) := by
  unfold raiseAlign raise
  cases s.mode <;> simp <;> split <;> rfl

/-- A memory-operand fault, whichever the cause, leaves `s.leave m s.pc` with `m` the old memory (alignment) or the
interrupted one. -/
theorem raiseCause_eq (w : Bool) (i : Instr) (s : State) (c : MemCause) :
    ∃ x, raiseCause w i s c = .fault (.raised x (if c = .align then s.leave s.mem s.pc else interrupted w i s)) := by
  cases c with
  | align => exact ⟨_, raiseAlign_eq _ _⟩
  | limit => exact ⟨_, raiseLimit_eq _ _⟩
  | page lin => exact ⟨_, rfl⟩

/-- The reported cause is one of those that apply. -/
theorem drawCause_mem (n : Nat) (c : MemCause) (cs : List MemCause) : drawCause n c cs ∈ c :: cs := by
  unfold drawCause
  split
  · simp
  · have h : n % (cs.length + 1) < (c :: cs).length := by simpa using Nat.mod_lt _ (Nat.succ_pos _)
    rw [List.getD_eq_getElem _ _ h]
    exact List.getElem_mem h

theorem reportedCause_mem (s : State) (c : MemCause) (cs : List MemCause) : reportedCause s c cs ∈ c :: cs := by
  unfold reportedCause
  split
  · exact drawCause_mem _ _ _
  · split
    · assumption
    · split
      · assumption
      · exact drawCause_mem _ _ _

/-- If the operation completes, every check passed and the state is `completed`. -/
theorem saveCommon_next {w : Bool} {i : Instr} {s t : State} (h : saveCommon w i s = .next t) :
    launchRefusal i s = none ∧ undefinedOpcode i s = false ∧ taskSwitched s = false ∧ operandRefusal i s = none
      ∧ memCauses w i s = [] ∧ t = completed w i s := by
  unfold saveCommon at h
  split at h
  · cases h
  · rename_i hl
    split at h
    · cases h
    · rename_i hu
      split at h
      · cases h
      · rename_i ht
        split at h
        · cases h
        · rename_i ho
          unfold finishSave at h
          split at h
          · rename_i hm
            cases h
            exact ⟨hl, by simpa using hu, by simpa using ht, ho, hm, rfl⟩
          · obtain ⟨x, hx⟩ := raiseCause_eq w i s (reportedCause s _ _)
            rw [hx] at h
            cases h

/-- If every check passes, the operation completes. -/
theorem saveCommon_completes {w : Bool} {i : Instr} {s : State} (hl : launchRefusal i s = none)
    (hu : undefinedOpcode i s = false) (ht : taskSwitched s = false) (ho : operandRefusal i s = none)
    (hm : memCauses w i s = []) : saveCommon w i s = .next (completed w i s) := by
  simp [saveCommon, finishSave, hl, hu, ht, ho, hm]

/-- If the operation faults, it is #UD, else #NM, else a memory-operand fault whose cause applies. -/
theorem saveCommon_fault {w : Bool} {i : Instr} {s t : State} {x : Exception}
    (h : saveCommon w i s = .fault (.raised x t)) :
    launchRefusal i s = none ∧
      ((undefinedOpcode i s = true ∧ x = ⟨.ud, none, none⟩ ∧ t = s)
      ∨ (undefinedOpcode i s = false ∧ taskSwitched s = true ∧ x = ⟨.nm, none, none⟩ ∧ t = s)
      ∨ (undefinedOpcode i s = false ∧ taskSwitched s = false ∧ operandRefusal i s = none
        ∧ ∃ c ∈ memCauses w i s, raiseCause w i s c = .fault (.raised x t))) := by
  unfold saveCommon at h
  split at h
  · cases h
  · rename_i hl
    refine ⟨hl, ?_⟩
    split at h
    · rename_i hu
      cases h
      exact .inl ⟨hu, rfl, rfl⟩
    · rename_i hu
      split at h
      · rename_i ht
        cases h
        exact .inr (.inl ⟨by simpa using hu, ht, rfl, rfl⟩)
      · rename_i ht
        split at h
        · cases h
        · rename_i ho
          unfold finishSave at h
          split at h
          · cases h
          · rename_i c cs hm
            refine .inr (.inr ⟨by simpa using hu, by simpa using ht, ho, _, ?_, h⟩)
            rw [hm]
            exact reportedCause_mem s c cs

/-! ### The checks -/

/-- What a state and term that are not refused are. -/
theorem launchRefusal_eq_none {i : Instr} {s : State} (h : launchRefusal i s = none) :
    wellFormed (codeSizeOf s) i = true ∧ configOk s.conf = true ∧ s.mode ∈ s.conf.modes ∧ xcr0Ok s = true
      ∧ singleStepping s = false := by
  unfold launchRefusal at h
  repeat' split at h
  all_goals first | (cases h; done) | skip
  rename_i h1 h2 h3 h4 h5
  exact ⟨by simpa using h1, by simpa using h2, by simpa using h3, by simpa using h4, by simpa using h5⟩

/-- What an operand that is not refused is. -/
theorem operandRefusal_eq_none {i : Instr} {s : State} (h : operandRefusal i s = none) :
    segmentUsable s (operandSeg s i) = true ∧ operandWraps i s = false ∧ pcWraps i s = false
      ∧ overlapsCode i s = false ∧ overlapsDevice i s = false ∧ overlapsBreakpoint i s = false := by
  unfold operandRefusal at h
  repeat' split at h
  all_goals first | (cases h; done) | skip
  rename_i h1 h2 h3 h4 h5 h6
  exact ⟨by simpa using h1, by simpa using h2, by simpa using h3, by simpa using h4, by simpa using h5,
    by simpa using h6⟩

theorem causesOf_eq_nil {fs : List AccessFault} (h : causesOf fs = []) : fs = [] := by
  cases fs with
  | nil => rfl
  | cons f fs =>
    cases f with
    | limit => simp [causesOf] at h
    | page lin => simp [causesOf] at h

/-- If no memory-operand fault applies, the operand is aligned and every touched byte is accessible. -/
theorem memCauses_eq_nil {w : Bool} {i : Instr} {s : State} (h : memCauses w i s = []) :
    misaligned i s = false ∧ touchedFaults w i s = [] := by
  unfold memCauses at h
  rw [List.append_eq_nil_iff] at h
  refine ⟨?_, ?_⟩
  · by_contra hm
    simp [hm] at h
  · have h2 := h.2
    unfold accessCauses at h2
    split at h2
    · exact absurd (causesOf_eq_nil h2) (by simp)
    · assumption

theorem accessFault_eq_none {s : State} {i : Instr} {k : Nat} {kind : Access} :
    accessFault s i k kind = none ↔ ∃ l, locate s i k kind = .ok l := by
  unfold accessFault
  cases locate s i k kind <;> simp

/-- If no memory-operand fault applies, every store has a location. -/
theorem stores_located {w : Bool} {i : Instr} {s : State} (h : memCauses w i s = []) {e : Store}
    (he : e ∈ operationStores w i s) : ∃ l, locate s i e.1 .write = .ok l := by
  have ht := (memCauses_eq_nil h).2
  unfold touchedFaults at ht
  rw [List.append_eq_nil_iff] at ht
  exact accessFault_eq_none.1 (List.filterMap_eq_nil_iff.1 ht.2 e he)

/-! ### The stores of each part -/

theorem mem_fieldStores {a n v : Nat} {e : Store} :
    e ∈ fieldStores a n v ↔ ∃ j < n, e = (a + j, byteAt v j) := by
  simp [fieldStores, eq_comm]

theorem mem_x87Stores {w : Bool} {s : State} {e : Store} :
    e ∈ x87Stores w s ↔ e.1 < 464 ∧ x87Covers s.conf w e.1 = true ∧ e.2 = x87Value s.conf w s.x87 e.1 := by
  obtain ⟨o, b⟩ := e
  simp only [x87Stores, List.mem_map, List.mem_filter, List.mem_range, Prod.mk.injEq]
  constructor
  · rintro ⟨a, ⟨hl, h⟩, rfl, rfl⟩
    exact ⟨hl, h, rfl⟩
  · rintro ⟨hl, h, rfl⟩
    exact ⟨o, ⟨hl, h⟩, rfl, rfl⟩

theorem mem_xmmStores {s : State} {e : Store} :
    e ∈ xmmStores s ↔ e.1 < 464 ∧ xmmCovers s.conf e.1 = true ∧ storesXmmByte s e.1 = true
      ∧ e.2 = xmmValue s.conf s.mode s.xmm e.1 := by
  obtain ⟨o, b⟩ := e
  simp only [xmmStores, List.mem_map, List.mem_filter, List.mem_range, Prod.mk.injEq, Bool.and_eq_true]
  constructor
  · rintro ⟨a, ⟨hl, h, hs⟩, rfl, rfl⟩
    exact ⟨hl, h, hs, rfl⟩
  · rintro ⟨hl, h, hs, rfl⟩
    exact ⟨o, ⟨hl, h, hs⟩, rfl, rfl⟩

theorem mem_compStores {s : State} {i : Nat} {e : Store} :
    e ∈ compStores s i ↔ ∃ k < compSize s.conf i, e = (compOffset s.conf i + k, compValue s i k) := by
  simp [compStores, eq_comm]

/-- The stores of an execution, part by part (40_xsaveopt.md R140). -/
theorem mem_operationStores {w : Bool} {i : Instr} {s : State} {e : Store} :
    e ∈ operationStores w i s ↔
      ((toBeSaved s (laxaOf s i)).getLsbD 0 = true ∧ e ∈ x87Stores w s)
      ∨ ((toBeSaved s (laxaOf s i)).getLsbD 1 = true ∧ e ∈ xmmStores s)
      ∨ (((rfbm s).getLsbD 1 = true ∨ (rfbm s).getLsbD 2 = true) ∧ e ∈ mxcsrStores s)
      ∨ (∃ c ∈ compNumbers, (toBeSaved s (laxaOf s i)).getLsbD c = true ∧ e ∈ compStores s c)
      ∨ e ∈ fieldStores s.conf.xstateBvOffset 8 (newBv s i).toNat := by
  have hif : ∀ (p : Prop) [Decidable p] (l : List Store), (e ∈ if p then l else []) ↔ (p ∧ e ∈ l) := by
    intro p _ l
    by_cases hp : p <;> simp [hp]
  simp only [operationStores, List.mem_append, hif, List.mem_flatMap, List.mem_filter, Bool.or_eq_true, or_assoc,
    and_assoc]

/-- A reserved byte that is written lies in the reserved part of the legacy region. -/
theorem mem_reservedStores {w : Bool} {i : Instr} {s : State} {e : Store} (h : e ∈ reservedStores w i s) :
    reservedCovers s.conf w e.1 = true ∧ e.2 = Config.freeReserved s.draws e.1 := by
  unfold reservedStores at h
  split at h
  · obtain ⟨o, ho, rfl⟩ := List.mem_map.1 h
    exact ⟨(List.mem_filter.1 ho).2, rfl⟩
  · cases h

/-! ### Memory after a commit -/

theorem mem_located {s : State} {i : Instr} {ss : List Store} {c : Host.Cell} :
    c ∈ ss.filterMap (located s i) ↔ ∃ e ∈ ss, locate s i e.1 .write = .ok c.1 ∧ c.2 = e.2 := by
  simp only [List.mem_filterMap]
  constructor
  · rintro ⟨e, he, hl⟩
    refine ⟨e, he, ?_⟩
    unfold located at hl
    split at hl
    · rename_i l hk
      cases hl
      exact ⟨hk, rfl⟩
    · cases hl
  · rintro ⟨e, he, hk, hv⟩
    refine ⟨e, he, ?_⟩
    unfold located
    rw [hk, ← hv]

/-- A location no store goes to keeps its byte. -/
theorem read_commit_other {s : State} {i : Instr} {ss : List Store} {l : Nat}
    (h : ∀ e ∈ ss, locate s i e.1 .write ≠ .ok l) : (commit s i ss).read l = s.mem.read l := by
  refine read_writeAll_other _ _ _ fun c hc he => ?_
  obtain ⟨e, hm, hk, _⟩ := mem_located.1 hc
  exact h e hm (he ▸ hk)

/-- A location holds, after a commit, its old byte or that of a store that goes to it. -/
theorem read_commit_cases (s : State) (i : Instr) (ss : List Store) (l : Nat) :
    (commit s i ss).read l = s.mem.read l
      ∨ ∃ e ∈ ss, locate s i e.1 .write = .ok l ∧ (commit s i ss).read l = e.2 := by
  rcases read_writeAll_cases s.mem (ss.filterMap (located s i)) l with h | ⟨c, hc, hcl, hv⟩
  · exact .inl h
  · obtain ⟨e, he, hk, hce⟩ := mem_located.1 hc
    exact .inr ⟨e, he, hcl ▸ hk, hv.trans hce⟩

/-- A location one store goes to, with all others that go there agreeing, holds its byte. -/
theorem read_commit_value {s : State} {i : Instr} {ss : List Store} {e : Store} {l : Nat} (he : e ∈ ss)
    (hl : locate s i e.1 .write = .ok l) (hu : ∀ f ∈ ss, locate s i f.1 .write = .ok l → f.2 = e.2) :
    (commit s i ss).read l = e.2 := by
  refine read_writeAll_value _ _ _ _ (mem_located.2 ⟨e, he, hl, rfl⟩) fun c hc hcl => ?_
  obtain ⟨f, hf, hk, hcf⟩ := mem_located.1 hc
  rw [hcf]
  exact hu f hf (hcl ▸ hk)

theorem commit_wf {s : State} (h : s.mem.wf) (i : Instr) (ss : List Store) : (commit s i ss).wf := writeAll_wf h _

/-! ### The area -/

theorem foldl_max_ge (f : Nat → Nat) (l : List Nat) (m : Nat) :
    m ≤ l.foldl (fun a i => max a (f i)) m ∧ ∀ i ∈ l, f i ≤ l.foldl (fun a i => max a (f i)) m := by
  induction l generalizing m with
  | nil => simp
  | cons a l ih =>
    obtain ⟨h1, h2⟩ := ih (max m (f a))
    simp only [List.foldl_cons, List.mem_cons, forall_eq_or_imp]
    exact ⟨by omega, by omega, h2⟩

theorem le_areaSize (s : State) : 576 ≤ areaSize s := (foldl_max_ge _ _ _).1

theorem comp_le_areaSize {s : State} {i : Nat} (hi : i ∈ compNumbers) (hx : s.xcr0.getLsbD i = true) :
    compOffset s.conf i + compSize s.conf i ≤ areaSize s :=
  (foldl_max_ge (fun i => compOffset s.conf i + compSize s.conf i) _ _).2 i (List.mem_filter.2 ⟨hi, hx⟩)

theorem rangesMeet_eq_false {a n b m : Nat} (h : rangesMeet a n b m = false) {j k : Nat} (hj : j < n) (hk : k < m) :
    a + j ≠ b + k := by
  intro he
  simp only [rangesMeet, Bool.and_eq_false_iff, decide_eq_false_iff_not, not_lt, Nat.le_zero] at h
  omega

/-- The parts of a well-formed configuration. -/
theorem configOk_parts {c : Config} (h : configOk c = true) :
    compsOk c = true ∧ fieldsOk c = true ∧ offsetsOk c = true ∧ imagesApart c = true ∧ supportedOk c = true := by
  simpa [configOk, and_assoc] using h

/-- The places of the fields in a well-formed configuration. -/
theorem configOk_fields {c : Config} (h : configOk c = true) :
    c.mxcsrOffset + 4 ≤ 464 ∧ c.mxcsrMaskOffset + 4 ≤ 464
      ∧ (c.mxcsrOffset + 4 ≤ c.mxcsrMaskOffset ∨ c.mxcsrMaskOffset + 4 ≤ c.mxcsrOffset)
      ∧ 512 ≤ c.xstateBvOffset ∧ c.xstateBvOffset + 8 ≤ 576 ∧ c.xcr0Supported.getLsbD 63 = false := by
  obtain ⟨_, hf, _, _, hs⟩ := configOk_parts h
  simp only [fieldsOk, rangesMeet, Bool.and_eq_true, Bool.not_eq_true', Bool.and_eq_false_iff, decide_eq_true_eq,
    decide_eq_false_iff_not] at hf
  simp only [supportedOk, Bool.and_eq_true, Bool.not_eq_true'] at hs
  obtain ⟨⟨⟨⟨h1, h2⟩, h3⟩, h4⟩, h5⟩ := hf
  refine ⟨h1, h2, ?_, h4, h5, hs.2⟩
  omega

theorem configOk_comps {c : Config} (h : configOk c = true) {i : Nat} (hi : i ∈ supportedComps c) :
    576 ≤ compOffset c i ∧ ∀ j ∈ supportedComps c, i = j ∨
      rangesMeet (compOffset c i) (compSize c i) (compOffset c j) (compSize c j) = false := by
  have hc := (configOk_parts h).1
  simp only [compsOk, List.all_eq_true] at hc
  have := hc i hi
  simp only [Bool.and_eq_true, List.all_eq_true, decide_eq_true_eq, Bool.or_eq_true, Bool.not_eq_true'] at this
  exact ⟨this.1.1, this.2⟩

/-- The images of a well-formed configuration lie below 464. -/
theorem covers_lt {c : Config} (h : configOk c = true) {o : Nat} :
    (∀ w, x87Covers c w o = true → o < 464) ∧ (xmmCovers c o = true → o < 464) := by
  have hp := (configOk_parts h).2.2.1
  simp only [offsetsOk, Bool.and_eq_true] at hp
  obtain ⟨h1, h2⟩ := hp
  refine ⟨fun w hx => ?_, fun hx => ?_⟩
  · unfold x87Covers at hx
    split at hx
    · simp only [fxsaveX87Covers, Bool.or_eq_true, Bool.and_eq_true, decide_eq_true_eq] at hx
      omega
    · rename_i p q he
      rw [he] at h1
      simp only [List.all_eq_true, List.mem_append, decide_eq_true_eq] at h1
      cases w
      · exact h1 o (.inl (List.contains_iff_mem.1 hx))
      · exact h1 o (.inr (List.contains_iff_mem.1 hx))
  · unfold xmmCovers at hx
    split at hx
    · simp only [Bool.and_eq_true, decide_eq_true_eq] at hx
      omega
    · rename_i p q he
      rw [he] at h2
      simp only [List.all_eq_true, List.mem_append, decide_eq_true_eq] at h2
      simp only [Bool.or_eq_true, List.contains_iff_mem] at hx
      exact h2 o hx

/-- The images of a well-formed configuration and the MXCSR fields have no byte in common (40_xsaveopt.md R151). -/
theorem covers_apart {c : Config} (h : configOk c = true) {o : Nat} :
    (∀ w, x87Covers c w o = true → xmmCovers c o = false ∧ mxcsrCovers c o = false)
      ∧ (xmmCovers c o = true → mxcsrCovers c o = false) := by
  have hp := (configOk_parts h).2.2.2.1
  simp only [imagesApart, List.all_eq_true, List.mem_range, Bool.and_eq_true, Bool.not_eq_true',
    Bool.and_eq_false_iff, Bool.or_eq_false_iff] at hp
  refine ⟨fun w hx => ?_, fun hx => ?_⟩
  · obtain ⟨⟨h1, h2⟩, _⟩ := hp o ((covers_lt h).1 w hx)
    cases w
    · simpa [hx] using h1
    · simpa [hx] using h2
  · obtain ⟨_, h3⟩ := hp o ((covers_lt h).2 hx)
    simpa [hx] using h3

/-- A component XCR0 enables is one the configuration supports. -/
theorem supported_of_xcr0 {s : State} (h : xcr0Ok s = true) {i : Nat} (hi : i ∈ compNumbers)
    (hx : s.xcr0.getLsbD i = true) : i ∈ supportedComps s.conf := by
  refine List.mem_filter.2 ⟨hi, ?_⟩
  have h0 : s.xcr0 &&& ~~~s.conf.xcr0Supported = 0#64 := by simpa [xcr0Ok] using h
  have hb := congrArg (fun v => v.getLsbD i) h0
  have hlt : i < 64 := by
    have := List.mem_range'_1.1 hi
    omega
  simpa [hx, hlt] using hb

theorem toBeSaved_le_rfbm {s : State} {a : Quad} {n : Nat} (h : (toBeSaved s a).getLsbD n = true) :
    (rfbm s).getLsbD n = true ∧ s.xinuse.getLsbD n = true := by
  unfold toBeSaved at h
  split at h <;> simp at h
  · exact ⟨h.1.1, h.1.2⟩
  · exact h

theorem rfbm_le_xcr0 {s : State} {n : Nat} (h : (rfbm s).getLsbD n = true) : s.xcr0.getLsbD n = true := by
  simp only [rfbm, BitVec.getLsbD_and, Bool.and_eq_true] at h
  exact h.1

/-! ### All stores of an execution -/

theorem mem_compNumbers {n : Nat} : n ∈ compNumbers ↔ 2 ≤ n ∧ n ≤ 62 := by
  simp only [compNumbers, List.mem_range'_1]
  omega

theorem mem_mxcsrStores {s : State} {e : Store} :
    e ∈ mxcsrStores s ↔ (∃ j < 4, e = (s.conf.mxcsrOffset + j, byteAt s.mxcsr.toNat j))
      ∨ ∃ j < 4, e = (s.conf.mxcsrMaskOffset + j, byteAt s.conf.mxcsrMask.toNat j) := by
  simp only [mxcsrStores, List.mem_append, mem_fieldStores]

/-- The component stores are of a component that XCR0 enables, at its place. -/
theorem comp_store_place {s : State} (hc : configOk s.conf = true) (hx : xcr0Ok s = true) {a : Quad} {c : Nat}
    (hm : c ∈ compNumbers) (hs : (toBeSaved s a).getLsbD c = true) :
    c ∈ supportedComps s.conf ∧ 576 ≤ compOffset s.conf c ∧ compOffset s.conf c + compSize s.conf c ≤ areaSize s := by
  have h1 := rfbm_le_xcr0 (toBeSaved_le_rfbm hs).1
  have h2 := supported_of_xcr0 hx hm h1
  exact ⟨h2, (configOk_comps hc h2).1, comp_le_areaSize hm h1⟩

/-- Every store of the operation lies in a part of the area. -/
inductive StorePlace (w : Bool) (i : Instr) (s : State) : Store → Prop where
  | x87 (o : Nat) : (toBeSaved s (laxaOf s i)).getLsbD 0 = true → o < 464 → x87Covers s.conf w o = true →
      StorePlace w i s (o, x87Value s.conf w s.x87 o)
  | xmm (o : Nat) : (toBeSaved s (laxaOf s i)).getLsbD 1 = true → o < 464 → xmmCovers s.conf o = true →
      storesXmmByte s o = true → StorePlace w i s (o, xmmValue s.conf s.mode s.xmm o)
  | mxcsr (j : Nat) : (rfbm s).getLsbD 1 = true ∨ (rfbm s).getLsbD 2 = true → j < 4 →
      StorePlace w i s (s.conf.mxcsrOffset + j, byteAt s.mxcsr.toNat j)
  | mask (j : Nat) : (rfbm s).getLsbD 1 = true ∨ (rfbm s).getLsbD 2 = true → j < 4 →
      StorePlace w i s (s.conf.mxcsrMaskOffset + j, byteAt s.conf.mxcsrMask.toNat j)
  | comp (c k : Nat) : c ∈ compNumbers → (toBeSaved s (laxaOf s i)).getLsbD c = true → k < compSize s.conf c →
      StorePlace w i s (compOffset s.conf c + k, compValue s c k)
  | header (j : Nat) : j < 8 → StorePlace w i s (s.conf.xstateBvOffset + j, byteAt (newBv s i).toNat j)

theorem storePlace_iff {w : Bool} {i : Instr} {s : State} {e : Store} :
    e ∈ operationStores w i s ↔ StorePlace w i s e := by
  rw [mem_operationStores]
  constructor
  · rintro (⟨h, hm⟩ | ⟨h, hm⟩ | ⟨h, hm⟩ | ⟨c, hc, h, hm⟩ | hm)
    · obtain ⟨h1, h2, h3⟩ := mem_x87Stores.1 hm
      have := StorePlace.x87 (w := w) (i := i) (s := s) e.1 h h1 h2
      rwa [← h3] at this
    · obtain ⟨h1, h2, h3, h4⟩ := mem_xmmStores.1 hm
      have := StorePlace.xmm (w := w) (i := i) (s := s) e.1 h h1 h2 h3
      rwa [← h4] at this
    · rcases mem_mxcsrStores.1 hm with ⟨j, hj, rfl⟩ | ⟨j, hj, rfl⟩
      · exact .mxcsr j h hj
      · exact .mask j h hj
    · obtain ⟨k, hk, rfl⟩ := mem_compStores.1 hm
      exact .comp c k hc h hk
    · obtain ⟨j, hj, rfl⟩ := mem_fieldStores.1 hm
      exact .header j hj
  · intro h
    cases h with
    | x87 o h hl hc => exact .inl ⟨h, mem_x87Stores.2 ⟨hl, hc, rfl⟩⟩
    | xmm o h hl hc hs => exact .inr (.inl ⟨h, mem_xmmStores.2 ⟨hl, hc, hs, rfl⟩⟩)
    | mxcsr j h hj => exact .inr (.inr (.inl ⟨h, mem_mxcsrStores.2 (.inl ⟨j, hj, rfl⟩)⟩))
    | mask j h hj => exact .inr (.inr (.inl ⟨h, mem_mxcsrStores.2 (.inr ⟨j, hj, rfl⟩)⟩))
    | comp c k hc h hk => exact .inr (.inr (.inr (.inl ⟨c, hc, h, mem_compStores.2 ⟨k, hk, rfl⟩⟩)))
    | header j hj => exact .inr (.inr (.inr (.inr (mem_fieldStores.2 ⟨j, hj, rfl⟩))))

theorem reservedCovers_spec {c : Config} {w : Bool} {o : Nat} (h : reservedCovers c w o = true) :
    o < 464 ∧ x87Covers c w o = false ∧ xmmCovers c o = false ∧ mxcsrCovers c o = false := by
  simpa [reservedCovers, and_assoc] using h

/-- Every store lies in the area. -/
theorem stores_lt_area {w : Bool} {i : Instr} {s : State} (hc : configOk s.conf = true) (hx : xcr0Ok s = true)
    {e : Store} (he : e ∈ allStores w i s) : e.1 < areaSize s := by
  have hA := le_areaSize s
  obtain ⟨f1, f2, f3, f4, f5, f6⟩ := configOk_fields hc
  rcases List.mem_append.1 he with h | h
  · have := (reservedCovers_spec (mem_reservedStores h).1).1
    omega
  · cases storePlace_iff.1 h with
    | x87 o hs hl ho => simp only; omega
    | xmm o hs hl ho hq => simp only; omega
    | mxcsr j hs hj => simp only; omega
    | mask j hs hj => simp only; omega
    | comp c k hm hs hk => have := comp_store_place hc hx hm hs; simp only; omega
    | header j hj => simp only; omega

theorem mxcsrCovers_iff {c : Config} {o : Nat} : mxcsrCovers c o = true ↔
    c.mxcsrOffset ≤ o ∧ o < c.mxcsrOffset + 4 ∨ c.mxcsrMaskOffset ≤ o ∧ o < c.mxcsrMaskOffset + 4 := by
  simp [mxcsrCovers]

/-- The byte an execution that stores at an offset stores there, by the part the offset lies in. -/
def partValue (w : Bool) (i : Instr) (s : State) (o : Nat) : Byte :=
  if o < 464 then
    if x87Covers s.conf w o then x87Value s.conf w s.x87 o
    else if xmmCovers s.conf o then xmmValue s.conf s.mode s.xmm o
    else if s.conf.mxcsrOffset ≤ o ∧ o < s.conf.mxcsrOffset + 4 then byteAt s.mxcsr.toNat (o - s.conf.mxcsrOffset)
    else byteAt s.conf.mxcsrMask.toNat (o - s.conf.mxcsrMaskOffset)
  else if o < 576 then byteAt (newBv s i).toNat (o - s.conf.xstateBvOffset)
  else
    match (supportedComps s.conf).find? (compCovers s.conf · o) with
    | some n => compValue s n (o - compOffset s.conf n)
    | none => 0#8

/-- The component whose place holds a byte of a supported component is that component. -/
theorem find?_comp {c : Config} (h : configOk c = true) {n k : Nat} (hn : n ∈ supportedComps c)
    (hk : k < compSize c n) : (supportedComps c).find? (compCovers c · (compOffset c n + k)) = some n := by
  cases hf : (supportedComps c).find? (compCovers c · (compOffset c n + k)) with
  | none =>
    have := List.find?_eq_none.1 hf n hn
    simp [compCovers, hk] at this
  | some m =>
    have hm := List.mem_of_find?_eq_some hf
    have hc := List.find?_some hf
    simp only [compCovers, Bool.and_eq_true, decide_eq_true_eq] at hc
    rcases (configOk_comps h hm).2 n hn with rfl | hr
    · rfl
    · exact absurd (by omega)
        (rangesMeet_eq_false hr (j := compOffset c n + k - compOffset c m) (k := k) (by omega) hk)

/-- Every store of the operation stores the byte of its part. -/
theorem store_value {w : Bool} {i : Instr} {s : State} (hc : configOk s.conf = true) (hx : xcr0Ok s = true)
    {e : Store} (he : e ∈ operationStores w i s) : e.2 = partValue w i s e.1 := by
  obtain ⟨f1, f2, f3, f4, f5, f6⟩ := configOk_fields hc
  have field : ∀ {o : Nat}, mxcsrCovers s.conf o = true → x87Covers s.conf w o = false ∧ xmmCovers s.conf o = false := by
    intro o ho
    refine ⟨Bool.eq_false_iff.2 fun h => ?_, Bool.eq_false_iff.2 fun h => ?_⟩
    · rw [((covers_apart hc).1 w h).2] at ho
      cases ho
    · rw [(covers_apart hc).2 h] at ho
      cases ho
  unfold partValue
  cases storePlace_iff.1 he with
  | x87 o hs hl ho => simp only [hl, ho, if_true]
  | xmm o hs hl ho hq =>
    have : x87Covers s.conf w o = false := Bool.eq_false_iff.2 fun h => by
      rw [((covers_apart hc).1 w h).1] at ho
      cases ho
    simp [hl, ho, this]
  | mxcsr j hs hj =>
    have hf := field (o := s.conf.mxcsrOffset + j) (mxcsrCovers_iff.2 (by omega))
    simp [show s.conf.mxcsrOffset + j < 464 by omega, hf.1, hf.2, hj]
  | mask j hs hj =>
    have hf := field (o := s.conf.mxcsrMaskOffset + j) (mxcsrCovers_iff.2 (by omega))
    simp [show s.conf.mxcsrMaskOffset + j < 464 by omega, hf.1, hf.2,
      show ¬(s.conf.mxcsrOffset ≤ s.conf.mxcsrMaskOffset + j
        ∧ s.conf.mxcsrMaskOffset + j < s.conf.mxcsrOffset + 4) by omega]
  | comp c k hm hs hk =>
    obtain ⟨h1, h2, _⟩ := comp_store_place hc hx hm hs
    simp [show ¬ compOffset s.conf c + k < 464 by omega, show ¬ compOffset s.conf c + k < 576 by omega,
      find?_comp hc h1 hk]
  | header j hj =>
    simp [show ¬ s.conf.xstateBvOffset + j < 464 by omega, show s.conf.xstateBvOffset + j < 576 by omega]

/-- Two stores of the operation at one offset store the same byte. -/
theorem operation_stores_agree {w : Bool} {i : Instr} {s : State} (hc : configOk s.conf = true) (hx : xcr0Ok s = true)
    {e f : Store} (he : e ∈ operationStores w i s) (hf : f ∈ operationStores w i s) (h : e.1 = f.1) : e = f :=
  Prod.ext h (by rw [store_value hc hx he, store_value hc hx hf, h])

/-- A part of the area that the processor has: x87 state, the XMM registers, or a component it supports. -/
def HasPart (c : Config) (n : Nat) : Prop := n < 2 ∨ n ∈ supportedComps c

theorem hasPart_of_saved {s : State} (hx : xcr0Ok s = true) {n : Nat} (hn : n ≤ 62)
    (hs : (rfbm s).getLsbD n = true) : HasPart s.conf n := by
  by_cases h2 : n < 2
  · exact .inl h2
  · exact .inr (supported_of_xcr0 hx (mem_compNumbers.2 ⟨by omega, hn⟩) (rfbm_le_xcr0 hs))

theorem partCovers_comp {c : Config} {w : Bool} {n o : Nat} (h : 2 ≤ n) : partCovers c w n o = compCovers c n o := by
  simp [partCovers, show n ≠ 0 by omega, show n ≠ 1 by omega]

theorem compCovers_iff {c : Config} {n o : Nat} :
    compCovers c n o = true ↔ compOffset c n ≤ o ∧ o < compOffset c n + compSize c n := by
  simp [compCovers]

theorem xstateBvCovers_iff {c : Config} {o : Nat} :
    xstateBvCovers c o = true ↔ c.xstateBvOffset ≤ o ∧ o < c.xstateBvOffset + 8 := by
  simp [xstateBvCovers]

/-- Where a part lies: x87 state and the XMM registers below 464, a component at 576 or above. -/
theorem partCovers_range {c : Config} (h : configOk c = true) {w : Bool} {n o : Nat} (hn : HasPart c n)
    (hp : partCovers c w n o = true) : n < 2 ∧ o < 464 ∨ 2 ≤ n ∧ 576 ≤ o := by
  unfold partCovers at hp
  split at hp
  · exact .inl ⟨by omega, (covers_lt h).1 w hp⟩
  · split at hp
    · exact .inl ⟨by omega, (covers_lt h).2 hp⟩
    · rcases hn with hn | hn
      · omega
      · exact .inr ⟨by omega, by have := (configOk_comps h hn).1; have := compCovers_iff.1 hp; omega⟩

/-- No two parts have a byte in common, and none has one in common with the MXCSR fields or with XSTATE_BV
(40_xsaveopt.md R151). -/
theorem partCovers_apart {c : Config} (h : configOk c = true) {w : Bool} {n o : Nat} (hn : HasPart c n)
    (hp : partCovers c w n o = true) :
    (∀ m, HasPart c m → m ≠ n → partCovers c w m o = false) ∧ mxcsrCovers c o = false ∧ xstateBvCovers c o = false := by
  obtain ⟨f1, f2, f3, f4, f5, f6⟩ := configOk_fields h
  have hr := partCovers_range h hn hp
  have bv : xstateBvCovers c o = false := Bool.eq_false_iff.2 fun hb => by
    have := xstateBvCovers_iff.1 hb
    omega
  refine ⟨fun m hm hne => Bool.eq_false_iff.2 fun hq => ?_, ?_, bv⟩
  · have hrm := partCovers_range h hm hq
    rcases hr with hr | hr <;> rcases hrm with hrm | hrm <;> try omega
    · have h01 : n = 0 ∧ m = 1 ∨ n = 1 ∧ m = 0 := by omega
      rcases h01 with ⟨rfl, rfl⟩ | ⟨rfl, rfl⟩
      · simp only [partCovers, if_true, if_false, one_ne_zero] at hp hq
        rw [((covers_apart h).1 w hp).1] at hq
        cases hq
      · simp only [partCovers, if_true, if_false, one_ne_zero] at hp hq
        rw [((covers_apart h).1 w hq).1] at hp
        cases hp
    · rw [partCovers_comp hr.1, compCovers_iff] at hp
      rw [partCovers_comp hrm.1, compCovers_iff] at hq
      rcases hn with hn | hn
      · omega
      rcases hm with hm | hm
      · omega
      rcases (configOk_comps h hn).2 m hm with rfl | hd
      · exact hne rfl
      · exact rangesMeet_eq_false hd (j := o - compOffset c n) (k := o - compOffset c m) (by omega) (by omega) (by omega)
  · rcases hr with ⟨h2, _⟩ | ⟨_, h576⟩
    · have h01 : n = 0 ∨ n = 1 := by omega
      rcases h01 with rfl | rfl
      · exact ((covers_apart h).1 w (by simpa [partCovers] using hp)).2
      · exact (covers_apart h).2 (by simpa [partCovers] using hp)
    · exact Bool.eq_false_iff.2 fun hb => by
        have := mxcsrCovers_iff.1 hb
        omega

/-- Every store of the operation goes to a part that is saved, to the MXCSR fields when they are requested, or to
XSTATE_BV (20_memory.md R68). -/
theorem store_covers {w : Bool} {i : Instr} {s : State} {e : Store} (he : e ∈ operationStores w i s) :
    (∃ n ≤ 62, (toBeSaved s (laxaOf s i)).getLsbD n = true ∧ partCovers s.conf w n e.1 = true)
      ∨ (((rfbm s).getLsbD 1 = true ∨ (rfbm s).getLsbD 2 = true) ∧ mxcsrCovers s.conf e.1 = true)
      ∨ xstateBvCovers s.conf e.1 = true := by
  cases storePlace_iff.1 he with
  | x87 o hs hl ho => exact .inl ⟨0, by omega, hs, by simpa [partCovers] using ho⟩
  | xmm o hs hl ho hq => exact .inl ⟨1, by omega, hs, by simpa [partCovers] using ho⟩
  | mxcsr j hs hj => exact .inr (.inl ⟨hs, mxcsrCovers_iff.2 (by simp only; omega)⟩)
  | mask j hs hj => exact .inr (.inl ⟨hs, mxcsrCovers_iff.2 (by simp only; omega)⟩)
  | comp c k hm hs hk =>
    have hc := mem_compNumbers.1 hm
    refine .inl ⟨c, hc.2, hs, ?_⟩
    rw [partCovers_comp hc.1, compCovers_iff]
    simp only
    omega
  | header j hj => exact .inr (.inr (xstateBvCovers_iff.2 (by simp only; omega)))

/-- No store of the operation goes to a reserved byte. -/
theorem operation_store_not_reserved {w : Bool} {i : Instr} {s : State} (hc : configOk s.conf = true)
    (hx : xcr0Ok s = true) {e : Store} (he : e ∈ operationStores w i s) : reservedCovers s.conf w e.1 = false := by
  obtain ⟨f1, f2, f3, f4, f5, f6⟩ := configOk_fields hc
  by_contra hr
  obtain ⟨r1, r2, r3, r4⟩ := reservedCovers_spec (by simpa using hr)
  cases storePlace_iff.1 he with
  | x87 o hs hl ho => rw [ho] at r2; cases r2
  | xmm o hs hl ho hq => rw [ho] at r3; cases r3
  | mxcsr j hs hj => simp [mxcsrCovers] at r4; omega
  | mask j hs hj => simp [mxcsrCovers] at r4; omega
  | comp c k hm hs hk => have := comp_store_place hc hx hm hs; simp only at r1; omega
  | header j hj => simp only at r1; omega

/-- Two stores of an execution at one offset store the same byte. -/
theorem stores_agree {w : Bool} {i : Instr} {s : State} (hc : configOk s.conf = true) (hx : xcr0Ok s = true)
    {e f : Store} (he : e ∈ allStores w i s) (hf : f ∈ allStores w i s) (h : e.1 = f.1) : e = f := by
  rcases List.mem_append.1 he with he | he <;> rcases List.mem_append.1 hf with hf | hf
  · have h1 := mem_reservedStores he
    have h2 := mem_reservedStores hf
    exact Prod.ext h (by rw [h1.2, h2.2, h])
  · have h1 := (mem_reservedStores he).1
    rw [h, operation_store_not_reserved hc hx hf] at h1
    cases h1
  · have h1 := (mem_reservedStores hf).1
    rw [← h, operation_store_not_reserved hc hx he] at h1
    cases h1
  · exact operation_stores_agree hc hx he hf h

/-! ### Memory after an execution -/

/-- What is known of an execution that completes. -/
theorem exec_next {i : Instr} {s t : State} (h : exec i s = .next t) :
    t = completed (instrW i) i s ∧ configOk s.conf = true ∧ xcr0Ok s = true ∧ memCauses (instrW i) i s = []
      ∧ launchRefusal i s = none ∧ operandRefusal i s = none := by
  rw [exec_eq] at h
  obtain ⟨hl, _, _, ho, hm, rfl⟩ := saveCommon_next h
  have := launchRefusal_eq_none hl
  exact ⟨rfl, this.2.1, this.2.2.2.1, hm, hl, ho⟩

/-- The byte of a store is in memory after an execution that completes. -/
theorem holdsAt_of_store {i : Instr} {s t : State} (h : exec i s = .next t) (ha : AliasFree i s) {e : Store}
    (he : e ∈ allStores (instrW i) i s) : HoldsAt i s t e.1 e.2 := by
  obtain ⟨rfl, hc, hx, _⟩ := exec_next h
  intro l hl
  refine read_commit_value he hl fun f hf hfl => ?_
  have := ha _ (stores_lt_area hc hx hf) _ (stores_lt_area hc hx he) l hfl hl
  rw [stores_agree hc hx hf he this]

/-- A byte of the area at an offset that no store has keeps its content. -/
theorem unchangedAt_of_no_store {i : Instr} {s t : State} (h : exec i s = .next t) (ha : AliasFree i s) {o : Nat}
    (ho : o < areaSize s) (hn : ∀ e ∈ allStores (instrW i) i s, e.1 ≠ o) : UnchangedAt i s t o := by
  obtain ⟨rfl, hc, hx, _⟩ := exec_next h
  intro l hl
  refine read_commit_other fun e he hel => ?_
  exact hn e he (ha _ (stores_lt_area hc hx he) _ ho l hel hl)

theorem byteLinear_real {s : State} (h : s.mode = .realAddress) (n : SegName) (ea : Quad) (k : Nat) :
    byteLinear s n ea k = ((linearAddress s n ea).toNat + k) % 2 ^ 32 := by
  simp [byteLinear, h]

theorem byteLinear_of_ne {s : State} (h : s.mode ≠ .realAddress) (n : SegName) (ea : Quad) (k : Nat) :
    byteLinear s n ea k = (linearAddress s n ea).toNat + k := by
  unfold byteLinear
  cases hm : s.mode <;> simp_all

/-- In real-address mode the bound is the limit, and at most FFFFH. -/
theorem segBound_real {s : State} (h : s.mode = .realAddress) (n : SegName) :
    segBound s n = min 0xFFFF (segOf s n).limit.toNat := by
  simp [segBound, h]

/-- Outside real-address mode the bound is the limit. -/
theorem segBound_of_ne {s : State} (h : s.mode ≠ .realAddress) (n : SegName) :
    segBound s n = (segOf s n).limit.toNat := by
  unfold segBound
  cases hm : s.mode <;> simp_all

/-- Without paging, and in real-address mode with or without it, every linear address is its own location. -/
theorem pageTranslate_of_no_paging {s : State} (h : s.paging = none ∨ s.mode = .realAddress) (kind : Access) (a : Nat) :
    pageTranslate s kind a = .ok a := by
  unfold pageTranslate
  rcases h with h | h <;> rw [h]
  cases s.mode <;> rfl

/-- Where an access is translated, whatever the mode, it goes where the page tables lead from the byte's linear
address. -/
theorem locate_ok {i : Instr} {s : State} {k l : Nat} {kind : Access} (h : locate s i k kind = .ok l) :
    pageTranslate s kind (areaLinear s i k) = .ok l := by
  unfold locate translate at h
  simp only at h
  split at h
  · split at h <;> simp_all [areaLinear]
  · split at h <;> simp_all [areaLinear]

/-- Without paging, and in real-address mode, no two bytes of the area share a location. -/
theorem aliasFree_of_no_paging {i : Instr} {s : State} (hp : s.paging = none ∨ s.mode = .realAddress) :
    AliasFree i s := by
  intro j _ k _ l h1 h2
  have e1 := locate_ok h1
  have e2 := locate_ok h2
  rw [pageTranslate_of_no_paging hp] at e1 e2
  have e : areaLinear s i j = areaLinear s i k := by simp_all
  by_cases hr : s.mode = .realAddress
  · have bound : ∀ {k l}, locate s i k .write = .ok l → (effectiveAddress s i).toNat + k ≤ 0xFFFF := by
      intro k l h
      unfold locate translate at h
      simp only [hr, segBound_real hr] at h
      split at h
      · omega
      · cases h
    have b1 := bound h1
    have b2 := bound h2
    simp only [areaLinear, byteLinear_real hr] at e
    omega
  · simp only [areaLinear, byteLinear_of_ne hr] at e
    omega

/-- A step that completes is the execution of a decoded instruction. -/
theorem step_next {s t : State} (h : step s = .next t) :
    ∃ i rest, decode (codeSizeOf s) (fetchWindow s) = .ok (i, rest) ∧ exec i s = .next t := by
  unfold step at h
  split at h
  · split at h
    · exact ⟨_, _, ‹_›, h⟩
    · cases h
  · cases h

/-- Fetching gives the bytes that stand at pc, in order, and then whatever follows. -/
theorem fetchFrom_append (s : State) (bs : List Byte) (n j : Nat) (hn : bs.length ≤ n)
    (h : ∀ k b, bs[k]? = some b → fetchByte s (j + k) = some b) : ∃ rest, fetchFrom s n j = bs ++ rest := by
  induction bs generalizing n j with
  | nil => exact ⟨_, rfl⟩
  | cons b bs ih =>
    cases n with
    | zero => simp at hn
    | succ n =>
      have h0 := h 0 b rfl
      obtain ⟨rest, hr⟩ := ih n (j + 1) (by simpa using hn) fun k c hk => by
        rw [show j + 1 + k = j + (k + 1) by omega]
        exact h (k + 1) c (by simpa using hk)
      refine ⟨rest, ?_⟩
      simp only [Nat.add_zero] at h0
      simp [fetchFrom, h0, hr]

/-! ### Accesses, addresses and the header -/

/-- Where a write is permitted, so is every access. -/
theorem permits_of_write {p : Perm} (kind : Access) (h : permits p .write = true) : permits p kind = true := by
  cases p <;> simp_all [permits]

/-- Where a write is translated, every access goes to the same location. -/
theorem pageTranslate_of_write {s : State} {a l : Nat} (kind : Access) (h : pageTranslate s .write a = .ok l) :
    pageTranslate s kind a = .ok l := by
  unfold pageTranslate at h ⊢
  cases hm : s.mode <;> cases hp : s.paging <;> simp only [hm, hp] at h ⊢ <;> try exact h
  all_goals
    split at h
    · cases h
    · rename_i r _
      generalize (if currentCpl s = 3 then r.user else r.supervisor) = q at h ⊢
      split at h
      · rw [if_pos (permits_of_write kind (by assumption))]
        exact h
      · cases h

/-- Where a byte of the area can be written, every access to it goes to the same location. -/
theorem locate_of_write {i : Instr} {s : State} {k l : Nat} (kind : Access) (h : locate s i k .write = .ok l) :
    locate s i k kind = .ok l := by
  unfold locate Machine.translate at h ⊢
  cases hm : s.mode <;> simp only [hm] at h ⊢ <;>
  first
  | exact h
  | (split at h
     · rw [if_pos (by assumption)]; exact pageTranslate_of_write kind h
     · cases h)

/-- Where a byte of the area can be written, it is read at the same location. -/
theorem locate_read_of_write {i : Instr} {s : State} {k l : Nat} (h : locate s i k .write = .ok l) :
    locate s i k .read = .ok l := locate_of_write .read h

/-- A byte of the area that can be written reads as memory holds it. -/
theorem areaByte_of_write {i : Instr} {s : State} {k l : Nat} (h : locate s i k .write = .ok l) :
    areaByte s i k = s.mem.read l := by
  simp [areaByte, locate_read_of_write h]

/-- pc fits in 64 bits. -/
theorem pcMax_lt (s : State) : pcMax s < 2^64 := by
  have := s.segs.cs.limit.isLt
  unfold pcMax
  split
  · omega
  · omega
  · split <;> omega

/-- Where pc + L does not pass the end, the next pc is pc + L. -/
theorem pcNext_toNat {i : Instr} {s : State} (h : pcWraps i s = false) (hp : pcMax s < 2^64) :
    (pcNext s i).toNat = s.pc.toNat + instrLength i := by
  simp only [pcWraps, Bool.or_eq_false_iff, decide_eq_false_iff_not, not_lt] at h
  unfold pcNext
  rw [BitVec.toNat_add, BitVec.toNat_ofNat]
  have : instrLength i < 2^64 := by omega
  rw [Nat.mod_eq_of_lt this, Nat.mod_eq_of_lt (by omega)]

/-- The alignment test, as a number (20_memory.md R67). -/
theorem misaligned_iff {i : Instr} {s : State} : misaligned i s = true ↔ (laxaOf s i).toNat % 64 ≠ 0 := by
  simp only [misaligned, decide_eq_true_eq]
  constructor
  · intro h h0
    apply h
    apply BitVec.eq_of_toNat_eq
    simpa using h0
  · intro h h0
    apply h
    have := congrArg BitVec.toNat h0
    simpa using this

/-- Where the feature is present and enabled, neither #UD nor #NM applies. -/
theorem undefined_of_enabled {i : Instr} {s : State} (h : Enabled i s) : undefinedOpcode i s = false
    ∧ taskSwitched s = false := by
  obtain ⟨h1, h2, h3, h4, h5⟩ := h
  simp only [undefinedOpcode, osxsave, taskSwitched, h1, h2, h3, h4, h5]
  simp

/-- The bits of the abridged tag word (20_memory.md R64). -/
theorem abridged_bit (ftw : BitVec 16) :
    ∀ j < 8, (abridgedTag ftw).getLsbD j = decide (ftw.extractLsb' (2 * j) 2 ≠ 3#2) := by
  have gen : ∀ b : Vector Bool 8, ∀ j < 8,
      (BitVec.ofNat 8 ((List.range 8).foldl (fun acc k => if b[k]! = true then acc else acc + 2 ^ k) 0)).getLsbD j
        = !b[j]! := by
    have all : ∀ b0 b1 b2 b3 b4 b5 b6 b7 : Bool, ∀ j < 8,
        (BitVec.ofNat 8 ((List.range 8).foldl
          (fun acc k => if #v[b0, b1, b2, b3, b4, b5, b6, b7][k]! = true then acc else acc + 2 ^ k) 0)).getLsbD j
          = !#v[b0, b1, b2, b3, b4, b5, b6, b7][j]! := by decide +kernel
    intro b j hj
    have hb : b = #v[b[0], b[1], b[2], b[3], b[4], b[5], b[6], b[7]] := by
      ext k hk
      interval_cases k <;> rfl
    rw [hb]
    exact all _ _ _ _ _ _ _ _ j hj
  intro j hj
  have h := gen (Vector.ofFn fun k : Fin 8 => decide (ftw.extractLsb' (2 * k.val) 2 = 3#2)) j hj
  have hget : ∀ k < 8, (Vector.ofFn fun k : Fin 8 => decide (ftw.extractLsb' (2 * k.val) 2 = 3#2))[k]!
      = decide (ftw.extractLsb' (2 * k) 2 = 3#2) := by
    intro k hk
    simp [hk]
  rw [hget j hj] at h
  unfold abridgedTag
  rw [decide_not, ← h]
  congr 2
  refine List.foldl_ext _ _ _ fun acc k hk => ?_
  rw [hget k (List.mem_range.1 hk)]
  simp

/-- A bit of a 64-bit value, in the byte that holds it (20_memory.md R61). -/
theorem byteAt_bit (v : Quad) (n : Nat) : (byteAt v.toNat (n / 8)).getLsbD (n % 8) = v.getLsbD n := by
  simp only [byteAt, BitVec.getLsbD_ofNat, Nat.testBit_shiftRight]
  rw [show 8 * (n / 8) + n % 8 = n by omega]
  simp [BitVec.getLsbD, show n % 8 < 8 by omega]

/-- A bit of eight bytes read in little-endian order. -/
theorem leValue_bits (f : Nat → Byte) (n : Nat) (hn : n < 64) :
    (BitVec.ofNat 64 (leValue ((List.range 8).map f))).getLsbD n = (f (n/8)).getLsbD (n % 8) := by
  have gen : ∀ (l : List Byte) (n : Nat), (leValue l).testBit n = (l.getD (n/8) 0#8).getLsbD (n % 8) := by
    intro l
    induction l with
    | nil => intro n; simp [leValue]
    | cons b l ih =>
      intro n
      have e : leValue (b :: l) = 2^8 * leValue l + b.toNat := by simp [leValue]; omega
      rw [e, Nat.testBit_two_pow_mul_add _ (by have := b.isLt; omega)]
      split
      · rename_i h8
        rw [show n / 8 = 0 by omega, show n % 8 = n by omega]; simp [BitVec.getLsbD]
      · rename_i h8
        rw [ih, show n / 8 = (n-8)/8 + 1 by omega, show n % 8 = (n-8) % 8 by omega]; simp
  rw [BitVec.getLsbD_ofNat, gen]
  have : n / 8 < 8 := by omega
  simp [hn, List.getD, this]

/-- A bit of OLD_BV, in the byte of the area that holds it. -/
theorem oldBv_bit {i : Instr} {s : State} {n : Nat} (hn : n < 64) :
    (oldBv s i).getLsbD n = (areaByte s i (s.conf.xstateBvOffset + n/8)).getLsbD (n % 8) :=
  leValue_bits (fun j => areaByte s i (s.conf.xstateBvOffset + j)) n hn

/-- A bit of the new XSTATE_BV (40_xsaveopt.md R149). -/
theorem newBv_bit {i : Instr} {s : State} {n : Nat} (hn : n < 64) : (newBv s i).getLsbD n =
    if (rfbm s).getLsbD n then s.xinuse.getLsbD n else (oldBv s i).getLsbD n := by
  unfold newBv
  simp only [BitVec.getLsbD_or, BitVec.getLsbD_and, BitVec.getLsbD_not, hn]
  cases (rfbm s).getLsbD n <;> cases (oldBv s i).getLsbD n <;> cases s.xinuse.getLsbD n <;> rfl

/-- What is not a reserved byte. -/
theorem reserved_false_of {c : Config} {w : Bool} {o : Nat}
    (h : x87Covers c w o = true ∨ xmmCovers c o = true ∨ mxcsrCovers c o = true ∨ 464 ≤ o) :
    reservedCovers c w o = false := by
  by_contra hc
  obtain ⟨h1, h2, h3, h4⟩ := reservedCovers_spec (by simpa using hc)
  rcases h with h | h | h | h
  · rw [h2] at h; cases h
  · rw [h3] at h; cases h
  · rw [h4] at h; cases h
  · omega

/-- Case 2 of 20_memory.md R76: where every byte of Extent can be written, no access faults. -/
theorem accessCauses_of_accessible {i : Instr} {s : State} (hc : configOk s.conf = true) (hx : xcr0Ok s = true)
    (ha : ∀ k < areaSize s, accessFault s i k .write = none) : accessCauses (instrW i) i s = [] := by
  have htouch : touchedFaults (instrW i) i s = [] := by
    unfold touchedFaults
    rw [List.append_eq_nil_iff, List.filterMap_eq_nil_iff, List.filterMap_eq_nil_iff]
    refine ⟨fun k hk => ?_, fun e he => ha e.1 (stores_lt_area hc hx (List.mem_append.2 (.inr he)))⟩
    have := List.mem_range'_1.1 hk
    have hA := le_areaSize s
    obtain ⟨_, _, _, _, f5, _⟩ := configOk_fields hc
    obtain ⟨l, hl⟩ := accessFault_eq_none.1 (ha k (by omega))
    exact accessFault_eq_none.2 ⟨l, locate_read_of_write hl⟩
  have hext : extentFaults i s = [] := by
    unfold extentFaults
    rw [List.filterMap_eq_nil_iff]
    exact fun k hk => ha k (List.mem_range.1 hk)
  simp [accessCauses, htouch, hext]

/-- A byte outside the bounds of its segment or address space is a limit fault, whatever the access. -/
theorem locate_limit_iff {i : Instr} {s : State} {k : Nat} {kind : Access} :
    locate s i k kind = .error .limit ↔ OutsideBounds i s k := by
  have page : ∀ a, pageTranslate s kind a ≠ .error .limit := by
    intro a h
    unfold pageTranslate at h
    repeat' split at h
    all_goals cases h
  have lin : s.mode ≠ .realAddress →
      byteLinear s (operandSeg s i) (effectiveAddress s i) k = (laxaOf s i).toNat + k := fun h => byteLinear_of_ne h _ _ _
  unfold locate translate OutsideBounds
  cases hm : s.mode <;> simp only
  · rw [segBound_real hm]
    split <;> simp_all
    omega
  · rw [segBound_of_ne (by rw [hm]; decide)]
    split <;> simp_all
  · rw [segBound_of_ne (by rw [hm]; decide)]
    split <;> simp_all
  · rw [segBound_of_ne (by rw [hm]; decide)]
    split <;> simp_all
  · rw [lin (by rw [hm]; decide)]
    split <;> simp_all

/-- A page fault of the area is reported at the linear address of its byte, and not in real-address mode. -/
theorem locate_page {i : Instr} {s : State} {k a : Nat} {kind : Access} (h : locate s i k kind = .error (.page a)) :
    s.mode ≠ .realAddress ∧ a = (laxaOf s i).toNat + k := by
  have page : ∀ b, pageTranslate s kind b = .error (.page a) → a = b := by
    intro b hb
    unfold pageTranslate at hb
    repeat' split at hb
    all_goals first | (cases hb; done) | (cases hb; rfl)
  have hr : s.mode ≠ .realAddress := by
    intro hm
    unfold locate translate at h
    simp only [hm, pageTranslate_of_no_paging (.inr hm)] at h
    split at h <;> cases h
  refine ⟨hr, ?_⟩
  have hb : pageTranslate s kind (byteLinear s (operandSeg s i) (effectiveAddress s i) k) = .error (.page a) := by
    unfold locate translate at h
    simp only at h
    repeat' split at h
    all_goals first | exact h | cases h
  rw [page _ hb, byteLinear_of_ne hr]
  rfl

/-- The fault of any access to a byte of the area is that of a write to it. -/
theorem locate_write_error {i : Instr} {s : State} {k : Nat} {kind : Access} {f : AccessFault}
    (h : locate s i k kind = .error f) : locate s i k .write = .error f := by
  cases hw : locate s i k .write with
  | ok l =>
    rw [locate_of_write kind hw] at h
    cases h
  | error g =>
    cases f with
    | limit => rw [← hw, locate_limit_iff.2 (locate_limit_iff.1 h)]
    | page a =>
      cases g with
      | limit =>
        rw [locate_limit_iff.2 (locate_limit_iff.1 hw)] at h
        cases h
      | page b => rw [(locate_page h).2, (locate_page hw).2]

/-- The cause behind the fault of one access. -/
def causeOf : AccessFault → MemCause
  | .limit => .limit
  | .page lin => .page lin

theorem mem_causesOf {fs : List AccessFault} {c : MemCause} : c ∈ causesOf fs ↔ ∃ f ∈ fs, c = causeOf f := by
  unfold causesOf
  rw [List.mem_append, List.mem_filterMap]
  constructor
  · rintro (h | ⟨f, hf, h⟩)
    · split at h
      · rename_i ha
        obtain ⟨f, hf, he⟩ := List.any_eq_true.1 ha
        simp only [decide_eq_true_eq] at he
        subst he
        exact ⟨_, hf, List.mem_singleton.1 h⟩
      · cases h
    · cases f with
      | limit => cases h
      | page lin => cases h; exact ⟨_, hf, rfl⟩
  · rintro ⟨f, hf, rfl⟩
    cases f with
    | limit =>
      left
      rw [if_pos (List.any_eq_true.2 ⟨_, hf, by simp⟩)]
      exact List.mem_singleton.2 rfl
    | page lin => exact .inr ⟨_, hf, rfl⟩

theorem accessFault_eq_some {s : State} {i : Instr} {k : Nat} {kind : Access} {f : AccessFault} :
    accessFault s i k kind = some f ↔ locate s i k kind = .error f := by
  unfold accessFault
  cases locate s i k kind <;> simp

/-- A memory-operand fault that applies is the misalignment, or that of an access to a byte of the area. -/
theorem memCauses_cases {i : Instr} {s : State} (hc : configOk s.conf = true) (hx : xcr0Ok s = true) {c : MemCause}
    (h : c ∈ memCauses (instrW i) i s) :
    (c = .align ∧ misaligned i s = true)
      ∨ ∃ f, c = causeOf f ∧ ∃ k < areaSize s, ∃ kind, locate s i k kind = .error f := by
  have touch : ∀ f ∈ touchedFaults (instrW i) i s, ∃ k < areaSize s, ∃ kind, locate s i k kind = .error f := by
    intro f hf
    unfold touchedFaults at hf
    rcases List.mem_append.1 hf with hf | hf
    · obtain ⟨k, hk, he⟩ := List.mem_filterMap.1 hf
      have := List.mem_range'_1.1 hk
      have hA := le_areaSize s
      obtain ⟨_, _, _, _, f5, _⟩ := configOk_fields hc
      exact ⟨k, by omega, _, accessFault_eq_some.1 he⟩
    · obtain ⟨e, hk, he⟩ := List.mem_filterMap.1 hf
      exact ⟨e.1, stores_lt_area hc hx (List.mem_append.2 (.inr hk)), _, accessFault_eq_some.1 he⟩
  have ext : ∀ f ∈ extentFaults i s, ∃ k < areaSize s, ∃ kind, locate s i k kind = .error f := by
    intro f hf
    obtain ⟨k, hk, he⟩ := List.mem_filterMap.1 hf
    exact ⟨k, List.mem_range.1 hk, _, accessFault_eq_some.1 he⟩
  unfold memCauses at h
  rcases List.mem_append.1 h with h | h
  · split at h
    · exact .inl ⟨List.mem_singleton.1 h, by assumption⟩
    · cases h
  · right
    unfold accessCauses at h
    split at h
    · rename_i g gs hg
      obtain ⟨f, hf, rfl⟩ := mem_causesOf.1 h
      exact ⟨f, rfl, touch f (hg ▸ hf)⟩
    · split at h
      · cases h
      · rename_i g gs hg
        split at h
        · obtain ⟨f, hf, rfl⟩ := mem_causesOf.1 h
          exact ⟨f, rfl, ext f (hg ▸ hf)⟩
        · cases h

/-- Case 1 of 20_memory.md R76: the fault of a byte that is stored applies. -/
theorem cause_of_store {w : Bool} {i : Instr} {s : State} {e : Store} {f : AccessFault} (he : e ∈ operationStores w i s)
    (hf : locate s i e.1 .write = .error f) : causeOf f ∈ memCauses w i s := by
  have hm : f ∈ touchedFaults w i s :=
    List.mem_append.2 (.inr (List.mem_filterMap.2 ⟨e, he, accessFault_eq_some.2 hf⟩))
  refine List.mem_append.2 (.inr ?_)
  unfold accessCauses
  split
  · rename_i g gs hg
    exact mem_causesOf.2 ⟨f, hg ▸ hm, rfl⟩
  · rename_i hg
    rw [hg] at hm
    cases hm

/-- The fault that a cause other than the misalignment raises is the one translation reports for its byte. -/
theorem reportsByte_of_cause {w : Bool} {i : Instr} {s : State} {k : Nat} {kind : Access} {f : AccessFault}
    (h : locate s i k kind = .error f) :
    ∃ x, raiseCause w i s (causeOf f) = .fault (.raised x (interrupted w i s)) ∧ ReportsByte i s x k := by
  cases f with
  | limit =>
    refine ⟨_, raiseLimit_eq _ _, .inl ⟨locate_limit_iff.1 h, ?_⟩⟩
    split <;> [skip; split] <;> simp
  | page a => exact ⟨_, rfl, .inr ⟨a, locate_write_error h, rfl, rfl⟩⟩

/-- Where every touched byte is accessible, only the untouched bytes of Extent can fault, if CheckExtent asks for them
(20_memory.md R76 cases 2 and 3). -/
theorem accessCauses_of_touched {i : Instr} {s : State} (h : TouchedAccessible i s) :
    accessCauses (instrW i) i s = if extentChecked s then causesOf (extentFaults i s) else [] := by
  have ht : touchedFaults (instrW i) i s = [] := by
    unfold touchedFaults
    rw [List.append_eq_nil_iff, List.filterMap_eq_nil_iff, List.filterMap_eq_nil_iff]
    refine ⟨fun k hk => ?_, h.2⟩
    have := List.mem_range'_1.1 hk
    rw [show k = s.conf.xstateBvOffset + (k - s.conf.xstateBvOffset) by omega]
    exact h.1 _ (by omega)
  unfold accessCauses
  rw [ht]
  cases extentFaults i s with
  | nil => simp [causesOf]
  | cons f fs => rfl

/-- Where CheckExtent is wholeExtent, a byte of Extent that cannot be written gives a cause (20_memory.md R76). -/
theorem accessCauses_of_wholeExtent {w : Bool} {i : Instr} {s : State} (hw : s.conf.checkExtent = .wholeExtent) {k : Nat}
    (hk : k < areaSize s) (hf : accessFault s i k .write ≠ none) : accessCauses w i s ≠ [] := by
  intro hn
  unfold accessCauses at hn
  split at hn
  · exact absurd (causesOf_eq_nil hn) (by simp)
  · split at hn
    · rename_i he
      exact hf (List.filterMap_eq_nil_iff.1 he k (List.mem_range.2 hk))
    · simp only [extentChecked, hw, if_true] at hn
      exact absurd (causesOf_eq_nil hn) (by simp)

/-- An execution that is accepted and enabled completes, or raises one of the memory-operand faults that apply. -/
theorem exec_of_enabled {i : Instr} {s : State} (ha : Accepted i s) (he : Enabled i s) :
    (memCauses (instrW i) i s = [] ∧ exec i s = .next (completed (instrW i) i s))
      ∨ ∃ c cs, memCauses (instrW i) i s = c :: cs
        ∧ exec i s = raiseCause (instrW i) i s (reportedCause s c cs) := by
  obtain ⟨hl, ho⟩ := ha
  have hu := undefined_of_enabled he
  have hx : exec i s = finishSave (instrW i) i s := by
    rw [exec_eq]
    simp [saveCommon, hl, ho, hu.1, hu.2]
  rw [hx]
  unfold finishSave
  cases memCauses (instrW i) i s with
  | nil => exact .inl ⟨rfl, rfl⟩
  | cons c cs => exact .inr ⟨c, cs, rfl, rfl⟩

end Sys2Proof.Machine
end

