-- ==== Sys2Proof/Tests/Slice0.lean ====
section
/-! SUPPORT. Tests: the well-formedness checks, words of 95_test_vectors.md part 4 and their decoding, a few single steps
of parts 2 and 3, and for every obligation with hypotheses a witness that meets them (theorem witness_…). Every
expected result is a vector's of 95_test_vectors.md, or computed by hand from the rule named. -/

namespace Sys2Proof.Tests

open Sys2Proof.Machine

-- The theorems below are checked one after another: side by side, each waiting one would hold a thread and its stack.
set_option Elab.async false

/-! ### Well-formedness: one ill-formed term for each check -/

theorem test_wf_ok : wellFormed .c64 (.xsaveopt [.seg .gs, .addrSize] (some ⟨false, true, true⟩) (.base 7#3 .none)) = true := by
  decide

/-- 30_encoding.md R102. -/
theorem test_wf_mandatory : wellFormed .c64 (.xsaveopt [.rep] none (.base 7#3 .none)) = false := by decide

/-- 30_encoding.md R113: two segment overrides, two 67H, two LOCK prefixes. -/
theorem test_wf_groups :
    wellFormed .c32 (.xsaveopt [.seg .gs, .seg .fs] none (.base 7#3 .none)) = false
      ∧ wellFormed .c32 (.xsaveopt [.addrSize, .addrSize] none (.base 7#3 .none)) = false
      ∧ wellFormed .c32 (.xsaveopt [.lock, .lock] none (.base 7#3 .none)) = false := by decide

/-- 30_encoding.md R116: no REX prefix, no ignored REX byte and no XSAVEOPT64 outside 64-bit mode. -/
theorem test_wf_rex_mode :
    wellFormed .c32 (.xsaveopt [] (some ⟨false, false, false⟩) (.base 7#3 .none)) = false
      ∧ wellFormed .c32 (.xsaveopt [.rex 0#4, .seg .gs] none (.base 7#3 .none)) = false
      ∧ wellFormed .c32 (.xsaveopt64 [] ⟨false, false, false⟩ (.base 7#3 .none)) = false := by decide

/-- 30_encoding.md R100: a REX byte that stands last among the prefixes is the REX prefix. -/
theorem test_wf_rex_last : wellFormed .c64 (.xsaveopt [.rex 8#4] none (.base 7#3 .none)) = false := by decide

/-- 30_encoding.md R106 to R109: BP without a displacement, a SIB form in 16-bit code, r/m 100 and 101 as bases. -/
theorem test_wf_forms :
    wellFormed .c16 (.xsaveopt [] none (.base16 .bp .none)) = false
      ∧ wellFormed .c16 (.xsaveopt [] none (.sib 0#2 4#3 0#3 .none)) = false
      ∧ wellFormed .c32 (.xsaveopt [] none (.base16 .bx .none)) = false
      ∧ wellFormed .c32 (.xsaveopt [] none (.base 4#3 .none)) = false
      ∧ wellFormed .c32 (.xsaveopt [] none (.base 5#3 .none)) = false
      ∧ wellFormed .c64 (.xsaveopt [] none (.sib 0#2 4#3 5#3 .none)) = false := by decide

/-- 30_encoding.md R113: 15 bytes are an instruction, 16 are not. -/
theorem test_wf_length :
    wellFormed .c64 (.xsaveopt (List.replicate 7 (.rex 0#4) ++ [.seg .gs]) none (.disp32 0#32)) = true
      ∧ wellFormed .c64 (.xsaveopt (List.replicate 8 (.rex 0#4) ++ [.seg .gs]) none (.disp32 0#32)) = false := by decide

/-! ### Decoding: 95_test_vectors.md part 4 -/

theorem test_x1 : decode .c64 [0x0F#8, 0xAE#8, 0x30#8] = .ok (.xsaveopt [] none (.base 0#3 .none), []) := by decide

theorem test_x2 : decode .c64 [0x48#8, 0x0F#8, 0xAE#8, 0x30#8]
    = .ok (.xsaveopt64 [] ⟨false, false, false⟩ (.base 0#3 .none), []) := by decide

theorem test_x4 : decode .c64 [0x0F#8, 0xAE#8, 0x74#8, 0x24#8, 0x40#8]
    = .ok (.xsaveopt [] none (.sib 0#2 4#3 4#3 (.d8 0x40#8)), []) := by decide

theorem test_x5 : decode .c64 [0x0F#8, 0xAE#8, 0xB3#8, 0x00#8, 0x02#8, 0x00#8, 0x00#8]
    = .ok (.xsaveopt [] none (.base 3#3 (.d32 0x200#32)), []) := by decide

theorem test_x6_x7_x8 :
    decode .c64 [0x41#8, 0x0F#8, 0xAE#8, 0x30#8] = .ok (.xsaveopt [] (some ⟨false, false, true⟩) (.base 0#3 .none), [])
      ∧ decode .c64 [0x44#8, 0x0F#8, 0xAE#8, 0x30#8]
        = .ok (.xsaveopt [] (some ⟨true, false, false⟩) (.base 0#3 .none), [])
      ∧ decode .c64 [0x4C#8, 0x0F#8, 0xAE#8, 0x30#8] = .ok (.xsaveopt64 [] ⟨true, false, false⟩ (.base 0#3 .none), [])
    := by decide

theorem test_x10_x11 :
    decode .c64 [0x0F#8, 0xAE#8, 0x35#8, 0xF9#8, 0x0F#8, 0x00#8, 0x00#8]
        = .ok (.xsaveopt [] none (.disp32 0xFF9#32), [])
      ∧ decode .c64 [0x0F#8, 0xAE#8, 0x34#8, 0x25#8, 0x00#8, 0x20#8, 0x00#8, 0x00#8]
        = .ok (.xsaveopt [] none (.sibNoBase 0#2 4#3 0x2000#32), []) := by decide

theorem test_x13_x14 :
    decode .c64 [0x4A#8, 0x0F#8, 0xAE#8, 0x34#8, 0x20#8]
        = .ok (.xsaveopt64 [] ⟨false, true, false⟩ (.sib 0#2 4#3 0#3 .none), [])
      ∧ decode .c64 [0x49#8, 0x0F#8, 0xAE#8, 0x75#8, 0x00#8]
        = .ok (.xsaveopt64 [] ⟨false, false, true⟩ (.base 5#3 (.d8 0#8)), []) := by decide

theorem test_x16_x18 :
    decode .c64 [0x65#8, 0x48#8, 0x0F#8, 0xAE#8, 0x37#8]
        = .ok (.xsaveopt64 [.seg .gs] ⟨false, false, false⟩ (.base 7#3 .none), [])
      ∧ decode .c64 [0x48#8, 0x65#8, 0x0F#8, 0xAE#8, 0x37#8]
        = .ok (.xsaveopt [.rex 8#4, .seg .gs] none (.base 7#3 .none), []) := by decide

theorem test_x21_x22 :
    decode .c32 [0x0F#8, 0xAE#8, 0x35#8, 0x00#8, 0x20#8, 0x00#8, 0x00#8] = .ok (.xsaveopt [] none (.disp32 0x2000#32), [])
      ∧ decode .c32 [0x67#8, 0x0F#8, 0xAE#8, 0x37#8] = .ok (.xsaveopt [.addrSize] none (.base16 .bx .none), []) := by decide

theorem test_x23_x24_x25_x26 :
    decode .c16 [0x0F#8, 0xAE#8, 0x36#8, 0x00#8, 0x20#8] = .ok (.xsaveopt [] none (.abs16 0x2000#16), [])
      ∧ decode .c16 [0x0F#8, 0xAE#8, 0x30#8] = .ok (.xsaveopt [] none (.base16 .bxSi .none), [])
      ∧ decode .c16 [0x0F#8, 0xAE#8, 0x76#8, 0x00#8] = .ok (.xsaveopt [] none (.base16 .bp (.d8 0#8)), [])
      ∧ decode .c16 [0x26#8, 0x67#8, 0x0F#8, 0xAE#8, 0x33#8]
        = .ok (.xsaveopt [.seg .es, .addrSize] none (.base 3#3 .none), []) := by decide

theorem test_x27_to_x32 :
    decode .c64 [0x0F#8, 0xAE#8, 0xF0#8] = .error .registerForm
      ∧ decode .c64 [0xF0#8, 0x0F#8, 0xAE#8, 0x30#8] = .ok (.xsaveopt [.lock] none (.base 0#3 .none), [])
      ∧ decode .c64 [0x66#8, 0x0F#8, 0xAE#8, 0x30#8] = .error .mandatoryPrefix
      ∧ decode .c64 [0xF2#8, 0x0F#8, 0xAE#8, 0x30#8] = .error .mandatoryPrefix
      ∧ decode .c32 [0x48#8, 0x0F#8, 0xAE#8, 0x30#8] = .error .notTheOpcode
      ∧ decode .c64 [0x0F#8, 0xAE#8, 0x28#8] = .error .otherExtension := by decide

theorem test_x33 : decode .c64 [0x0F#8, 0xAE#8, 0xB4#8, 0x88#8, 0x00#8, 0x01#8, 0x00#8, 0x00#8]
    = .ok (.xsaveopt [] none (.sib 2#2 1#3 0#3 (.d32 0x100#32)), []) := by decide

/-- Bytes that end too soon, and a sixteenth byte (30_encoding.md R113). -/
theorem test_truncated :
    decode .c64 [0x0F#8, 0xAE#8] = .error .truncated ∧ decode .c64 [0x0F#8, 0xAE#8, 0x77#8] = .error .truncated
      ∧ decode .c64 (List.replicate 15 0x40#8) = .error .tooLong := by decide

/-- The two rows of opcode_table.json (30_encoding.md R118). -/
theorem test_table_rows :
    decodeTableWord 24 0x0FAE30 = some (.xsaveopt [] none (.base 0#3 .none))
      ∧ decodeTableWord 32 0x480FAE30 = some (.xsaveopt64 [] ⟨false, false, false⟩ (.base 0#3 .none)) := by decide

/-! ### States: the example configuration TC1 of 95_test_vectors.md part 2, without paging -/

/-- A flat segment: base 0, limit FFFFFFFFH. -/
def flat : SegReg := ⟨0x10#16, 0#64, 0xFFFFFFFF#32, false, true, true⟩

/-- TC1: 64-bit mode, CPL 0, everything requested, every component in use, the code `0F AE 37` at 1000H. -/
def tc1 : State := { State.reset with
  mode := .bits64, cr4 := 0x40000#64, cr0 := 0x80000011#64, xcr0 := 7#64, pc := 0x1000#64, xinuse := 7#64
  xmodified := 0xFFFFFFFFFFFFFFFF#64, segs := ⟨flat, flat, flat, flat, flat, flat⟩, code := ⟨0x1000, 3⟩
  gpr := { State.reset.gpr with rdi := 0x2000#64, rax := 0xFFFFFFFF#64, rdx := 0xFFFFFFFF#64 }
  mem := [(0x1000, 0x0F#8), (0x1001, 0xAE#8), (0x1002, 0x37#8)] }

/-- TC1 with the other instruction, `48 0F AE 37`. -/
def tc1w : State := { tc1 with
  code := ⟨0x1000, 4⟩, mem := [(0x1000, 0x48#8), (0x1001, 0x0F#8), (0x1002, 0xAE#8), (0x1003, 0x37#8)] }

/-- TC1 with state component 62 beside component 2, XCR0 enabling both. -/
def tc62 : State := { tc1 with
  xcr0 := 0x4000000000000007#64, xinuse := 0x4000000000000007#64
  conf := { configTC1 with components := [⟨2, 576, 256⟩, ⟨62, 832, 64⟩], xcr0Supported := 0x4000000000000007#64 } }

/-- TC1 in a mode with segments: EDI = 2000H, a flat DS. -/
def tcIn (m : Mode) : State := { tc1 with mode := m, cr0 := 0x11#64 }

/-- TC1 in real-address mode, every segment base 0. -/
def tcReal : State := { tc1 with
  mode := .realAddress, cr0 := 0x10#64
  segs := ⟨resetSeg, resetSeg, resetSeg, resetSeg, resetSeg, resetSeg⟩ }

/-- XSAVEOPT [RDI] and XSAVEOPT64 [RDI]. -/
def save : Instr := .xsaveopt [] none (.base 7#3 .none)
def save64 : Instr := .xsaveopt64 [] ⟨false, false, false⟩ (.base 7#3 .none)

/-- XSAVEOPT with the 16-bit operand DI. -/
def save16 : Instr := .xsaveopt [] none (.base16 .di .none)

theorem next_of {i : Instr} {s : State} (hl : launchRefusal i s = none) (hu : undefinedOpcode i s = false)
    (ht : taskSwitched s = false) (ho : operandRefusal i s = none) (hm : memCauses (instrW i) i s = []) :
    exec i s = .next (completed (instrW i) i s) := by
  rw [exec_eq]
  exact saveCommon_completes hl hu ht ho hm

/-- The checks without evaluating what is stored (free values stand in it). -/
theorem next_of_accessible {i : Instr} {s : State} (hl : launchRefusal i s = none) (hu : undefinedOpcode i s = false)
    (ht : taskSwitched s = false) (ho : operandRefusal i s = none) (hm : misaligned i s = false)
    (ha : ∀ k < areaSize s, accessFault s i k .write = none) : ∃ t, exec i s = .next t := by
  obtain ⟨_, hc, _, hx, _⟩ := launchRefusal_eq_none hl
  exact ⟨_, next_of hl hu ht ho (by simp [memCauses, hm, accessCauses_of_accessible hc hx ha])⟩

theorem fault_of {i : Instr} {s : State} {c : MemCause} (hl : launchRefusal i s = none)
    (hu : undefinedOpcode i s = false) (ht : taskSwitched s = false) (ho : operandRefusal i s = none)
    (hm : memCauses (instrW i) i s = [c]) : exec i s = raiseCause (instrW i) i s c := by
  have hr : reportedCause s c [] = c := List.mem_singleton.1 (reportedCause_mem s c [])
  rw [exec_eq]
  simp only [saveCommon, finishSave, hl, hu, ht, ho, hm, hr]
  rfl

theorem tc1_next : exec save tc1 = .next (completed false save tc1) :=
  next_of (by decide +kernel) (by decide) (by decide) (by decide +kernel) (by decide +kernel)

theorem tc1w_next : exec save64 tc1w = .next (completed true save64 tc1w) :=
  next_of (by decide +kernel) (by decide) (by decide) (by decide +kernel) (by decide +kernel)

theorem tc62_next : exec save tc62 = .next (completed false save tc62) :=
  next_of (by decide +kernel) (by decide) (by decide) (by decide +kernel) (by decide +kernel)

theorem flat_aliasFree {i : Instr} {s : State} (hp : s.paging = none) : AliasFree i s :=
  aliasFree_of_no_paging (.inl hp)

theorem tc1_header : HeaderReads save tc1 0#64 := by
  intro j hj
  refine ⟨0x2200 + j, ?_, ?_⟩ <;> interval_cases j <;> rfl

/-! ### Witnesses: encoding and step -/

theorem witness_DecodeOfEncode :
    wellFormed .c64 (.xsaveopt64 [.seg .fs, .addrSize] ⟨false, true, true⟩ (.sib 3#2 4#3 5#3 (.d32 0xFFFFFFFF#32))) = true
      ∧ wellFormed .c16 (.xsaveopt [.lock, .seg .es] none (.base16 .bpDi (.d16 0x8000#16))) = true := by decide

theorem witness_EncodeOfDecode :
    decode .c64 [0x48#8, 0x0F#8, 0xAE#8, 0x30#8, 0x90#8]
      = .ok (.xsaveopt64 [] ⟨false, false, false⟩ (.base 0#3 .none), [0x90#8]) := by decide

theorem witness_MandatoryPrefixRefused :
    (∀ p ∈ [0x64#8, 0x48#8], (prefixOf .c64 p).isSome = true) ∧ (0x66#8 = 0x66#8 ∨ 0x66#8 = 0xF2#8 ∨ 0x66#8 = 0xF3#8) := by
  decide

theorem witness_NeighboursRefused :
    (∀ p ∈ [0x2E#8, 0x67#8], (prefixOf .c16 p).isSome = true)
      ∧ (0x28#8 : Byte).extractLsb' 3 3 ≠ 6#3 ∧ (0xF0#8 : Byte).extractLsb' 6 2 = 3#2 := by decide

theorem witness_RexBytesOutsideBits64 :
    (∀ p ∈ [0x64#8], (prefixOf .c32 p).isSome = true) ∧ (0x40#8 : Byte).extractLsb' 4 4 = 4#4
      ∧ (0x4F#8 : Byte).extractLsb' 4 4 = 4#4
      ∧ decode .c64 [0x48#8, 0x0F#8, 0xAE#8, 0x30#8]
        = .ok (.xsaveopt64 [] ⟨false, false, false⟩ (.base 0#3 .none), []) := by decide

theorem witness_RexWChoosesXsaveopt64 :
    decode .c64 ([0x65#8] ++ (4#4 ++ 8#4) :: 0x0F#8 :: [0xAE#8, 0x37#8])
        = .ok (.xsaveopt64 [.seg .gs] ⟨false, false, false⟩ (.base 7#3 .none), [])
      ∧ decode .c64 ([0x48#8] ++ 0x65#8 :: 0x0F#8 :: [0xAE#8, 0x37#8])
        = .ok (.xsaveopt [.rex 8#4, .seg .gs] none (.base 7#3 .none), [])
      ∧ (0x65#8 : Byte).extractLsb' 4 4 ≠ 4#4 ∧ (prefixOf .c64 0x65#8).isSome = true := by decide

theorem witness_StepRunsDecoded :
    inCode tc1w 0 = true ∧ decode (codeSizeOf tc1w) (fetchWindow tc1w) = .ok (save64, [])
      ∧ wellFormed (codeSizeOf tc1w) save64 = true := by decide +kernel

theorem witness_EncodedInstructionRuns :
    wellFormed (codeSizeOf tc1) save = true ∧ ∀ j b, (encode save)[j]? = some b → fetchByte tc1 j = some b := by
  refine ⟨by decide, fun j b h => ?_⟩
  match j with
  | 0 => cases h; decide +kernel
  | 1 => cases h; decide +kernel
  | 2 => cases h; decide +kernel
  | n + 3 => simp [encode, save, encodeMem] at h

theorem witness_CleanStopPastTheCode :
    instrLinear { tc1 with pc := 0x1003#64 } = tc1.code.first + tc1.code.size := by decide +kernel

theorem tc1_step : step tc1 = .next (completed false save tc1) := by
  have h : inCode tc1 0 = true ∧ decode (codeSizeOf tc1) (fetchWindow tc1) = .ok (save, []) := by decide +kernel
  simp only [step, h.1, h.2, if_true]
  exact tc1_next

theorem witness_StepWritesOnlyMemoryAndPc : ∃ t, step tc1 = .next t := ⟨_, tc1_step⟩

/-! ### Witnesses: addresses -/

theorem witness_EffectiveAddress16 :
    addrSizeIn tcReal (.xsaveopt [] none (.abs16 0xFFFF#16)) = .a16
      ∧ addrSizeIn tcReal (.xsaveopt [] none (.base16 .bpDi (.d8 0x80#8))) = .a16 := by decide

theorem witness_EffectiveAddress32 :
    addrSizeIn (tcIn .protectedMode) (.xsaveopt [] none (.disp32 0xFFFFFFFF#32)) = .a32
      ∧ addrSizeIn tc1 (.xsaveopt [.addrSize] none (.disp32 0xFFFFFFFF#32)) = .a32
      ∧ addrSizeIn (tcIn .compatibility) (.xsaveopt [] none (.base 0#3 (.d8 0x80#8))) = .a32
      ∧ addrSizeIn tc1 (.xsaveopt64 [.addrSize] ⟨false, true, true⟩ (.sib 3#2 4#3 5#3 (.d32 0#32))) = .a32
      ∧ addrSizeIn tc1 (.xsaveopt [.addrSize] none (.sibNoBase 3#2 4#3 0#32)) = .a32 := by decide

theorem witness_EffectiveAddress64 :
    tc1.mode = .bits64 ∧ addrSizeIn tc1 (.xsaveopt [] none (.disp32 0xFF9#32)) = .a64
      ∧ addrSizeIn tc1 (.xsaveopt [] none (.base 0#3 (.d8 0xC0#8))) = .a64
      ∧ addrSizeIn tc1 (.xsaveopt64 [] ⟨false, true, false⟩ (.sib 3#2 4#3 0#3 .none)) = .a64
      ∧ addrSizeIn tc1 (.xsaveopt [] none (.sibNoBase 0#2 4#3 0x80000000#32)) = .a64 := by decide

theorem witness_DefaultSegment :
    segOverride (instrPrefixes (.xsaveopt [.addrSize] none (.base16 .bp (.d8 0#8)))) = none
      ∧ tc1.mode = .bits64 ∧ (tcIn .virtual8086).mode ≠ .bits64 := by decide

theorem witness_SegmentAndLinearAddress :
    tc1.mode = .bits64 ∧ segOverride (instrPrefixes (.xsaveopt [.seg .cs] none (.base 7#3 .none))) = some .cs
      ∧ segOverride (instrPrefixes (.xsaveopt [.seg .gs] none (.base 7#3 .none))) = some .gs
      ∧ segOverride (instrPrefixes (.xsaveopt [.seg .fs] none (.base 7#3 .none))) = some .fs
      ∧ (tcIn .protectedMode).mode ≠ .bits64 := by decide

/-! ### Witnesses: completion and what is stored -/

theorem save_ready {i : Instr} {s : State} (hl : launchRefusal i s = none) (ho : operandRefusal i s = none)
    (h1 : s.conf.cpuidXsave = true) (h2 : s.conf.cpuidXsaveopt = true) (h3 : s.cr4.getLsbD 18 = true)
    (h4 : s.cr0.getLsbD 3 = false) (h5 : hasLock i = false) (ha : (laxaOf s i).toNat % 64 = 0)
    (hx : ∀ k < areaSize s, accessFault s i k .write = none) : SaveReady i s :=
  ⟨⟨hl, ho⟩, ⟨h1, h2, h3, h4, h5⟩, ha, hx⟩

theorem witness_XsaveoptCompletes :
    SaveReady (.xsaveopt [] none (.base 7#3 .none)) tc1 ∧ AliasFree save tc1 ∧ HeaderReads save tc1 0#64 :=
  ⟨save_ready (by decide +kernel) (by decide +kernel) (by decide) (by decide) (by decide) (by decide) (by decide)
    (by decide) (by decide +kernel), flat_aliasFree rfl, tc1_header⟩

/-- The 16-bit form in real-address mode, the area ending at FFFFH. -/
theorem witness_XsaveoptCompletes_real :
    SaveReady save16 { tcReal with gpr := { tcReal.gpr with rdi := 0xFCC0#64 } } :=
  save_ready (by decide +kernel) (by decide +kernel) (by decide) (by decide) (by decide) (by decide) (by decide)
    (by decide) (by decide +kernel)

theorem witness_Xsaveopt64Completes :
    SaveReady (.xsaveopt64 [] ⟨false, false, false⟩ (.base 7#3 .none)) tc1w ∧ AliasFree save64 tc1w :=
  ⟨save_ready (by decide +kernel) (by decide +kernel) (by decide) (by decide) (by decide) (by decide) (by decide)
    (by decide) (by decide +kernel), flat_aliasFree rfl⟩

theorem witness_RegistersKept : ∃ t, exec save64 tc1w = .next t := ⟨_, tc1w_next⟩

/-- Every flag but TF and AC is another one. -/
theorem witness_FlagsNotAffected :
    (0xFFFFFFFFFFFBFEFD#64 : Quad).getLsbD 8 = tc1.rflags.getLsbD 8
      ∧ (0xFFFFFFFFFFFBFEFD#64 : Quad).getLsbD 18 = tc1.rflags.getLsbD 18 ∧ ∃ t, exec save tc1 = .next t :=
  ⟨by decide, by decide, _, tc1_next⟩

theorem witness_CompletedFrame : exec save tc1 = .next (completed false save tc1) := tc1_next

theorem witness_XstateBvWritten :
    (∃ t, exec save tc1 = .next t) ∧ AliasFree save tc1 ∧ HeaderReads save tc1 0#64
      ∧ xstateBvCovers tc1.conf 520 = false ∧ xstateBvCovers tc1.conf 575 = false :=
  ⟨⟨_, tc1_next⟩, flat_aliasFree rfl, tc1_header, by decide, by decide⟩

theorem witness_XsaveoptStoresX87 :
    (∃ t, exec (.xsaveopt [] none (.base 7#3 .none)) tc1 = .next t) ∧ AliasFree save tc1
      ∧ (toBeSaved tc1 (laxaOf tc1 save)).getLsbD 0 = true :=
  ⟨⟨_, tc1_next⟩, flat_aliasFree rfl, by decide⟩

theorem witness_Xsaveopt64StoresX87 :
    (∃ t, exec (.xsaveopt64 [] ⟨false, false, false⟩ (.base 7#3 .none)) tc1w = .next t) ∧ AliasFree save64 tc1w
      ∧ (toBeSaved tc1w (laxaOf tc1w save64)).getLsbD 0 = true :=
  ⟨⟨_, tc1w_next⟩, flat_aliasFree rfl, by decide⟩

/-- TC1 with other images than the default ones: x87 bytes 0 to 9 without and 0 to 19 with REX.W, one byte of XMM0 and one
of XMM8, the MXCSR fields at 100 and 104. -/
def tcOther : State := { tc1 with
  conf := { configTC1 with
    x87Image := .other (List.range 10) (List.range 20), xmmImage := .other [460] [461], mxcsrOffset := 100
    mxcsrMaskOffset := 104 } }

/-- The clauses about any image, in a format that is not the default. -/
theorem witness_StoresX87_other :
    (∃ t, exec save tcOther = .next t) ∧ (∃ t, exec save64 tcOther = .next t) ∧ AliasFree save tcOther
      ∧ x87Covers tcOther.conf false 9 = true ∧ x87Covers tcOther.conf true 19 = true
      ∧ xmmCovers tcOther.conf 460 = true ∧ xmmHighCovers tcOther.conf 461 = true :=
  ⟨⟨_, next_of (by decide +kernel) (by decide) (by decide) (by decide +kernel) (by decide +kernel)⟩,
    ⟨_, next_of (by decide +kernel) (by decide) (by decide) (by decide +kernel) (by decide +kernel)⟩, flat_aliasFree rfl,
    by decide, by decide, by decide, by decide⟩

/-- In 64-bit mode, and in protected mode (k = 7 and k = 15 are the two sides of the boundary). -/
theorem witness_XmmStored :
    (∃ t, exec save tc1 = .next t) ∧ AliasFree save tc1 ∧ (toBeSaved tc1 (laxaOf tc1 save)).getLsbD 1 = true
      ∧ (∃ t, exec save (tcIn .protectedMode) = .next t) ∧ AliasFree save (tcIn .protectedMode)
      ∧ (toBeSaved (tcIn .protectedMode) (laxaOf (tcIn .protectedMode) save)).getLsbD 1 = true :=
  ⟨⟨_, tc1_next⟩, flat_aliasFree rfl, by decide,
    next_of_accessible (by decide +kernel) (by decide) (by decide) (by decide +kernel) (by decide) (by decide +kernel),
    flat_aliasFree rfl, by decide⟩

/-- Everything requested; component 2 alone without SSE (XCR0 = 5); and x87 state alone. -/
theorem witness_MxcsrStored :
    (∃ t, exec save tc1 = .next t) ∧ AliasFree save tc1 ∧ (rfbm tc1).getLsbD 1 = true
      ∧ (∃ t, exec save { tc1 with xcr0 := 5#64 } = .next t) ∧ (rfbm { tc1 with xcr0 := 5#64 }).getLsbD 1 = false
      ∧ (rfbm { tc1 with xcr0 := 5#64 }).getLsbD 2 = true
      ∧ (∃ t, exec save { tc1 with xcr0 := 1#64 } = .next t) ∧ (rfbm { tc1 with xcr0 := 1#64 }).getLsbD 1 = false
      ∧ (rfbm { tc1 with xcr0 := 1#64 }).getLsbD 2 = false :=
  ⟨⟨_, tc1_next⟩, flat_aliasFree rfl, by decide,
    ⟨_, next_of (by decide +kernel) (by decide) (by decide) (by decide +kernel) (by decide +kernel)⟩, by decide, by decide,
    ⟨_, next_of (by decide +kernel) (by decide) (by decide) (by decide +kernel) (by decide +kernel)⟩, by decide, by decide⟩

/-- Components 2 and 62, the two ends of the loop. -/
theorem witness_ComponentsStored :
    (∃ t, exec save tc62 = .next t) ∧ AliasFree save tc62
      ∧ (toBeSaved tc62 (laxaOf tc62 save)).getLsbD 2 = true ∧ (toBeSaved tc62 (laxaOf tc62 save)).getLsbD 62 = true
      ∧ 0 < compSize tc62.conf 2 ∧ 0 < compSize tc62.conf 62 :=
  ⟨⟨_, tc62_next⟩, flat_aliasFree rfl, by decide, by decide, by decide, by decide⟩

/-- TC1 and `tc62` with no component in use: nothing is to be saved, the init optimization. -/
theorem witness_UnsavedComponentsUnchanged :
    (∃ t, exec save { tc62 with xinuse := 0#64 } = .next t) ∧ AliasFree save { tc62 with xinuse := 0#64 }
      ∧ (∀ n ∈ [0, 1, 2, 62], (toBeSaved { tc62 with xinuse := 0#64 } (laxaOf tc62 save)).getLsbD n = false)
      ∧ tc62.xcr0.getLsbD 2 = true ∧ tc62.xcr0.getLsbD 62 = true
      ∧ partCovers tc62.conf false 0 159 = false ∧ partCovers tc62.conf false 0 153 = true
      ∧ partCovers tc62.conf false 1 160 = true ∧ partCovers tc62.conf false 1 415 = true
      ∧ partCovers tc62.conf false 2 576 = true ∧ partCovers tc62.conf false 62 895 = true :=
  ⟨⟨_, next_of (by decide +kernel) (by decide) (by decide) (by decide +kernel) (by decide +kernel)⟩,
    flat_aliasFree rfl, by decide, by decide, by decide, by decide, by decide, by decide, by decide, by decide,
    by decide⟩

/-- TC1 with the components 2, 3 and 62 supported and 3 not enabled: its place, bytes 832 to 895, lies in the area. -/
def tcGap : State := { tc62 with
  conf := { configTC1 with
    components := [⟨2, 576, 256⟩, ⟨3, 832, 64⟩, ⟨62, 896, 64⟩], xcr0Supported := 0x400000000000000F#64 } }

theorem tcGap_next : exec save tcGap = .next (completed false save tcGap) :=
  next_of (by decide +kernel) (by decide) (by decide) (by decide +kernel) (by decide +kernel)

/-- UnsavedComponentsUnchanged and NotRequestedUnchanged of a component that XCR0 does not enable. -/
theorem witness_UnsavedComponentsUnchanged_gap :
    (∃ t, exec save tcGap = .next t) ∧ AliasFree save tcGap ∧ tcGap.conf.xcr0Supported.getLsbD 3 = true
      ∧ tcGap.xcr0.getLsbD 3 = false ∧ (rfbm tcGap).getLsbD 3 = false
      ∧ (toBeSaved tcGap (laxaOf tcGap save)).getLsbD 3 = false
      ∧ ∀ o ∈ [832, 895], o < areaSize tcGap ∧ partCovers tcGap.conf false 3 o = true :=
  ⟨⟨_, tcGap_next⟩, flat_aliasFree rfl, by decide, by decide, by decide, by decide, by decide⟩

theorem witness_UnstoredBytesUnchanged :
    (∃ t, exec save tcGap = .next t) ∧ AliasFree save tcGap ∧ ∀ o ∈ [464, 575, 832, 895], o < areaSize tcGap
      ∧ reservedCovers tcGap.conf false o = false ∧ xstateBvCovers tcGap.conf o = false
      ∧ mxcsrCovers tcGap.conf o = false ∧ ∀ n < 63, partCovers tcGap.conf false n o = true → n = 3 :=
  ⟨⟨_, tcGap_next⟩, flat_aliasFree rfl, by decide +kernel⟩

/-- RFBM = 1 with XINUSE[0] = 0: reserved bytes at 5 and 463. -/
theorem witness_ReservedBytesKept :
    (∃ t, exec save { tc1 with xcr0 := 1#64, xinuse := 6#64 } = .next t)
      ∧ AliasFree save { tc1 with xcr0 := 1#64, xinuse := 6#64 }
      ∧ rfbm { tc1 with xcr0 := 1#64, xinuse := 6#64 } = 1#64
      ∧ (toBeSaved { tc1 with xcr0 := 1#64, xinuse := 6#64 } (laxaOf tc1 save)).getLsbD 0 = false
      ∧ reservedCovers tc1.conf false 5 = true ∧ reservedCovers tc1.conf false 463 = true :=
  ⟨⟨_, next_of (by decide +kernel) (by decide) (by decide) (by decide +kernel) (by decide +kernel)⟩,
    flat_aliasFree rfl, by decide, by decide, by decide, by decide⟩

theorem witness_InitOptimization :
    (∃ t, exec save { tc62 with xinuse := 0#64 } = .next t) ∧ AliasFree save { tc62 with xinuse := 0#64 }
      ∧ (rfbm { tc62 with xinuse := 0#64 }).getLsbD 0 = true ∧ (rfbm { tc62 with xinuse := 0#64 }).getLsbD 62 = true :=
  ⟨⟨_, next_of (by decide +kernel) (by decide) (by decide) (by decide +kernel) (by decide +kernel)⟩,
    flat_aliasFree rfl, by decide, by decide⟩

/-- 95_test_vectors.md V8: XRSTOR_INFO matches and XMODIFIED = 0. -/
def tcV8 : State := { tc62 with xmodified := 0#64, xrstorInfo := some ⟨0, false, 0x2000#64, 0#64⟩ }

theorem witness_ModifiedOptimization :
    (∃ t, exec save tcV8 = .next t) ∧ AliasFree save tcV8
      ∧ tcV8.xrstorInfo = some ⟨currentCpl tcV8, tcV8.vmxNonRoot, laxaOf tcV8 save, 0#64⟩
      ∧ (∀ n ∈ [0, 1, 2, 62], (rfbm tcV8).getLsbD n = true ∧ tcV8.xinuse.getLsbD n = true
        ∧ tcV8.xmodified.getLsbD n = false) :=
  ⟨⟨_, next_of (by decide +kernel) (by decide) (by decide) (by decide +kernel) (by decide +kernel)⟩,
    flat_aliasFree rfl, by decide, by decide⟩

theorem witness_NotRequestedUnchanged :
    (∃ t, exec save { tc62 with gpr := { tc62.gpr with rax := 0#64, rdx := 0#64 } } = .next t)
      ∧ AliasFree save { tc62 with gpr := { tc62.gpr with rax := 0#64, rdx := 0#64 } }
      ∧ (∀ n ∈ [0, 1, 2, 62, 63], (rfbm { tc62 with gpr := { tc62.gpr with rax := 0#64, rdx := 0#64 } }).getLsbD n = false)
    :=
  ⟨⟨_, next_of (by decide +kernel) (by decide) (by decide) (by decide +kernel) (by decide +kernel)⟩,
    flat_aliasFree rfl, by decide⟩

theorem witness_SoftwareBytesKept :
    (∃ t, exec save tc1 = .next t) ∧ AliasFree save tc1
      ∧ ∀ o ∈ [464, 511, 520, 575], 464 ≤ o ∧ o < 576 ∧ xstateBvCovers tc1.conf o = false :=
  ⟨⟨_, tc1_next⟩, flat_aliasFree rfl, by decide⟩

theorem witness_EmptyRequestChangesNothing :
    (∃ t, exec save { tc1 with gpr := { tc1.gpr with rax := 0xFFFFFFF8#64 } } = .next t)
      ∧ AliasFree save { tc1 with gpr := { tc1.gpr with rax := 0xFFFFFFF8#64 } }
      ∧ rfbm { tc1 with gpr := { tc1.gpr with rax := 0xFFFFFFF8#64 } } = 0#64 :=
  ⟨⟨_, next_of (by decide +kernel) (by decide) (by decide) (by decide +kernel) (by decide +kernel)⟩,
    flat_aliasFree rfl, by decide⟩

/-! ### Witnesses: comparisons -/

/-- 95_test_vectors.md V9: another CPL in XRSTOR_INFO. -/
theorem witness_NoMatchIgnoresModified :
    (∃ t, exec save { tcV8 with xrstorInfo := some ⟨3, false, 0x2000#64, 0#64⟩ } = .next t)
      ∧ (some ⟨3, false, 0x2000#64, 0#64⟩ : Option XrstorInfo)
        ≠ some ⟨currentCpl tcV8, tcV8.vmxNonRoot, laxaOf tcV8 save, 0#64⟩ :=
  ⟨⟨_, next_of (by decide +kernel) (by decide) (by decide) (by decide +kernel) (by decide +kernel)⟩, by decide⟩

/-- 95_test_vectors.md V13: TO_BE_SAVED[0] = 0. -/
theorem witness_SameBytesWithoutX87 :
    (∃ t, exec (.xsaveopt [] (some ⟨false, false, false⟩) (.base 7#3 .none)) { tc1 with xinuse := 6#64 } = .next t)
      ∧ (∃ u, exec save64 { tc1 with xinuse := 6#64 } = .next u) ∧ AliasFree save64 { tc1 with xinuse := 6#64 }
      ∧ (toBeSaved { tc1 with xinuse := 6#64 } (laxaOf tc1 save64)).getLsbD 0 = false :=
  ⟨⟨_, next_of (by decide +kernel) (by decide) (by decide) (by decide +kernel) (by decide +kernel)⟩,
    ⟨_, next_of (by decide +kernel) (by decide) (by decide) (by decide +kernel) (by decide +kernel)⟩,
    flat_aliasFree rfl, by decide⟩

theorem witness_UpperHalvesIgnored :
    (0xFFFFFFFFFFFFFFFF#64 : Quad).setWidth 32 = tc1.gpr.rax.setWidth 32
      ∧ (0x1FFFFFFFF#64 : Quad).setWidth 32 = tc1.gpr.rdx.setWidth 32
      ∧ effectiveAddress { tc1 with gpr := { tc1.gpr with rax := 0xFFFFFFFFFFFFFFFF#64, rdx := 0x1FFFFFFFF#64 } } save
        = effectiveAddress tc1 save
      ∧ ∃ t, exec save tc1 = .next t :=
  ⟨by decide, by decide, by decide, _, tc1_next⟩

theorem witness_CompletesAtEveryCpl : tc1.paging = none ∧ tc1.xrstorInfo = none ∧ ∃ t, exec save tc1 = .next t :=
  ⟨rfl, rfl, _, tc1_next⟩

/-- The checks look at no byte of memory. -/
theorem again_of_accessible {i : Instr} {s : State} (m : Memory) (hl : launchRefusal i s = none)
    (hu : undefinedOpcode i s = false) (ht : taskSwitched s = false) (ho : operandRefusal i s = none)
    (hm : misaligned i s = false) (ha : ∀ k < areaSize s, accessFault s i k .write = none) :
    ∃ t, exec i { s.leave m (pcNext s i) with pc := s.pc } = .next t :=
  next_of_accessible (s := s.leave m s.pc) hl hu ht ho hm ha

theorem witness_RepeatWritesTheSame :
    tc1.mode = .bits64 ∧ exec save tc1 = .next (completed false save tc1) ∧ AliasFree save tc1
      ∧ ∃ u, exec save { completed false save tc1 with pc := tc1.pc } = .next u := by
  exact ⟨rfl, tc1_next, flat_aliasFree rfl, again_of_accessible _ (by decide +kernel) (by decide) (by decide)
    (by decide +kernel) (by decide) (by decide +kernel)⟩

/-! ### Witnesses: exceptions -/

/-- LOCK; each CPUID bit; CR4.OSXSAVE; and, for the second half, a #NM. -/
theorem witness_InvalidOpcodeRaised :
    launchRefusal (.xsaveopt [.lock] none (.base 7#3 .none)) tc1 = none
      ∧ hasLock (.xsaveopt [.lock] none (.base 7#3 .none)) = true
      ∧ launchRefusal save { tc1 with conf := { configTC1 with cpuidXsave := false } } = none
      ∧ launchRefusal save { tc1 with conf := { configTC1 with cpuidXsaveopt := false } } = none
      ∧ launchRefusal save { tc1 with cr4 := 0xFFFFFFFFFFFBFFFF#64 } = none
      ∧ (0xFFFFFFFFFFFBFFFF#64 : Quad).getLsbD 18 = false
      ∧ launchRefusal save { tc1 with cr0 := 8#64 } = none ∧ undefinedOpcode save { tc1 with cr0 := 8#64 } = false
      ∧ taskSwitched { tc1 with cr0 := 8#64 } = true := by decide +kernel

/-- E1 of 95_test_vectors.md: RDI = 1010H, a misaligned operand. -/
def tcE1 : State := { tc1 with gpr := { tc1.gpr with rdi := 0x1010#64 } }

/-- 95_test_vectors.md E1 with RDI = 2010H: Fault(GP, 0, none), and memory is unchanged. -/
theorem test_e1 : exec save { tc1 with gpr := { tc1.gpr with rdi := 0x2010#64 } }
    = .fault (.raised ⟨.gp, some 0#32, none⟩ { tc1 with gpr := { tc1.gpr with rdi := 0x2010#64 }, draws := 1 }) := by
  rw [fault_of (c := .align) (by decide +kernel) (by decide) (by decide) (by decide +kernel) (by decide +kernel)]
  rfl

theorem witness_DeviceNotAvailableRaised :
    launchRefusal save { tc1 with cr0 := 8#64 } = none ∧ launchRefusal save tc1 = none ∧ hasLock save = false
      ∧ tc1.conf.cpuidXsave = true ∧ tc1.conf.cpuidXsaveopt = true ∧ tc1.cr4.getLsbD 18 = true
      ∧ (8#64 : Quad).getLsbD 3 = true ∧ tc1.cr0.getLsbD 3 = false := by decide +kernel

theorem witness_MisalignedNeverCompletes : (laxaOf tcE1 save).toNat % 64 ≠ 0 := by decide

theorem enabled_of {i : Instr} {s : State} (h1 : s.conf.cpuidXsave = true) (h2 : s.conf.cpuidXsaveopt = true)
    (h3 : s.cr4.getLsbD 18 = true) (h4 : s.cr0.getLsbD 3 = false) (h5 : hasLock i = false) : Enabled i s :=
  ⟨h1, h2, h3, h4, h5⟩

/-- E8 of 95_test_vectors.md: alignment checking enabled, CPL 3, misaligned by 2. -/
def tcE8 : State := { tc1 with
  cr0 := 0x80040011#64, rflags := 0x40002#64, cpl := 3, gpr := { tc1.gpr with rdi := 0x2002#64 } }

/-- Real-address mode misaligned by 32; 64-bit mode by 63; and #AC or #GP at CPL 3. -/
theorem witness_AlignmentFaultRaised :
    (Accepted save16 { tcReal with gpr := { tcReal.gpr with rdi := 0x2020#64 } }
        ∧ Enabled save16 { tcReal with gpr := { tcReal.gpr with rdi := 0x2020#64 } }
        ∧ AllAccessible save16 { tcReal with gpr := { tcReal.gpr with rdi := 0x2020#64 } }
        ∧ (laxaOf { tcReal with gpr := { tcReal.gpr with rdi := 0x2020#64 } } save16).toNat % 64 ≠ 0)
      ∧ (Accepted save { tc1 with gpr := { tc1.gpr with rdi := 0x203F#64 } }
        ∧ Enabled save { tc1 with gpr := { tc1.gpr with rdi := 0x203F#64 } }
        ∧ AllAccessible save { tc1 with gpr := { tc1.gpr with rdi := 0x203F#64 } }
        ∧ (laxaOf { tc1 with gpr := { tc1.gpr with rdi := 0x203F#64 } } save).toNat % 64 ≠ 0)
      ∧ (Accepted save tcE8 ∧ Enabled save tcE8 ∧ AllAccessible save tcE8 ∧ (laxaOf tcE8 save).toNat % 64 ≠ 0
        ∧ tcE8.cr0.getLsbD 18 = true ∧ tcE8.rflags.getLsbD 18 = true ∧ currentCpl tcE8 = 3) := by
  refine ⟨⟨⟨by decide +kernel, by decide +kernel⟩, enabled_of rfl rfl rfl rfl rfl, ?_, by decide⟩,
    ⟨⟨by decide +kernel, by decide +kernel⟩, enabled_of rfl rfl rfl rfl rfl, ?_, by decide⟩,
    ⟨by decide +kernel, by decide +kernel⟩, enabled_of rfl rfl rfl rfl rfl, ?_, by decide, by decide, by decide, by decide⟩
  all_goals (unfold AllAccessible; decide +kernel)

/-- A misaligned operand with nothing mapped, the order of the faults fixed. -/
def tcAlign : State := { tc1 with
  gpr := { tc1.gpr with rdi := 0x2001#64 }, paging := some []
  conf := { configTC1 with memFaultOrder := .limitAlignPage } }

theorem witness_AlignmentFaultRaised_order :
    Accepted save tcAlign ∧ Enabled save tcAlign ∧ (laxaOf tcAlign save).toNat % 64 ≠ 0
      ∧ ∀ k < areaSize tcAlign, ¬OutsideBounds save tcAlign k := by
  have inside : ∀ k < areaSize tcAlign, accessFault tcAlign save k .write ≠ some .limit := by decide +kernel
  exact ⟨⟨by decide +kernel, by decide +kernel⟩, enabled_of rfl rfl rfl rfl rfl, by decide,
    fun k hk h => inside k hk (accessFault_eq_some.2 (locate_limit_iff.2 h))⟩

/-- A mode with segments, in which the data segments end at 2206H: the area at 2000H has its XSTATE_BV field at 2200H to
2207H, one byte too many. SSE state is in its initial configuration, so that no store depends on a free value. -/
def tcLimit (m : Mode) : State := { tcIn m with
  xinuse := 5#64
  segs := { (tcIn m).segs with ds := { flat with limit := 0x2206#32 }, ss := { flat with limit := 0x2206#32 } } }

/-- E11 and E11b of 95_test_vectors.md, and the other two modes: through DS and through SS. -/
theorem witness_SegmentLimitFaultRaised :
    (Accepted save (tcLimit .protectedMode) ∧ Enabled save (tcLimit .protectedMode)
        ∧ (laxaOf (tcLimit .protectedMode) save).toNat % 64 = 0 ∧ (tcLimit .protectedMode).paging = none
        ∧ operandSeg (tcLimit .protectedMode) save = .ds
        ∧ ∃ e ∈ operationStores false save (tcLimit .protectedMode), (tcLimit .protectedMode).segs.ds.limit.toNat
          < (effectiveAddress (tcLimit .protectedMode) save).toNat + e.1)
      ∧ (Accepted (.xsaveopt [.seg .ss] none (.base16 .di .none)) (tcLimit .virtual8086)
        ∧ operandSeg (tcLimit .virtual8086) (.xsaveopt [.seg .ss] none (.base16 .di .none)) = .ss)
      ∧ Accepted save (tcLimit .compatibility) := by
  refine ⟨⟨⟨by decide +kernel, by decide +kernel⟩, enabled_of rfl rfl rfl rfl rfl, by decide, rfl, by decide,
    by decide +kernel⟩, ⟨⟨by decide +kernel, by decide +kernel⟩, by decide⟩, by decide +kernel, by decide +kernel⟩

/-- A misaligned operand with paging, the order of the faults fixed: the limit comes first. -/
def tcOrder : State := { tcLimit .protectedMode with
  gpr := { tc1.gpr with rdi := 0x2001#64 }, paging := some []
  conf := { configTC1 with memFaultOrder := .limitAlignPage } }

theorem witness_SegmentLimitFaultRaised_order :
    Accepted save tcOrder ∧ Enabled save tcOrder ∧ tcOrder.conf.memFaultOrder = .limitAlignPage
      ∧ ∃ e ∈ operationStores false save tcOrder,
        tcOrder.segs.ds.limit.toNat < (effectiveAddress tcOrder save).toNat + e.1 :=
  ⟨⟨by decide +kernel, by decide +kernel⟩, enabled_of rfl rfl rfl rfl rfl, rfl, by decide +kernel⟩

/-- The area begins 512 bytes below the end of the canonical addresses, so that its XSTATE_BV field is outside; through
DS and through SS (E6, E6b of 95_test_vectors.md). -/
theorem witness_NonCanonicalFaultRaised :
    (Accepted save { tc1 with gpr := { tc1.gpr with rdi := 0x7FFFFFFFFE00#64 } }
        ∧ Enabled save { tc1 with gpr := { tc1.gpr with rdi := 0x7FFFFFFFFE00#64 } }
        ∧ (laxaOf { tc1 with gpr := { tc1.gpr with rdi := 0x7FFFFFFFFE00#64 } } save).toNat % 64 = 0
        ∧ ∃ e ∈ operationStores false save { tc1 with gpr := { tc1.gpr with rdi := 0x7FFFFFFFFE00#64 } },
          canonical .w48 ((laxaOf { tc1 with gpr := { tc1.gpr with rdi := 0x7FFFFFFFFE00#64 } } save).toNat + e.1)
            = false)
      ∧ (Accepted (.xsaveopt [] none (.sib 0#2 4#3 4#3 .none))
          { tc1 with gpr := { tc1.gpr with rsp := 0x800000000000#64 } }
        ∧ operandSeg tc1 (.xsaveopt [] none (.sib 0#2 4#3 4#3 .none)) = .ss) := by
  refine ⟨⟨⟨by decide +kernel, by decide +kernel⟩, enabled_of rfl rfl rfl rfl rfl, by decide, by decide +kernel⟩,
    ⟨by decide +kernel, by decide +kernel⟩, by decide⟩

/-- As E12 of 95_test_vectors.md: XSTATE_BV would lie at 10000H to 10007H. -/
theorem witness_RealModeBoundFaultRaised :
    Accepted save16 { tcReal with gpr := { tcReal.gpr with rdi := 0xFE00#64 } }
      ∧ Enabled save16 { tcReal with gpr := { tcReal.gpr with rdi := 0xFE00#64 } }
      ∧ ∃ e ∈ operationStores false save16 { tcReal with gpr := { tcReal.gpr with rdi := 0xFE00#64 } },
        0xFFFF < (effectiveAddress { tcReal with gpr := { tcReal.gpr with rdi := 0xFE00#64 } } save16).toNat + e.1 := by
  refine ⟨⟨by decide +kernel, by decide +kernel⟩, enabled_of rfl rfl rfl rfl rfl, ?_⟩
  refine ⟨(519, byteAt (newBv { tcReal with gpr := { tcReal.gpr with rdi := 0xFE00#64 } } save16).toNat 7),
    storePlace_iff.2 (.header 7 (by decide)), by decide⟩

/-- 30_encoding.md R111 in real-address mode: DS limit 2206H, the area at 2000H: XSTATE_BV passes the limit, not FFFFH. -/
theorem witness_RealModeBoundFaultRaised_limit :
    Accepted save16 { tcReal with segs := { tcReal.segs with ds := { resetSeg with limit := 0x2206#32 } } }
      ∧ Enabled save16 { tcReal with segs := { tcReal.segs with ds := { resetSeg with limit := 0x2206#32 } } }
      ∧ ∃ e ∈ operationStores false save16
          { tcReal with segs := { tcReal.segs with ds := { resetSeg with limit := 0x2206#32 } } },
        (0x2206#32).toNat < (effectiveAddress { tcReal with
          segs := { tcReal.segs with ds := { resetSeg with limit := 0x2206#32 } } } save16).toNat + e.1 := by
  refine ⟨⟨by decide +kernel, by decide +kernel⟩, enabled_of rfl rfl rfl rfl rfl, ?_⟩
  exact ⟨(519, _), storePlace_iff.2 (.header 7 (by decide)), by decide⟩

/-- E9b of 95_test_vectors.md: the area can be read and not written; XSTATE_BV's last byte, and the first of the x87
image. -/
def tcReadOnly : State := { tc1 with paging := some [⟨0x2000, 0x1000, 0x2000, .read, .read⟩] }

theorem witness_TouchedBytesMustBeWritable :
    accessFault tcReadOnly save (512 + 0) .write = some (.page 0x2200)
      ∧ accessFault tcReadOnly save (512 + 7) .write = some (.page 0x2207)
      ∧ (∃ e ∈ operationStores false save tcReadOnly, e.1 = 0 ∧ accessFault tcReadOnly save e.1 .write ≠ none)
      ∧ Accepted save tcReadOnly ∧ Enabled save tcReadOnly :=
  ⟨by decide +kernel, by decide +kernel, by decide +kernel, ⟨by decide +kernel, by decide +kernel⟩,
    enabled_of rfl rfl rfl rfl rfl⟩

/-- Every byte of the area but the last one of component 2 is mapped. -/
def tcPage : State := { tc1 with paging := some [⟨0, 0x233F, 0, .readWrite, .readWrite⟩] }

theorem tcPage_fault : exec save tcPage = raisePage (Config.freeFaultCode 0) 0x233F (interrupted false save tcPage) :=
  fault_of (c := .page 0x233F) (by decide +kernel) (by decide) (by decide) (by decide +kernel) (by decide +kernel)

/-- As E9 of 95_test_vectors.md: x87 state alone is requested, so that the one byte that is not mapped is not touched. -/
def tcUntouched (c : CheckExtent) : State := { tcPage with
  gpr := { tc1.gpr with rax := 1#64, rdx := 0#64 }, conf := { configTC1 with checkExtent := c } }

theorem witness_CheckExtentDecides :
    (Accepted save (tcUntouched .touchedOnly) ∧ Enabled save (tcUntouched .touchedOnly)
        ∧ (laxaOf (tcUntouched .touchedOnly) save).toNat % 64 = 0 ∧ TouchedAccessible save (tcUntouched .touchedOnly))
      ∧ (Accepted save (tcUntouched .wholeExtent) ∧ Enabled save (tcUntouched .wholeExtent)
        ∧ (laxaOf (tcUntouched .wholeExtent) save).toNat % 64 = 0
        ∧ areaSize (tcUntouched .wholeExtent) = 832
        ∧ accessFault (tcUntouched .wholeExtent) save 831 .write = some (.page 0x233F)) := by
  refine ⟨⟨⟨by decide +kernel, by decide +kernel⟩, enabled_of rfl rfl rfl rfl rfl, by decide, ?_⟩,
    ⟨by decide +kernel, by decide +kernel⟩, enabled_of rfl rfl rfl rfl rfl, by decide, by decide, by decide +kernel⟩
  unfold TouchedAccessible
  decide +kernel

theorem witness_PageFaultReported :
    ∃ x t, exec save tcPage = .fault (.raised x t) ∧ x.kind = .pf := ⟨_, _, tcPage_fault, rfl⟩

/-- Protected mode, a flat SS of limit 2206H, the area at 2000H through SS. -/
theorem tcLimit_ss : exec (.xsaveopt [.seg .ss] none (.base 7#3 .none)) (tcLimit .protectedMode)
    = .fault (.raised ⟨.ss, some 0#32, none⟩
        (interrupted false (.xsaveopt [.seg .ss] none (.base 7#3 .none)) (tcLimit .protectedMode))) := by
  rw [fault_of (c := .limit) (by decide +kernel) (by decide) (by decide) (by decide +kernel) (by decide +kernel)]
  rfl

/-- A #PF, an #SS through SS and a #GP for a misaligned operand (whether #AC is raised is left open, log 23). -/
theorem witness_ExceptionShape :
    (∃ x t, exec save tcPage = .fault (.raised x t) ∧ x.kind = .pf)
      ∧ (∃ x t, exec (.xsaveopt [.seg .ss] none (.base 7#3 .none)) (tcLimit .protectedMode) = .fault (.raised x t)
        ∧ x.kind = .ss)
      ∧ ∃ x t, exec save { tc1 with gpr := { tc1.gpr with rdi := 0x2010#64 } } = .fault (.raised x t) ∧ x.kind = .gp :=
  ⟨⟨_, _, tcPage_fault, rfl⟩, ⟨_, _, tcLimit_ss, rfl⟩, _, _, test_e1, rfl⟩

/-- 95_test_vectors.md E3: CR0.TS = 1, Fault(NM, none, none). -/
theorem test_e3 : exec save { tc1 with cr0 := 8#64 } = .fault (.raised ⟨.nm, none, none⟩ { tc1 with cr0 := 8#64 }) := by
  have hl : launchRefusal save { tc1 with cr0 := 8#64 } = none := by decide +kernel
  rw [exec_eq, saveCommon, hl]
  rfl

theorem witness_FaultLeavesRegisters :
    (∃ x t, exec save tcPage = .fault (.raised x t)) ∧ ∃ x t, exec save { tc1 with cr0 := 8#64 } = .fault (.raised x t)
      ∧ x.kind = .nm :=
  ⟨⟨_, _, tcPage_fault⟩, _, _, test_e3, rfl⟩

/-- 64-bit, protected, virtual-8086 and real-address mode. -/
theorem witness_CompletesOnlyWhereDefined :
    (∃ t, exec save tc1 = .next t) ∧ (∃ t, exec save (tcIn .protectedMode) = .next t)
      ∧ (∃ t, exec save16 (tcIn .virtual8086) = .next t) ∧ ∃ t, exec save16 tcReal = .next t :=
  ⟨⟨_, tc1_next⟩,
    next_of_accessible (by decide +kernel) (by decide) (by decide) (by decide +kernel) (by decide) (by decide +kernel),
    next_of_accessible (by decide +kernel) (by decide) (by decide) (by decide +kernel) (by decide) (by decide +kernel),
    next_of_accessible (by decide +kernel) (by decide) (by decide) (by decide +kernel) (by decide) (by decide +kernel)⟩

theorem witness_LaunchInvariantKept : LaunchInv tc1 ∧ ∃ t, step tc1 = .next t :=
  ⟨⟨by decide, by decide +kernel, by decide, by decide⟩, _, tc1_step⟩

theorem witness_UndefinedAfterReset : launchRefusal (.xsaveopt [] none (.abs16 0x2000#16)) State.reset = none := by
  decide +kernel

/-! ### What is refused -/

/-- 10_state.md R23, R38: virtual-8086 mode with a 32-bit code segment of limit 3FFFFH: the instruction at 20000H, read
with 16-bit addresses, runs. -/
theorem test_v86_eip :
    let s := { tcIn .virtual8086 with
      pc := 0x20000#64, code := ⟨0x20000, 3⟩, mem := [(0x20000, 0x0F#8), (0x20001, 0xAE#8), (0x20002, 0x35#8)]
      segs := { (tcIn .virtual8086).segs with cs := { flat with limit := 0x3FFFF#32 } } }
    (decode (codeSizeOf s) (fetchWindow s) = .ok (save16, [])) ∧ ∃ t, exec save16 s = .next t :=
  ⟨by decide +kernel,
    next_of_accessible (by decide +kernel) (by decide) (by decide) (by decide +kernel) (by decide) (by decide +kernel)⟩

/-- 92_eei_decisions.md D25: CS base FFFFFFF0H, pc 0DH: the linear address after the instruction would be 2^32. -/
theorem test_pc_linear_wrap :
    operandRefusal save { tcIn .protectedMode with
        pc := 0x0D#64, segs := { (tcIn .protectedMode).segs with cs := { flat with base := 0xFFFFFFF0#64 } } }
      = some .pcWrap := by decide +kernel

/-- 20_memory.md R74 and R78: the byte at 2300H lies in the area of TC1 and can only be read: once it is code, once memory
with side effects, once (as location 5000H) both behind a mapping. -/
theorem test_read_only_overlaps :
    operandRefusal save { tcReadOnly with code := ⟨0x2300, 1⟩ } = some .codeOverlap
      ∧ operandRefusal save { tcReadOnly with conf := { configTC1 with devices := [⟨0x2300, 1⟩] } }
        = some .sideEffectMemory
      ∧ operandRefusal save { tc1 with
          paging := some [⟨0x2000, 0x1000, 0x4D00, .read, .none⟩, ⟨0x1000, 3, 0x5000, .read, .read⟩] }
        = some .codeOverlap := by decide +kernel

/-- 60_exceptions.md R200 in real-address mode: DS base FFFFFF00H, EA 0: XSTATE_BV lies at linear address 100H. -/
theorem test_real_breakpoint :
    operandRefusal save16 { tcReal with
        breakpoints := [⟨0x100, 1⟩], gpr := { tcReal.gpr with rdi := 0#64 }
        segs := { tcReal.segs with ds := { resetSeg with base := 0xFFFFFF00#64 } } } = some .dataBreakpoint := by
  decide +kernel

/-- 00_scope.md R8 and R6, 92_eei_decisions.md D15: images that overlap, that reach the bytes 511:464, and an
XCR0_SUPPORTED without bit 0. -/
theorem test_config_refused :
    configOk configTC1 = true ∧ configOk { configTC1 with x87Image := .other [160] [] } = false
      ∧ configOk { configTC1 with x87Image := .other [] [464] } = false
      ∧ configOk { configTC1 with mxcsrOffset := 32 } = false
      ∧ configOk { configTC1 with xcr0Supported := 6#64 } = false := by decide +kernel

/-! ### Single steps -/

/-- 95_test_vectors.md E2: LOCK, Fault(UD, none, none). -/
theorem test_e2 : exec (.xsaveopt64 [.lock] ⟨false, false, false⟩ (.base 7#3 .none)) tc1
    = .fault (.raised ⟨.ud, none, none⟩ tc1) := by
  have hl : launchRefusal (.xsaveopt64 [.lock] ⟨false, false, false⟩ (.base 7#3 .none)) tc1 = none := by decide +kernel
  rw [exec_eq, saveCommon, hl]
  rfl

/-- The byte an execution stores at an offset of the area, if it stores one (the parts, without the reserved bytes). -/
def storedAt (i : Instr) (s : State) (o : Nat) : Option Byte :=
  ((operationStores (instrW i) i s).find? fun e => e.1 == o).map (·.2)

/-- 95_test_vectors.md V2: EAX = 7, XINUSE = 3: MXCSR at 2018H, component 2 not stored, XSTATE_BV becomes 3. -/
theorem test_v2 :
    [0, 24, 25, 160, 576, 512, 513].map (storedAt save { tc1 with xinuse := 3#64, gpr :=
        { tc1.gpr with rax := 7#64, rdx := 0#64 } })
      = [some 0x40#8, some 0x80#8, some 0x1F#8, some 0#8, none, some 3#8, some 0#8] := by decide +kernel

/-- 95_test_vectors.md V12: XSAVEOPT64 of x87 state only, OLD_BV = 6: FIP in full (bytes 12 to 15 are no selector), no
MXCSR, XSTATE_BV becomes 7. -/
theorem test_v12 :
    [8, 12, 15, 24, 160, 576, 512].map (storedAt save64 { tc1w with
        mem := tc1w.mem ++ [(0x2200, 6#8)], gpr := { tc1w.gpr with rax := 1#64, rdx := 0#64 }
        x87 := { tc1w.x87 with fip := 0x1122334455667788#64, fcs := 0xABCD#16 } })
      = [some 0x88#8, some 0x44#8, some 0x11#8, none, none, none, some 7#8] := by decide +kernel

/-- The reset state run on the two rows of the opcode table: CR4.OSXSAVE = 0, so #UD (70_reset_and_hazards.md R231). -/
theorem test_reset_rows :
    (match step (State.reset.withFetchWord 24 0x0FAE30) with | .fault (.raised x _) => some x | _ => none)
        = some ⟨.ud, none, none⟩
      ∧ (match step (State.reset.withFetchWord 32 0x480FAE30) with | .fault (.raised x _) => some x | _ => none)
        = some ⟨.ud, none, none⟩ := by decide +kernel

end Sys2Proof.Tests
end

section
/-! PROOFS. The round trip from an instruction to its bytes and back (30_encoding.md R118), built from the laws
of Laws/Decode.lean. -/

namespace Sys2Proof

/-- Every instruction is `instrOf` of its own parts, and its bytes are those of its prefixes, the REX byte last among
them, then the opcode and the operand. -/
theorem exists_rexBits (i : Instr) :
    ∃ rex : Option (BitVec 4), rex.isSome = (instrRex i).isSome ∧ i = instrOf (instrPrefixes i) rex (instrMem i)
      ∧ encode i = (instrPrefixes i ++ rex.toList.map Prefix.rex).map prefixByte
        ++ 0x0F#8 :: 0xAE#8 :: encodeMem (instrMem i) := by
  cases i with
  | xsaveopt pfx rex mem =>
    cases rex with
    | none => exact ⟨none, rfl, rfl, by simp [encode, instrPrefixes, instrMem]⟩
    | some r =>
      obtain ⟨v, hb, hw, hr⟩ := rexBits_spec false r
      exact ⟨some v, rfl, by rw [instrOf, hw, hr]; rfl,
        by simp [encode, hb, instrPrefixes, instrMem]⟩
  | xsaveopt64 pfx r mem =>
    obtain ⟨v, hb, hw, hr⟩ := rexBits_spec true r
    exact ⟨some v, rfl, by rw [instrOf, hw, hr]; rfl,
      by simp [encode, hb, instrPrefixes, instrMem]⟩

/-- The checks of a well-formed instruction. -/
theorem wellFormed_iff {cs : CodeSize} {i : Instr} :
    wellFormed cs i = true ↔ (instrPrefixes i).any isMandatoryPrefix = false ∧ groupsOnce (instrPrefixes i) = true
      ∧ rexFits cs i = true ∧ rexStandsLast i = true ∧ memFits (addrSizeOf cs (instrPrefixes i)) (instrMem i) = true
      ∧ instrLength i ≤ 15 := by
  simp [wellFormed, and_assoc]

/-- REX bytes are found among the prefixes of an instruction in 64-bit mode only. -/
theorem eq_c64_of_rexFits {cs : CodeSize} {i : Instr} (h : rexFits cs i = true)
    (hr : (instrRex i).isSome = true ∨ ∃ p ∈ instrPrefixes i, isRexPrefix p = true) : cs = .c64 := by
  simp only [rexFits, Bool.or_eq_true, Bool.and_eq_true, decide_eq_true_eq, Bool.not_eq_true', List.any_eq_false] at h
  rcases h with h | ⟨hnone, hno⟩
  · exact h
  · rcases hr with hr | ⟨p, hp, hr⟩
    · rw [hnone] at hr; cases hr
    · exact absurd hr (hno p hp)

/-- The split finds the REX byte that stands last, and only that one. -/
theorem splitRex_append (pfx : List Prefix) (rex : Option (BitVec 4))
    (h : rex = none → pfx.getLast?.any isRexPrefix = false) :
    splitRex (pfx ++ rex.toList.map Prefix.rex) = (pfx, rex) := by
  cases rex with
  | none => simpa using splitRex_none pfx (h rfl)
  | some v => exact splitRex_rex pfx v

/-- From the ModRM byte on, the bytes of an operand that fits are read back as that operand. -/
theorem decodeModRm_encodeMem {cs : CodeSize} {pfx : List Prefix} {rex : Option (BitVec 4)} {mem : MemOperand}
    (hm : pfx.any isMandatoryPrefix = false) (hg : groupsOnce pfx = true)
    (hf : memFits (addrSizeOf cs pfx) mem = true) (hl : instrLength (instrOf pfx rex mem) ≤ 15) (rest : List Byte) :
    ∃ m t, encodeMem mem ++ rest = m :: t
      ∧ ∀ window, decodeModRm cs pfx rex m t window = .ok (instrOf pfx rex mem, rest) := by
  obtain ⟨mod, rm, ext, he, _, hmod, hd⟩ := memRound _ mem hf rest
  obtain ⟨h6, h3, h0⟩ := modRm_fields mod rm
  refine ⟨modRmByte mod rm, ext ++ rest, by rw [he]; rfl, fun window => ?_⟩
  simp [decodeModRm, h6, h3, h0, hmod, hm, hg, hd, hl]

/-- The bytes of a well-formed instruction are read back as that instruction, whatever follows them. -/
theorem decode_encode_append {cs : CodeSize} {i : Instr} (h : wellFormed cs i = true) (rest : List Byte) :
    decode cs (encode i ++ rest) = .ok (i, rest) := by
  obtain ⟨hm, hg, hfits, hlast, hf, hl⟩ := wellFormed_iff.1 h
  obtain ⟨rex, hsome, hi, he⟩ := exists_rexBits i
  have hpfx : ∀ p ∈ instrPrefixes i ++ rex.toList.map Prefix.rex, isRexPrefix p = true → cs = .c64 := by
    intro p hp hr
    refine eq_c64_of_rexFits hfits ?_
    rcases List.mem_append.1 hp with hp | hp
    · exact .inr ⟨p, hp, hr⟩
    · obtain ⟨v, hv, _⟩ := List.mem_map.1 hp
      exact .inl (by rw [← hsome, Option.mem_toList.1 hv]; rfl)
  have hsplit : splitRex (instrPrefixes i ++ rex.toList.map Prefix.rex) = (instrPrefixes i, rex) := by
    refine splitRex_append _ _ fun hn => ?_
    simpa [rexStandsLast, ← hsome, hn] using hlast
  obtain ⟨m, t, hmt, hd⟩ := decodeModRm_encodeMem hm hg hf (hi ▸ hl) rest
  rw [he, List.append_assoc, List.cons_append, List.cons_append, hmt, decode_of_prefixes cs _ hpfx, hsplit, hd, ← hi]

end Sys2Proof
end

section
/-! PROOFS. One step (00_scope.md R17): fetch, decode, execute; the clean stop; and the invariant of launch states. -/

namespace Sys2Proof.Machine

/-- A step in the code bytes executes what it decodes. -/
theorem step_eq_exec {s : State} {i : Instr} {rest : List Byte} (hin : inCode s 0 = true)
    (hd : decode (codeSizeOf s) (fetchWindow s) = .ok (i, rest)) : step s = exec i s := by
  simp [step, hin, hd]

/-- A byte that is fetched is one of the code bytes. -/
theorem inCode_of_fetchByte {s : State} {j : Nat} {b : Byte} (h : fetchByte s j = some b) : inCode s j = true := by
  unfold fetchByte at h
  split at h
  · assumption
  · cases h

/-- An instruction has a first byte. -/
theorem exists_encode_head (i : Instr) : ∃ b, (encode i)[0]? = some b := by
  have hlen : 0 < (encode i).length := by
    cases i with
    | xsaveopt pfx rex mem =>
      obtain ⟨hl, h3, _⟩ := Laws.EncodedLength.xsaveopt pfx rex mem
      omega
    | xsaveopt64 pfx rex mem =>
      obtain ⟨hl, h3, _⟩ := Laws.EncodedLength.xsaveopt64 pfx rex mem
      omega
  exact ⟨_, List.getElem?_eq_getElem hlen⟩

/-- Where the bytes of a well-formed instruction can be fetched at pc, the window begins with them. -/
theorem fetchWindow_eq_encode_append {s : State} {i : Instr} (hw : wellFormed (codeSizeOf s) i = true)
    (hf : ∀ j b, (encode i)[j]? = some b → fetchByte s j = some b) : ∃ rest, fetchWindow s = encode i ++ rest := by
  obtain ⟨_, _, _, _, _, hl⟩ := wellFormed_iff.1 hw
  refine fetchFrom_append s (encode i) 15 0 (by rwa [encode_length]) fun k b hk => ?_
  rw [Nat.zero_add]
  exact hf k b hk

/-- Just past the code bytes there is no code byte. -/
theorem inCode_past_end {s : State} (h : instrLinear s = s.code.first + s.code.size) : inCode s 0 = false := by
  simp [inCode, inRegion, h]

/-- 10_state.md R23, D25: what it means that pc + L does not wrap. -/
theorem pcWraps_eq_false_iff {i : Instr} {s : State} :
    pcWraps i s = false ↔ s.pc.toNat + instrLength i ≤ pcMax s
      ∧ (s.mode ≠ .bits64 → instrLinear s + instrLength i < 2 ^ 32) := by
  simp [pcWraps, imp_iff_not_or]

/-- What an execution that completes leaves: memory after a commit, and pc + L within `pcMax` (10_state.md R23). -/
theorem exec_next_leave {i : Instr} {s t : State} (h : exec i s = .next t) :
    (∃ ss, t = s.leave (commit s i ss) (pcNext s i)) ∧ (pcNext s i).toNat ≤ pcMax s := by
  obtain ⟨ht, _, _, _, _, ho⟩ := exec_next h
  obtain ⟨_, _, hpc, _, _, _⟩ := operandRefusal_eq_none ho
  refine ⟨⟨_, ht⟩, ?_⟩
  rw [pcNext_toNat hpc (pcMax_lt s)]
  exact (pcWraps_eq_false_iff.1 hpc).1

/-- An execution that completes keeps the invariant of launch states: it commits stores to memory, which keeps the
canonical form, and moves pc within `pcMax`. -/
theorem exec_preserves_launchInv {i : Instr} {s t : State} (hs : LaunchInv s) (h : exec i s = .next t) :
    LaunchInv t := by
  obtain ⟨hmem, hconf, hxcr0, _⟩ := hs
  obtain ⟨⟨ss, rfl⟩, hpc⟩ := exec_next_leave h
  exact ⟨commit_wf hmem i ss, hconf, hxcr0, hpc⟩

end Sys2Proof.Machine

namespace Sys2Proof.Proofs
open Sys2Proof.Machine

/-- Settles O57: a step that completes is an execution, and an execution keeps the invariant. -/
theorem launchInvariantKept : Obligations.LaunchInvariantKept := by
  intro s t hs h
  obtain ⟨i, _, _, hi⟩ := step_next h
  exact exec_preserves_launchInv hs hi

/-- Settles O9: the window begins with the encoding, which the decoder reads back. -/
theorem encodedInstructionRuns : Obligations.EncodedInstructionRuns := by
  intro s i hw hf
  obtain ⟨rest, hwin⟩ := fetchWindow_eq_encode_append hw hf
  obtain ⟨b, hb⟩ := exists_encode_head i
  refine step_eq_exec (rest := rest) (inCode_of_fetchByte (hf 0 b hb)) ?_
  rw [hwin]
  exact decode_encode_append hw rest

/-- Settles O8: the decoder's answer is what a step in the code bytes executes. -/
theorem stepRunsDecoded : Obligations.StepRunsDecoded :=
  fun _ _ _ hin hd _ => step_eq_exec hin hd

/-- Settles O10: pc is not in the code bytes, and outside them the step is the refusal by its place. -/
theorem cleanStopPastTheCode : Obligations.CleanStopPastTheCode := by
  intro s h
  simp [step, inCode_past_end h, outsideRefusal, h]

/-- Settles O58, by evaluating the four parts of the invariant at reset. -/
theorem resetMeetsLaunchInvariant : Obligations.ResetMeetsLaunchInvariant := by
  have hconf : configOk State.reset.conf = true := by decide +kernel
  exact ⟨by decide, hconf, by decide, by decide⟩

end Sys2Proof.Proofs
end

section
/-! PROOFS. The legacy region after an execution that completes: the x87 image in both formats (40_xsaveopt.md R145), the
XMM image (R146), and the fields of the default layout (20_memory.md R64). -/

namespace Sys2Proof.Machine

/-! ### What each image leaves in memory -/

/-- Where x87 state is saved, every byte of its image is in memory (40_xsaveopt.md R145). -/
theorem holdsAt_x87 {i : Instr} {s t : State} (h : exec i s = .next t) (ha : AliasFree i s)
    (hs : (toBeSaved s (laxaOf s i)).getLsbD 0 = true) {o : Nat} (ho : x87Covers s.conf (instrW i) o = true) :
    HoldsAt i s t o (x87Value s.conf (instrW i) s.x87 o) := by
  obtain ⟨_, hc, _⟩ := exec_next h
  have hmem := storePlace_iff.2 (.x87 o hs ((covers_lt hc).1 _ ho) ho)
  exact holdsAt_of_store h ha (List.mem_append_right _ hmem)

/-- Where the XMM registers are saved, every byte of their image that the XMM step stores is in memory
(40_xsaveopt.md R146). -/
theorem holdsAt_xmm {i : Instr} {s t : State} (h : exec i s = .next t) (ha : AliasFree i s)
    (hs : (toBeSaved s (laxaOf s i)).getLsbD 1 = true) {o : Nat} (ho : xmmCovers s.conf o = true)
    (hst : storesXmmByte s o = true) : HoldsAt i s t o (xmmValue s.conf s.mode s.xmm o) := by
  obtain ⟨_, hc, _⟩ := exec_next h
  have hmem := storePlace_iff.2 (.xmm (w := instrW i) o hs ((covers_lt hc).2 ho) ho hst)
  exact holdsAt_of_store h ha (List.mem_append_right _ hmem)

/-- A store of the operation to a byte of the XMM image is one the XMM step makes: no other part has the byte. -/
theorem storesXmmByte_of_mem {w : Bool} {i : Instr} {s : State} (hc : configOk s.conf = true) (hx : xcr0Ok s = true)
    {e : Store} (he : e ∈ operationStores w i s) (ho : xmmCovers s.conf e.1 = true) : storesXmmByte s e.1 = true := by
  obtain ⟨hparts, hmx, hbv⟩ := partCovers_apart hc (w := w) (n := 1) (.inl (by omega)) (by simpa [partCovers] using ho)
  cases storePlace_iff.1 he with
  | x87 o _ _ hcov =>
    have h0 := hparts 0 (.inl (by omega)) (by omega)
    simp [partCovers, hcov] at h0
  | xmm o _ _ _ hst => exact hst
  | mxcsr j _ hj => exact (Bool.eq_false_iff.1 hmx (mxcsrCovers_iff.2 (.inl (by dsimp only; omega)))).elim
  | mask j _ hj => exact (Bool.eq_false_iff.1 hmx (mxcsrCovers_iff.2 (.inr (by dsimp only; omega)))).elim
  | comp c k hm hs hk =>
    obtain ⟨h2, _⟩ := mem_compNumbers.1 hm
    have hcomp := hparts c (.inr (comp_store_place hc hx hm hs).1) (by omega)
    rw [partCovers_comp h2] at hcomp
    exact (Bool.eq_false_iff.1 hcomp (compCovers_iff.2 (by dsimp only; omega))).elim
  | header j hj => exact (Bool.eq_false_iff.1 hbv (xstateBvCovers_iff.2 (by dsimp only; omega))).elim

/-- A byte of the XMM image that the XMM step leaves out keeps its content (40_xsaveopt.md R146, D19). -/
theorem unchangedAt_xmm {i : Instr} {s t : State} (h : exec i s = .next t) (ha : AliasFree i s) {o : Nat}
    (ho : xmmCovers s.conf o = true) (hst : storesXmmByte s o = false) : UnchangedAt i s t o := by
  obtain ⟨_, hc, hx, _⟩ := exec_next h
  have hlt : o < areaSize s := by
    have := (covers_lt hc).2 ho
    have := le_areaSize s
    omega
  refine unchangedAt_of_no_store h ha hlt fun e he heo => ?_
  subst heo
  rcases List.mem_append.1 he with he | he
  · exact Bool.eq_false_iff.1 (reserved_false_of (.inr (.inl ho))) (mem_reservedStores he).1
  · exact Bool.eq_false_iff.1 hst (storesXmmByte_of_mem hc hx he ho)

/-- Each byte of the XMM image is stored, or keeps its content. -/
theorem unchangedAt_or_holdsAt_xmm {i : Instr} {s t : State} (h : exec i s = .next t) (ha : AliasFree i s)
    (hs : (toBeSaved s (laxaOf s i)).getLsbD 1 = true) {o : Nat} (ho : xmmCovers s.conf o = true) :
    UnchangedAt i s t o ∨ HoldsAt i s t o (xmmValue s.conf s.mode s.xmm o) := by
  cases hst : storesXmmByte s o with
  | false => exact .inl (unchangedAt_xmm h ha ho hst)
  | true => exact .inr (holdsAt_xmm h ha hs ho hst)

/-- In 64-bit mode, and for XMM0 to XMM7 in every mode, the XMM step stores the byte. -/
theorem storesXmmByte_of_bits64_or_low {s : State} {o : Nat} (h : s.mode = .bits64 ∨ xmmHighCovers s.conf o = false) :
    storesXmmByte s o = true := by
  rcases h with h | h <;> simp [storesXmmByte, h]

/-! ### The fields of the default layout (20_memory.md R64) -/

/-- Where x87 state is saved in the default format, a run of bytes of the image that are those of one value is a field
with that value. -/
theorem fieldHolds_x87 {i : Instr} {s t : State} (h : exec i s = .next t) (ha : AliasFree i s)
    (hs : (toBeSaved s (laxaOf s i)).getLsbD 0 = true) (hf : s.conf.x87Image = .fxsave) {o n v : Nat}
    (hv : ∀ j < n, fxsaveX87Covers (instrW i) (o + j) = true
      ∧ fxsaveX87Value s.conf (instrW i) s.x87 (o + j) = byteAt v j) : FieldHolds i s t o n v := by
  intro j hj
  obtain ⟨hcov, hval⟩ := hv j hj
  have hb := holdsAt_x87 h ha hs (o := o + j) (by simpa [x87Covers, hf] using hcov)
  simpa [x87Value, hf, hval] using hb

/-- The fields of the default x87 image that are the same without and with REX.W. -/
structure CommonX87Fields (i : Instr) (s t : State) : Prop where
  fcw : FieldHolds i s t 0 2 s.x87.fcw.toNat
  fsw : FieldHolds i s t 2 2 s.x87.fsw.toNat
  tag : ∃ b : Byte, HoldsAt i s t 4 b ∧ ∀ j < 8, b.getLsbD j = decide (s.x87.ftw.extractLsb' (2 * j) 2 ≠ 3#2)
  fop : FieldHolds i s t 6 2 s.x87.fop.toNat
  st : ∀ k : Fin 8, FieldHolds i s t (32 + 16 * k.val) 10 s.x87.st[k].toNat

/-- A byte of ST(k) in the default x87 image. -/
theorem fxsaveX87_st (c : Config) (w : Bool) (x : X87) (k : Fin 8) {j : Nat} (hj : j < 10) :
    fxsaveX87Covers w (32 + 16 * k.val + j) = true
      ∧ fxsaveX87Value c w x (32 + 16 * k.val + j) = byteAt x.st[k].toNat j := by
  have hk := k.isLt
  have hdiv : (32 + 16 * k.val + j - 32) / 16 = k.val := by omega
  have hmod : (32 + 16 * k.val + j - 32) % 16 = j := by omega
  constructor
  · simp only [fxsaveX87Covers, hmod, Bool.or_eq_true, Bool.and_eq_true, decide_eq_true_eq]
    omega
  · have hbig : ∀ n < 32, ¬ 32 + 16 * k.val + j < n := by omega
    have h4 : 32 + 16 * k.val + j ≠ 4 := by omega
    simp [fxsaveX87Value, hbig, h4, hdiv, hmod]

theorem commonX87Fields {i : Instr} {s t : State} (h : exec i s = .next t) (ha : AliasFree i s)
    (hs : (toBeSaved s (laxaOf s i)).getLsbD 0 = true) (hf : s.conf.x87Image = .fxsave) : CommonX87Fields i s t where
  fcw := fieldHolds_x87 h ha hs hf fun j hj => by interval_cases j <;> exact ⟨by cases instrW i <;> rfl, rfl⟩
  fsw := fieldHolds_x87 h ha hs hf fun j hj => by interval_cases j <;> exact ⟨by cases instrW i <;> rfl, rfl⟩
  tag := by
    have hcov : x87Covers s.conf (instrW i) 4 = true := by simp [x87Covers, hf, fxsaveX87Covers]
    have hb := holdsAt_x87 h ha hs hcov
    exact ⟨abridgedTag s.x87.ftw, by simpa [x87Value, hf, fxsaveX87Value] using hb, abridged_bit _⟩
  fop := fieldHolds_x87 h ha hs hf fun j hj => by interval_cases j <;> exact ⟨by cases instrW i <;> rfl, rfl⟩
  st := fun k => fieldHolds_x87 h ha hs hf fun _ hj => fxsaveX87_st _ _ _ k hj

/-- A byte of XMM(k) in the default XMM image, and whether it is one of XMM8 to XMM15. -/
theorem xmm_fxsave {c : Config} (hf : c.xmmImage = .fxsave) (m : Mode) (xmm : Vector (BitVec 128) 16) (k : Fin 16)
    {j : Nat} (hj : j < 16) :
    xmmCovers c (160 + 16 * k.val + j) = true ∧ (k.val < 8 → xmmHighCovers c (160 + 16 * k.val + j) = false)
      ∧ xmmValue c m xmm (160 + 16 * k.val + j) = byteAt xmm[k].toNat j := by
  have hk := k.isLt
  have hdiv : (160 + 16 * k.val + j - 160) / 16 = k.val := by omega
  have hmod : (160 + 16 * k.val + j - 160) % 16 = j := by omega
  refine ⟨?_, fun hlow => ?_, ?_⟩
  · simp only [xmmCovers, hf, Bool.and_eq_true, decide_eq_true_eq]
    omega
  · simp only [xmmHighCovers, hf, Bool.and_eq_false_iff, decide_eq_false_iff_not]
    omega
  · simp [xmmValue, hf, hdiv, hmod]

end Sys2Proof.Machine

namespace Sys2Proof.Proofs
open Sys2Proof.Machine

/-- Settles O26: every byte of the x87 image is stored, and the fields without REX.W are runs of its bytes. -/
theorem xsaveoptStoresX87 : Obligations.XsaveoptStoresX87 := by
  intro pfx rex mem s t h ha hs
  refine ⟨fun o ho => holdsAt_x87 h ha hs ho, fun hf => ?_⟩
  obtain ⟨hfcw, hfsw, htag, hfop, hst⟩ := commonX87Fields h ha hs hf
  refine ⟨hfcw, hfsw, htag, hfop, ?_, ?_, ?_, ?_, hst⟩ <;>
    exact fieldHolds_x87 h ha hs hf fun j hj => by interval_cases j <;> exact ⟨rfl, rfl⟩

/-- Settles O27: the same with REX.W, FIP and FDP in full. -/
theorem xsaveopt64StoresX87 : Obligations.Xsaveopt64StoresX87 := by
  intro pfx rex mem s t h ha hs
  refine ⟨fun o ho => holdsAt_x87 h ha hs ho, fun hf => ?_⟩
  obtain ⟨hfcw, hfsw, htag, hfop, hst⟩ := commonX87Fields h ha hs hf
  refine ⟨hfcw, hfsw, htag, hfop, ?_, ?_, hst⟩ <;>
    exact fieldHolds_x87 h ha hs hf fun j hj => by interval_cases j <;> exact ⟨rfl, rfl⟩

/-- Settles O28: a byte of the XMM image is one the XMM step stores or one no store goes to. -/
theorem xmmStored : Obligations.XmmStored := by
  intro i s t h ha hs
  refine ⟨fun o ho => ⟨fun hm => holdsAt_xmm h ha hs ho (storesXmmByte_of_bits64_or_low hm),
    unchangedAt_or_holdsAt_xmm h ha hs ho⟩, fun hf k => ⟨fun hm j hj => ?_, fun j hj => ?_⟩⟩
  · obtain ⟨hcov, hlow, hval⟩ := xmm_fxsave hf s.mode s.xmm k hj
    rw [← hval]
    exact holdsAt_xmm h ha hs hcov (storesXmmByte_of_bits64_or_low (hm.imp_right hlow))
  · obtain ⟨hcov, _, hval⟩ := xmm_fxsave hf s.mode s.xmm k hj
    rw [← hval]
    exact unchangedAt_or_holdsAt_xmm h ha hs hcov

end Sys2Proof.Proofs
end

section
/-! PROOFS. What is refused (00_scope.md R6, R8, 10_state.md R23, R25, 20_memory.md R74, R78, R80, 60_exceptions.md R183,
R200): what it says of configuration, segment, operand and pc that each check let an execution pass. -/

namespace Sys2Proof.Machine

theorem mem_supportedComps {c : Config} {n : Nat} :
    n ∈ supportedComps c ↔ 2 ≤ n ∧ n ≤ 62 ∧ c.xcr0Supported.getLsbD n = true := by
  simp [supportedComps, mem_compNumbers, and_assoc]

/-- 00_scope.md R8: a supported component of a well-formed configuration starts at 576 or above, and no byte of it is one
of XSTATE_BV or of another. -/
theorem supported_comp_apart {c : Config} (h : configOk c = true) {n : Nat} (hn : n ∈ supportedComps c) :
    576 ≤ compOffset c n ∧ ∀ o, compCovers c n o = true → xstateBvCovers c o = false
      ∧ ∀ m ∈ supportedComps c, m ≠ n → compCovers c m o = false := by
  refine ⟨(configOk_comps h hn).1, fun o ho => ?_⟩
  rw [← partCovers_comp (w := false) (mem_supportedComps.1 hn).1] at ho
  obtain ⟨hparts, _, hbv⟩ := partCovers_apart h (.inr hn) ho
  refine ⟨hbv, fun m hm hne => ?_⟩
  rw [← partCovers_comp (w := false) (mem_supportedComps.1 hm).1]
  exact hparts m (.inr hm) hne

/-- 10_state.md R25, as the check decides it. -/
theorem xcr0Ok_iff {s : State} : xcr0Ok s = true ↔ s.xcr0 &&& ~~~s.conf.xcr0Supported = 0#64 := by
  simp [xcr0Ok]

/-- A bit the processor does not support is 0 in XCR0. -/
theorem xcr0_bit_of_unsupported {s : State} (h : xcr0Ok s = true) {n : Nat} (hn : n < 64)
    (hs : s.conf.xcr0Supported.getLsbD n = false) : s.xcr0.getLsbD n = false := by
  have hbit := congrArg (·.getLsbD n) (xcr0Ok_iff.1 h)
  simpa only [BitVec.getLsbD_and, BitVec.getLsbD_not, hs, hn, decide_true, Bool.not_false, Bool.and_true,
    BitVec.getLsbD_zero] using hbit

/-- In protected, virtual-8086 and compatibility mode a usable segment is neither null nor read-only
(92_eei_decisions.md D23). -/
theorem segment_of_usable {s : State} {n : SegName} (h : segmentUsable s n = true)
    (hm : s.mode = .protectedMode ∨ s.mode = .virtual8086 ∨ s.mode = .compatibility) :
    (segOf s n).isNull = false ∧ (segOf s n).writable = true := by
  rcases hm with hm | hm | hm <;> simp [segmentUsable, hm] at h <;> tauto

/-- In protected and compatibility mode CS is not usable (30_encoding.md R111). -/
theorem ne_cs_of_usable {s : State} {n : SegName} (h : segmentUsable s n = true)
    (hm : s.mode = .protectedMode ∨ s.mode = .compatibility) : n ≠ .cs := by
  rcases hm with hm | hm <;> simp [segmentUsable, hm] at h <;> tauto

/-- 20_memory.md R80: outside real-address mode an operand that does not wrap ends within the largest effective and the
largest linear address. -/
theorem area_end_of_not_wraps {i : Instr} {s : State} (h : operandWraps i s = false) (hr : s.mode ≠ .realAddress) :
    (effectiveAddress s i).toNat + areaSize s ≤ 2 ^ addrBits (addrSizeIn s i)
      ∧ (laxaOf s i).toNat + areaSize s ≤ if s.mode = .bits64 then 2 ^ 64 else 2 ^ 32 := by
  unfold operandWraps at h
  cases hm : s.mode with
  | realAddress => exact absurd hm hr
  | _ => simpa [hm] using h

theorem inRegion_iff {r : Region} {a : Nat} : inRegion r a = true ↔ r.first ≤ a ∧ a < r.first + r.size := by
  simp [inRegion]

theorem mem_extentLinear {i : Instr} {s : State} {k : Nat} (hk : k < areaSize s) : areaLinear s i k ∈ extentLinear i s :=
  List.mem_map_of_mem (List.mem_range.2 hk)

theorem mem_extentLocations {i : Instr} {s : State} {k l : Nat} (hk : k < areaSize s)
    (hl : locationAt s (areaLinear s i k) = some l) : l ∈ extentLocations i s :=
  List.mem_filterMap.2 ⟨_, mem_extentLinear hk, hl⟩

/-- 20_memory.md R74: where the area does not overlap the code, no byte of it lies among the code bytes or shares a
location with one. -/
theorem code_apart {i : Instr} {s : State} (h : overlapsCode i s = false) {k : Nat} (hk : k < areaSize s) :
    ¬(s.code.first ≤ areaLinear s i k ∧ areaLinear s i k < s.code.first + s.code.size)
      ∧ ∀ l, locationAt s (areaLinear s i k) = some l → ∀ j < s.code.size, locationAt s (s.code.first + j) ≠ some l := by
  simp only [overlapsCode, Bool.or_eq_false_iff, List.any_eq_false, List.contains_iff_mem] at h
  obtain ⟨hlin, hloc⟩ := h
  refine ⟨fun hin => hlin _ (mem_extentLinear hk) (inRegion_iff.2 hin), fun l hl j hj hc => ?_⟩
  exact hloc l (List.mem_filterMap.2 ⟨j, List.mem_range.2 hj, hc⟩) (mem_extentLocations hk hl)

/-- 20_memory.md R78: where the area does not overlap memory with side effects, no byte of it has a location there. -/
theorem device_apart {i : Instr} {s : State} (h : overlapsDevice i s = false) {k l : Nat} (hk : k < areaSize s)
    (hl : locationAt s (areaLinear s i k) = some l) {r : Region} (hr : r ∈ s.conf.devices) :
    ¬(r.first ≤ l ∧ l < r.first + r.size) := by
  simp only [overlapsDevice, List.any_eq_false, List.any_eq_true, not_exists, not_and] at h
  exact fun hin => h r hr l (mem_extentLocations hk hl) (inRegion_iff.2 hin)

/-- 60_exceptions.md R200: where no data breakpoint is armed inside the area, no byte of it lies under one. -/
theorem breakpoint_apart {i : Instr} {s : State} (h : overlapsBreakpoint i s = false) {k : Nat} (hk : k < areaSize s)
    {r : Region} (hr : r ∈ s.breakpoints) :
    ¬(r.first ≤ areaLinear s i k ∧ areaLinear s i k < r.first + r.size) := by
  simp only [overlapsBreakpoint, List.any_eq_false, List.any_eq_true, not_exists, not_and] at h
  exact fun hin => h r hr _ (mem_extentLinear hk) (inRegion_iff.2 hin)

end Sys2Proof.Machine

namespace Sys2Proof.Proofs
open Sys2Proof.Machine

/-- Settles O56: an execution that completes passed the checks of `launchRefusal` and of `operandRefusal`, and each clause
is what one of them decides. -/
theorem completesOnlyWhereDefined : Obligations.CompletesOnlyWhereDefined := by
  intro i s t h
  obtain ⟨_, hconf, hx, _, hlaunch, hoperand⟩ := exec_next h
  obtain ⟨_, _, hmode, _, hstep⟩ := launchRefusal_eq_none hlaunch
  obtain ⟨hseg, hwrap, hpc, hcode, hdev, hbp⟩ := operandRefusal_eq_none hoperand
  obtain ⟨_, _, _, _, _, h63⟩ := configOk_fields hconf
  obtain ⟨hpcMax, hpcLinear⟩ := pcWraps_eq_false_iff.1 hpc
  refine ⟨hmode, fun n h2 h62 hn => ?_, xcr0Ok_iff.1 hx, h63, xcr0_bit_of_unsupported hx (by omega) h63, hstep,
    segment_of_usable hseg, ne_cs_of_usable hseg, area_end_of_not_wraps hwrap, hpcMax, hpcLinear, fun k hk => ?_⟩
  · obtain ⟨hoff, hapart⟩ := supported_comp_apart hconf (mem_supportedComps.2 ⟨h2, h62, hn⟩)
    refine ⟨hoff, fun o ho => ?_⟩
    obtain ⟨hbv, hother⟩ := hapart o ho
    exact ⟨hbv, fun m hm2 hm62 hm hne => hother m (mem_supportedComps.2 ⟨hm2, hm62, hm⟩) hne⟩
  · obtain ⟨hlin, hloc⟩ := code_apart hcode hk
    exact ⟨hlin, fun r hr => breakpoint_apart hbp hk hr, fun l hl => ⟨hloc l hl, fun r hr => device_apart hdev hk hl hr⟩⟩

end Sys2Proof.Proofs
end

section
/-! PROOFS. The frame of an execution (10_state.md R41, R42, 20_memory.md R69): what completion and a fault leave of the
state before; and of the general registers and RFLAGS, the little an execution reads (R21, R24, R40). -/

namespace Sys2Proof.Machine

/-! ### What an execution leaves -/

/-- 10_state.md R41: an execution that completes leaves the state before it but for memory, pc and the draw counter. -/
theorem exec_next_eq_leave {i : Instr} {s t : State} (h : exec i s = .next t) : t = s.leave t.mem t.pc := by
  obtain ⟨⟨ss, rfl⟩, _⟩ := exec_next_leave h
  rfl

/-- 40_xsaveopt.md R152, 92_eei_decisions.md D2: completion advances pc by L, without a wrap. -/
theorem exec_next_pc {i : Instr} {s t : State} (h : exec i s = .next t) :
    t.pc.toNat = s.pc.toNat + instrLength i := by
  obtain ⟨rfl, _, _, _, _, ho⟩ := exec_next h
  obtain ⟨_, _, hpc, _⟩ := operandRefusal_eq_none ho
  exact pcNext_toNat hpc (pcMax_lt s)

/-- 20_memory.md R69 (4): completion leaves every byte outside the area, where no store goes. -/
theorem exec_next_outsideUnchanged {i : Instr} {s t : State} (h : exec i s = .next t) : OutsideUnchanged i s t := by
  obtain ⟨rfl, hc, hx, _⟩ := exec_next h
  exact fun l hl => read_commit_other fun e he => hl e.1 (stores_lt_area hc hx he)

/-- 60_exceptions.md R192: a fault leaves the state as it was (#UD and #NM), or but for memory and the draw counter. -/
theorem exec_fault_eq {i : Instr} {s t : State} {x : Exception} (h : exec i s = .fault (.raised x t)) :
    t = s ∨ t = s.leave t.mem s.pc := by
  rw [exec_eq] at h
  obtain ⟨_, ⟨_, _, rfl⟩ | ⟨_, _, _, rfl⟩ | ⟨_, _, _, c, _, hc⟩⟩ := saveCommon_fault h
  · exact .inl rfl
  · exact .inl rfl
  · obtain ⟨y, hy⟩ := raiseCause_eq (instrW i) i s c
    rw [hy] at hc
    cases hc
    split <;> exact .inr rfl

/-! ### The state with other general registers and other flags -/

/-- `s` with other general registers and another RFLAGS. -/
def State.withInputs (s : State) (g : Gprs) (r : Quad) : State := { s with gpr := g, rflags := r }

/-- The registers `g` and the flags `r` agree with those of `s` in all that an execution of `i` reads of them: the
effective address, EDX:EAX (10_state.md R21), the alignment-check enable (R40) and the single-step flag (R200). -/
structure SameInputs (i : Instr) (s : State) (g : Gprs) (r : Quad) : Prop where
  address : effectiveAddress (s.withInputs g r) i = effectiveAddress s i
  mask : instructionMask (s.withInputs g r) = instructionMask s
  alignCheck : r.getLsbD 18 = s.rflags.getLsbD 18
  singleStep : r.getLsbD 8 = s.rflags.getLsbD 8

/-- An outcome with the state it holds, after completion or after a fault, replaced by its image under `f`. -/
def mapState (f : State → State) : Host.Outcome State Fault Refusal → Host.Outcome State Fault Refusal
  | .next t => .next (f t)
  | .fault (.raised x t) => .fault (.raised x (f t))
  | .refused q => .refused q

section
variable {i : Instr} {s : State} {g : Gprs} {r : Quad}

/-! #### Addresses -/

theorem acEnabled_withInputs (h : SameInputs i s g r) : acEnabled (s.withInputs g r) = acEnabled s :=
  congrArg (s.cr0.getLsbD 18 && ·) h.alignCheck

theorem laxaOf_withInputs (h : SameInputs i s g r) : laxaOf (s.withInputs g r) i = laxaOf s i :=
  congrArg (linearAddress s (operandSeg s i)) h.address

theorem areaLinear_withInputs (h : SameInputs i s g r) : areaLinear (s.withInputs g r) i = areaLinear s i :=
  congrArg (byteLinear s (operandSeg s i)) h.address

theorem locate_withInputs (h : SameInputs i s g r) : locate (s.withInputs g r) i = locate s i :=
  congrArg (translate s (operandSeg s i)) h.address

theorem areaByte_withInputs (h : SameInputs i s g r) : areaByte (s.withInputs g r) i = areaByte s i := by
  funext k
  simp only [areaByte, locate_withInputs h]
  rfl

theorem accessFault_withInputs (h : SameInputs i s g r) : accessFault (s.withInputs g r) i = accessFault s i := by
  funext k kind
  simp only [accessFault, locate_withInputs h]

theorem extentLinear_withInputs (h : SameInputs i s g r) : extentLinear i (s.withInputs g r) = extentLinear i s :=
  congrArg ((List.range (areaSize s)).map ·) (areaLinear_withInputs h)

theorem extentLocations_withInputs (h : SameInputs i s g r) :
    extentLocations i (s.withInputs g r) = extentLocations i s :=
  congrArg (List.filterMap (locationAt s)) (extentLinear_withInputs h)

/-! #### Bitmaps and stores -/

theorem rfbm_withInputs (h : SameInputs i s g r) : rfbm (s.withInputs g r) = rfbm s :=
  congrArg (s.xcr0 &&& ·) h.mask

theorem toBeSaved_withInputs (h : SameInputs i s g r) : toBeSaved (s.withInputs g r) = toBeSaved s := by
  funext a
  simp only [toBeSaved, rfbm_withInputs h]
  rfl

theorem newBv_withInputs (h : SameInputs i s g r) : newBv (s.withInputs g r) i = newBv s i := by
  simp only [newBv, oldBv, rfbm_withInputs h, areaByte_withInputs h]
  rfl

theorem operationStores_withInputs (h : SameInputs i s g r) (w : Bool) :
    operationStores w i (s.withInputs g r) = operationStores w i s := by
  simp only [operationStores, laxaOf_withInputs h, toBeSaved_withInputs h, rfbm_withInputs h, newBv_withInputs h]
  rfl

theorem allStores_withInputs (h : SameInputs i s g r) (w : Bool) :
    allStores w i (s.withInputs g r) = allStores w i s := by
  simp only [allStores, reservedStores, operationStores_withInputs h]
  rfl

theorem commit_withInputs (h : SameInputs i s g r) (ss : List Store) :
    commit (s.withInputs g r) i ss = commit s i ss := by
  have hloc : located (s.withInputs g r) i = located s i := by
    funext e
    simp only [located, locate_withInputs h]
  simp only [commit, hloc]
  rfl

theorem completed_withInputs (h : SameInputs i s g r) (w : Bool) :
    completed w i (s.withInputs g r) = (completed w i s).withInputs g r := by
  simp only [completed, allStores_withInputs h, commit_withInputs h]
  rfl

theorem interrupted_withInputs (h : SameInputs i s g r) (w : Bool) :
    interrupted w i (s.withInputs g r) = (interrupted w i s).withInputs g r := by
  simp only [interrupted, allStores_withInputs h, commit_withInputs h]
  rfl

/-! #### Checks -/

theorem launchRefusal_withInputs (h : SameInputs i s g r) :
    launchRefusal i (s.withInputs g r) = launchRefusal i s := by
  have hstep : singleStepping (s.withInputs g r) = singleStepping s := h.singleStep
  simp only [launchRefusal, hstep]
  rfl

theorem operandRefusal_withInputs (h : SameInputs i s g r) :
    operandRefusal i (s.withInputs g r) = operandRefusal i s := by
  have hwrap : operandWraps i (s.withInputs g r) = operandWraps i s := by
    simp only [operandWraps, h.address, laxaOf_withInputs h]
    rfl
  have hcode : overlapsCode i (s.withInputs g r) = overlapsCode i s := by
    simp only [overlapsCode, extentLinear_withInputs h, extentLocations_withInputs h]
    rfl
  have hdev : overlapsDevice i (s.withInputs g r) = overlapsDevice i s := by
    simp only [overlapsDevice, extentLocations_withInputs h]
    rfl
  have hbp : overlapsBreakpoint i (s.withInputs g r) = overlapsBreakpoint i s := by
    simp only [overlapsBreakpoint, extentLinear_withInputs h]
    rfl
  simp only [operandRefusal, hwrap, hcode, hdev, hbp]
  rfl

theorem memCauses_withInputs (h : SameInputs i s g r) (w : Bool) :
    memCauses w i (s.withInputs g r) = memCauses w i s := by
  have htouched : touchedFaults w i (s.withInputs g r) = touchedFaults w i s := by
    simp only [touchedFaults, accessFault_withInputs h, operationStores_withInputs h]
    rfl
  have hextent : extentFaults i (s.withInputs g r) = extentFaults i s := by
    simp only [extentFaults, accessFault_withInputs h]
    rfl
  simp only [memCauses, misaligned, accessCauses, laxaOf_withInputs h, htouched, hextent]
  rfl

/-! #### The execution -/

/-- A memory-operand fault is the same fault, whichever the cause. -/
theorem raiseCause_withInputs (h : SameInputs i s g r) (w : Bool) (c : MemCause) :
    raiseCause w i (s.withInputs g r) c = mapState (·.withInputs g r) (raiseCause w i s c) := by
  cases c with
  | align =>
    simp only [raiseCause, raiseAlign_eq, laxaOf_withInputs h, acEnabled_leave, acEnabled_withInputs h]
    rfl
  | limit =>
    simp only [raiseCause, raiseLimit_eq, interrupted_withInputs h]
    rfl
  | page lin =>
    simp only [raiseCause, interrupted_withInputs h]
    rfl

theorem finishSave_withInputs (h : SameInputs i s g r) (w : Bool) :
    finishSave w i (s.withInputs g r) = mapState (·.withInputs g r) (finishSave w i s) := by
  unfold finishSave
  rw [memCauses_withInputs h]
  cases memCauses w i s with
  | nil => exact congrArg Host.Outcome.next (completed_withInputs h w)
  | cons c cs => exact raiseCause_withInputs h w (reportedCause s c cs)

/-- Where the general registers and flags agree in what `i` reads of them, every check answers the same, and the outcome
is the same with those registers and flags in its state. -/
theorem exec_withInputs (h : SameInputs i s g r) :
    exec i (s.withInputs g r) = mapState (·.withInputs g r) (exec i s) := by
  have hud : undefinedOpcode i (s.withInputs g r) = undefinedOpcode i s := rfl
  have hnm : taskSwitched (s.withInputs g r) = taskSwitched s := rfl
  simp only [exec_eq, saveCommon, launchRefusal_withInputs h, hud, hnm, operandRefusal_withInputs h,
    finishSave_withInputs h]
  cases launchRefusal i s with
  | some q => rfl
  | none =>
    cases undefinedOpcode i s with
    | true => rfl
    | false =>
      cases taskSwitched s with
      | true => rfl
      | false =>
        cases operandRefusal i s with
        | some q => rfl
        | none => rfl

end

/-- RFLAGS enters an execution with its bits 8 and 18 alone. -/
theorem sameInputs_of_flags (i : Instr) {s : State} {r : Quad} (h8 : r.getLsbD 8 = s.rflags.getLsbD 8)
    (h18 : r.getLsbD 18 = s.rflags.getLsbD 18) : SameInputs i s s.gpr r :=
  ⟨rfl, rfl, h18, h8⟩

/-- RAX and RDX enter an execution with their low halves and with the effective address alone. -/
theorem sameInputs_of_low_halves {i : Instr} {s : State} {a d : Quad} (ha : a.setWidth 32 = s.gpr.rax.setWidth 32)
    (hd : d.setWidth 32 = s.gpr.rdx.setWidth 32)
    (hea : effectiveAddress { s with gpr := { s.gpr with rax := a, rdx := d } } i = effectiveAddress s i) :
    SameInputs i s { s.gpr with rax := a, rdx := d } s.rflags where
  address := hea
  mask := by simp only [State.withInputs, instructionMask, ha, hd]
  alignCheck := rfl
  singleStep := rfl

end Sys2Proof.Machine

namespace Sys2Proof.Proofs
open Sys2Proof.Machine

/-- Settles O22: the state after completion is `State.leave` of the state before. -/
theorem registersKept : Obligations.RegistersKept :=
  fun _ _ _ h => exec_next_eq_leave h

/-- Settles O11: a step that completes is an execution that does. -/
theorem stepWritesOnlyMemoryAndPc : Obligations.StepWritesOnlyMemoryAndPc := by
  intro s t h
  obtain ⟨i, _, _, hi⟩ := step_next h
  exact exec_next_eq_leave hi

/-- Settles O24, from the three parts of the frame. -/
theorem completedFrame : Obligations.CompletedFrame :=
  fun _ _ _ h => ⟨exec_next_eq_leave h, exec_next_pc h, exec_next_outsideUnchanged h⟩

/-- Settles O23: no outcome has other flags than the state before, and RFLAGS enters with the two bits alone. -/
theorem flagsNotAffected : Obligations.FlagsNotAffected := by
  intro i s t r h8 h18
  have hmap : exec i { s with rflags := r } = mapState (·.withInputs s.gpr r) (exec i s) :=
    exec_withInputs (sameInputs_of_flags i h8 h18)
  constructor
  · intro h
    rw [hmap, h, exec_next_eq_leave h]
    exact ⟨rfl, rfl, rfl, rfl⟩
  · intro x h
    rw [hmap, h]
    rcases exec_fault_eq h with ht | ht
    · rw [ht]
      exact ⟨rfl, rfl, rfl, rfl⟩
    · rw [ht]
      exact ⟨rfl, rfl, rfl, rfl⟩

/-- Settles O41: with the same low halves and the same effective address, all that an execution reads of RAX and RDX is
the same. -/
theorem upperHalvesIgnored : Obligations.UpperHalvesIgnored := by
  intro i s t a d ha hd hea h
  have hmap := exec_withInputs (sameInputs_of_low_halves ha hd hea)
  rw [h, exec_next_eq_leave h] at hmap
  rw [exec_next_eq_leave h]
  exact hmap

end Sys2Proof.Proofs
end

section
/-! PROOFS. The bytes of the area that a completed execution does not write (20_memory.md R68, R69): a byte outside
every part that is stored keeps its content, and with it the components that are not saved, the software bytes and the
header, and the reserved bytes where the legacy region is left alone. -/

namespace Sys2Proof.Machine

/-- 20_memory.md R68: a byte of the area that no access stores to, of the operation or to a reserved byte, keeps its
content. -/
theorem unchangedAt_of_unstored {i : Instr} {s t : State} (h : exec i s = .next t) (ha : AliasFree i s) {o : Nat}
    (ho : o < areaSize s) (hres : reservedCovers s.conf (instrW i) o = false) (hbv : xstateBvCovers s.conf o = false)
    (hmx : ((rfbm s).getLsbD 1 = true ∨ (rfbm s).getLsbD 2 = true) → mxcsrCovers s.conf o = false)
    (hparts : ∀ n ≤ 62, (toBeSaved s (laxaOf s i)).getLsbD n = true → partCovers s.conf (instrW i) n o = false) :
    UnchangedAt i s t o := by
  refine unchangedAt_of_no_store h ha ho fun e he heo => ?_
  subst heo
  rcases List.mem_append.1 he with he | he
  · exact Bool.eq_false_iff.1 hres (mem_reservedStores he).1
  · rcases store_covers he with ⟨n, hn, hs, hcov⟩ | ⟨hreq, hcov⟩ | hcov
    · exact Bool.eq_false_iff.1 (hparts n hn hs) hcov
    · exact Bool.eq_false_iff.1 (hmx hreq) hcov
    · exact Bool.eq_false_iff.1 hbv hcov

/-- A byte of a part is no reserved byte. -/
theorem not_reserved_of_part {c : Config} (h : configOk c = true) {w : Bool} {n o : Nat} (hn : HasPart c n)
    (hp : partCovers c w n o = true) : reservedCovers c w o = false := by
  rcases partCovers_range h hn hp with ⟨hn2, _⟩ | ⟨_, ho⟩
  · have h01 : n = 0 ∨ n = 1 := by omega
    rcases h01 with rfl | rfl
    · exact reserved_false_of (.inl hp)
    · exact reserved_false_of (.inr (.inl hp))
  · exact reserved_false_of (.inr (.inr (.inr (by omega))))

/-- No part has a byte from 464 to 575, between the images of the legacy region and the extended region. -/
theorem not_part_of_header {c : Config} (h : configOk c = true) {w : Bool} {n o : Nat} (hn : HasPart c n)
    (h1 : 464 ≤ o) (h2 : o < 576) : partCovers c w n o = false := by
  refine Bool.eq_false_iff.2 fun hp => ?_
  have := partCovers_range h hn hp
  omega

/-- The MXCSR fields lie below 464. -/
theorem mxcsrCovers_lt {c : Config} (h : configOk c = true) {o : Nat} (ho : mxcsrCovers c o = true) : o < 464 := by
  obtain ⟨hm, hk, _⟩ := configOk_fields h
  have := mxcsrCovers_iff.1 ho
  omega

/-- Where x87 state is not saved and neither RFBM[1] nor RFBM[2] is set, the operation stores nothing below 512. -/
theorem operation_store_ge_512 {w : Bool} {i : Instr} {s : State} (hc : configOk s.conf = true) (hx : xcr0Ok s = true)
    (h0 : (toBeSaved s (laxaOf s i)).getLsbD 0 = false) (h1 : (rfbm s).getLsbD 1 = false)
    (h2 : (rfbm s).getLsbD 2 = false) {e : Store} (he : e ∈ operationStores w i s) : 512 ≤ e.1 := by
  rcases store_covers he with ⟨n, hn, hs, hcov⟩ | ⟨hreq, _⟩ | hcov
  · have hr := (toBeSaved_le_rfbm hs).1
    have hn0 : n ≠ 0 := by
      rintro rfl
      exact Bool.eq_false_iff.1 h0 hs
    have hn1 : n ≠ 1 := by
      rintro rfl
      exact Bool.eq_false_iff.1 h1 hr
    have := partCovers_range hc (hasPart_of_saved hx hn hr) hcov
    omega
  · exact (hreq.elim (Bool.eq_false_iff.1 h1) (Bool.eq_false_iff.1 h2)).elim
  · obtain ⟨_, _, _, hlow, _⟩ := configOk_fields hc
    have := xstateBvCovers_iff.1 hcov
    omega

/-- 92_eei_decisions.md D32: where the operation stores nothing below 464, it leaves the reserved bytes alone. -/
theorem reservedStores_eq_nil {w : Bool} {i : Instr} {s : State} (h : ∀ e ∈ operationStores w i s, 464 ≤ e.1) :
    reservedStores w i s = [] := by
  refine if_neg fun hany => ?_
  obtain ⟨e, he, hlt⟩ := List.any_eq_true.1 hany
  have := h e he
  have := of_decide_eq_true hlt
  omega

end Sys2Proof.Machine

namespace Sys2Proof.Proofs
open Sys2Proof.Machine

/-- Settles O32: a store goes to a reserved byte, to a part that is saved, to the MXCSR fields, or to XSTATE_BV. -/
theorem unstoredBytesUnchanged : Obligations.UnstoredBytesUnchanged :=
  fun _ _ _ _ h ha ho hres hbv hmx hparts => unchangedAt_of_unstored h ha ho hres hbv hmx hparts

/-- Settles O31: a byte of one part is in no other, is not reserved, and lies in neither the MXCSR fields nor
XSTATE_BV. -/
theorem unsavedComponentsUnchanged : Obligations.UnsavedComponentsUnchanged := by
  intro i s t n o h ha hn hsup hns ho hp
  obtain ⟨_, hc, hx, _⟩ := exec_next h
  have hpart : HasPart s.conf n := by
    by_cases h2 : n < 2
    · exact .inl h2
    · exact .inr (mem_supportedComps.2 ⟨by omega, hn, hsup.resolve_left h2⟩)
  obtain ⟨hother, hmx, hbv⟩ := partCovers_apart hc hpart hp
  refine unchangedAt_of_unstored h ha ho (not_reserved_of_part hc hpart hp) hbv (fun _ => hmx) fun m hm hs => ?_
  have hne : m ≠ n := fun he => by simp [he, hns] at hs
  exact hother m (hasPart_of_saved hx hm (toBeSaved_le_rfbm hs).1) hne

/-- Settles O37: bytes 464 to 575 are in no part, and of the fields XSTATE_BV alone lies among them. -/
theorem softwareBytesKept : Obligations.SoftwareBytesKept := by
  intro i s t o h ha h1 h2 hbv
  obtain ⟨_, hc, hx, _⟩ := exec_next h
  have hA := le_areaSize s
  refine unchangedAt_of_unstored h ha (by omega) (reserved_false_of (.inr (.inr (.inr h1)))) hbv (fun _ => ?_)
    fun n hn hs => not_part_of_header hc (hasPart_of_saved hx hn (toBeSaved_le_rfbm hs).1) h1 h2
  refine Bool.eq_false_iff.2 fun hmx => ?_
  have := mxcsrCovers_lt hc hmx
  omega

/-- Settles O33: every store goes to 512 or above, so the reserved bytes are not stored to either. -/
theorem reservedBytesKept : Obligations.ReservedBytesKept := by
  intro i s t o h ha h0 h1 h2 ho
  obtain ⟨_, hc, hx, _⟩ := exec_next h
  have hge : ∀ e ∈ operationStores (instrW i) i s, 512 ≤ e.1 := fun e he => operation_store_ge_512 hc hx h0 h1 h2 he
  have hres : reservedStores (instrW i) i s = [] := reservedStores_eq_nil fun e he => by
    have := hge e he
    omega
  have hA := le_areaSize s
  refine unchangedAt_of_no_store h ha (by omega) fun e he heo => ?_
  rw [allStores, hres, List.nil_append] at he
  have := hge e he
  omega

end Sys2Proof.Proofs
end

section
/-! PROOFS. Executing again from the same pc (20_memory.md R68, R79): the state after a completed execution with pc put
back makes, in 64-bit mode, the same stores, XSTATE_BV among them. -/

namespace Sys2Proof.Machine

/-- 40_xsaveopt.md R142: where every byte of XSTATE_BV can be written and the field holds `v`, OLD_BV is `v`. -/
theorem oldBv_of_header {i : Instr} {s : State} {v : Quad}
    (h : ∀ j < 8, ∃ l, locate s i (s.conf.xstateBvOffset + j) .write = .ok l ∧ s.mem.read l = byteAt v.toNat j) :
    oldBv s i = v := by
  refine BitVec.eq_of_getLsbD_eq fun n hn => ?_
  obtain ⟨l, hl, hv⟩ := h (n / 8) (by omega)
  rw [oldBv_bit hn, areaByte_of_write hl, hv, byteAt_bit]

/-- After completion the XSTATE_BV field holds the value of 40_xsaveopt.md R149. -/
theorem header_after {i : Instr} {s t : State} (h : exec i s = .next t) (ha : AliasFree i s) {j : Nat} (hj : j < 8) :
    ∃ l, locate s i (s.conf.xstateBvOffset + j) .write = .ok l ∧ t.mem.read l = byteAt (newBv s i).toNat j := by
  obtain ⟨_, _, _, hm, _⟩ := exec_next h
  have hmem := storePlace_iff.2 (.header (w := instrW i) (i := i) (s := s) j hj)
  obtain ⟨l, hl⟩ := stores_located hm hmem
  exact ⟨l, hl, holdsAt_of_store h ha (List.mem_append_right _ hmem) l hl⟩

/-- 40_xsaveopt.md R149 is idempotent: with the value it wrote as OLD_BV it gives that value again. -/
theorem newBv_restart {i : Instr} {s t : State} (h : exec i s = .next t) (ha : AliasFree i s) :
    newBv (s.leave t.mem s.pc) i = newBv s i := by
  have hold : oldBv (s.leave t.mem s.pc) i = newBv s i := oldBv_of_header fun j hj => header_after h ha hj
  refine BitVec.eq_of_getLsbD_eq fun n hn => ?_
  rw [newBv_bit hn, hold, rfbm_leave, leave_xinuse]
  split
  · rename_i hr
    rw [newBv_bit hn, if_pos hr]
  · rfl

/-- In 64-bit mode the XMM step draws no free value (40_xsaveopt.md R146). -/
theorem xmmStores_restart {s : State} (hm : s.mode = .bits64) (m : Memory) :
    xmmStores (s.leave m s.pc) = xmmStores s := by
  have hall : storesXmmByte (s.leave m s.pc) = storesXmmByte s := by
    funext o
    rw [storesXmmByte_of_bits64_or_low (.inl hm), storesXmmByte_of_bits64_or_low (s := s.leave m s.pc) (.inl hm)]
  simp only [xmmStores, hall]
  rfl

/-- In 64-bit mode the operation makes the same stores again: with pc put back the operand has its address, and so every
byte of the area its location, by definition; what could differ is the XMM step's draw and OLD_BV. -/
theorem operationStores_restart {i : Instr} {s t : State} (hm : s.mode = .bits64) (h : exec i s = .next t)
    (ha : AliasFree i s) (w : Bool) : operationStores w i (s.leave t.mem s.pc) = operationStores w i s := by
  simp only [operationStores, newBv_restart h ha, xmmStores_restart hm]
  rfl

/-- A byte of the area that is not reserved holds what the operation stored there, or keeps its content. -/
theorem holdsAt_or_unchangedAt {i : Instr} {s t : State} (h : exec i s = .next t) (ha : AliasFree i s) {o : Nat}
    (ho : o < areaSize s) (hres : reservedCovers s.conf (instrW i) o = false) :
    (∃ b, (o, b) ∈ operationStores (instrW i) i s ∧ HoldsAt i s t o b)
      ∨ UnchangedAt i s t o := by
  by_cases hst : ∃ b, (o, b) ∈ operationStores (instrW i) i s
  · obtain ⟨b, hb⟩ := hst
    exact .inl ⟨b, hb, holdsAt_of_store h ha (List.mem_append_right _ hb)⟩
  · rw [not_exists] at hst
    refine .inr (unchangedAt_of_no_store h ha ho fun e he heo => ?_)
    subst heo
    rcases List.mem_append.1 he with he | he
    · exact Bool.eq_false_iff.1 hres (mem_reservedStores he).1
    · exact hst e.2 he

end Sys2Proof.Machine

namespace Sys2Proof.Proofs
open Sys2Proof.Machine

/-- Settles O43: a byte the second execution stores is one the first stored, with the same value. -/
theorem repeatWritesTheSame : Obligations.RepeatWritesTheSame := by
  intro i s t u hm h ha hu o ho hres l hl
  have hback : { t with pc := s.pc } = s.leave t.mem s.pc := by rw [exec_next_eq_leave h]; rfl
  rw [hback] at hu
  have hstores := operationStores_restart hm h ha (instrW i)
  rcases holdsAt_or_unchangedAt hu ha ho hres with ⟨b, hb, hholds⟩ | hkept
  · rw [hstores] at hb
    rw [hholds l hl, holdsAt_of_store h ha (List.mem_append_right _ hb) l hl]
  · exact hkept l hl

end Sys2Proof.Proofs
end

section
/-! PROOFS. The memory-operand faults (20_memory.md R67, R76, R79, 60_exceptions.md R183 to R192): which operands let an
execution complete, which fault an accepted and enabled one raises, and the state it leaves. -/

namespace Sys2Proof.Machine

/-! ### What a fault is and leaves -/

/-- Raising a memory-operand fault: the alignment fault is #GP or #AC and leaves memory as it was; any other is #GP, #SS
or #PF and leaves the stores that landed (20_memory.md R79). -/
theorem raiseCause_fault {w : Bool} {i : Instr} {s t : State} {c : MemCause} {x : Exception}
    (h : raiseCause w i s c = .fault (.raised x t)) :
    (t = s.leave s.mem s.pc ∧ (x.kind = .gp ∨ x.kind = .ac))
      ∨ (t = interrupted w i s ∧ (x.kind = .gp ∨ x.kind = .ss ∨ x.kind = .pf)) := by
  cases c with
  | align =>
    rw [raiseCause, raiseAlign_eq] at h
    cases h
    refine .inl ⟨rfl, ?_⟩
    split <;> [skip; split] <;> simp
  | limit =>
    rw [raiseCause, raiseLimit_eq] at h
    cases h
    refine .inr ⟨rfl, ?_⟩
    split <;> [skip; split] <;> simp
  | page lin =>
    cases h
    exact .inr ⟨rfl, .inr (.inr rfl)⟩

/-- 20_memory.md R79: each byte of an interrupted execution's memory is the old one or one it would have written. -/
theorem read_interrupted (w : Bool) (i : Instr) (s : State) (l : Nat) :
    (interrupted w i s).mem.read l = s.mem.read l
      ∨ ∃ e ∈ allStores w i s, locate s i e.1 .write = .ok l ∧ (interrupted w i s).mem.read l = e.2 := by
  rcases read_commit_cases s i ((allStores w i s).filter fun e => Config.freeLanded s.draws e.1) l with
    h | ⟨e, he, hl, hv⟩
  · exact .inl h
  · exact .inr ⟨e, (List.mem_filter.1 he).1, hl, hv⟩

/-- The memory after a fault is the old one, or, after #GP, #SS or #PF, that of an interrupted execution. -/
theorem exec_fault_mem {i : Instr} {s t : State} {x : Exception} (h : exec i s = .fault (.raised x t)) :
    t.mem = s.mem
      ∨ t.mem = (interrupted (instrW i) i s).mem ∧ (x.kind = .gp ∨ x.kind = .ss ∨ x.kind = .pf) := by
  rw [exec_eq] at h
  obtain ⟨_, ⟨_, _, rfl⟩ | ⟨_, _, _, rfl⟩ | ⟨_, _, _, c, _, hc⟩⟩ := saveCommon_fault h
  · exact .inl rfl
  · exact .inl rfl
  · rcases raiseCause_fault hc with ⟨rfl, _⟩ | ⟨rfl, hk⟩
    · exact .inl rfl
    · exact .inr ⟨rfl, hk⟩

/-! ### Which operands complete -/

/-- Where a byte that is stored cannot be written, no execution completes (20_memory.md R76 case 1). -/
theorem exec_ne_next_of_store_fault {i : Instr} {s : State} {e : Store} (he : e ∈ operationStores (instrW i) i s)
    (hf : accessFault s i e.1 .write ≠ none) (t : State) : exec i s ≠ .next t := by
  intro h
  obtain ⟨_, _, _, hm, _⟩ := exec_next h
  exact hf (accessFault_eq_none.2 (stores_located hm he))

/-- What is accepted and enabled faults where it does not complete. -/
theorem exec_fault_of_not_completes {i : Instr} {s : State} (ha : Accepted i s) (he : Enabled i s)
    (hn : ∀ t, exec i s ≠ .next t) :
    ∃ c ∈ memCauses (instrW i) i s, ∃ x t, exec i s = .fault (.raised x t)
      ∧ raiseCause (instrW i) i s c = .fault (.raised x t) := by
  rcases exec_of_enabled ha he with ⟨_, hx⟩ | ⟨c, cs, hm, hx⟩
  · exact absurd hx (hn _)
  · obtain ⟨x, hr⟩ := raiseCause_eq (instrW i) i s (reportedCause s c cs)
    exact ⟨_, hm ▸ reportedCause_mem s c cs, x, _, hx.trans hr, hr⟩

/-- 20_memory.md R76: of an aligned operand, a cause that applies raises the fault of a byte of the area. -/
theorem reportsByte_of_aligned {i : Instr} {s t : State} {x : Exception} {c : MemCause} (ha : Accepted i s)
    (hal : (laxaOf s i).toNat % 64 = 0) (hc : c ∈ memCauses (instrW i) i s)
    (hr : raiseCause (instrW i) i s c = .fault (.raised x t)) : ∃ k < areaSize s, ReportsByte i s x k := by
  obtain ⟨_, hconf, _, hxcr0, _⟩ := launchRefusal_eq_none ha.1
  rcases memCauses_cases hconf hxcr0 hc with ⟨_, hmis⟩ | ⟨f, rfl, k, hk, kind, hf⟩
  · exact absurd hal (misaligned_iff.1 hmis)
  · obtain ⟨y, hy, hrep⟩ := reportsByte_of_cause (w := instrW i) hf
    rw [hy] at hr
    cases hr
    exact ⟨k, hk, hrep⟩

/-- Of an aligned operand, no misalignment is among the causes. -/
theorem memCauses_of_aligned {w : Bool} {i : Instr} {s : State} (hal : (laxaOf s i).toNat % 64 = 0) :
    memCauses w i s = accessCauses w i s := by
  have hmis : misaligned i s = false := Bool.eq_false_iff.2 fun h => misaligned_iff.1 h hal
  simp [memCauses, hmis]

/-- With CheckExtent = touchedOnly, an aligned operand whose touched bytes are accessible has no cause to fault. -/
theorem memCauses_of_touchedOnly {i : Instr} {s : State} (hce : s.conf.checkExtent = .touchedOnly)
    (hal : (laxaOf s i).toNat % 64 = 0) (ht : TouchedAccessible i s) : memCauses (instrW i) i s = [] := by
  rw [memCauses_of_aligned hal, accessCauses_of_touched ht]
  simp [extentChecked, hce]

end Sys2Proof.Machine

namespace Sys2Proof.Proofs
open Sys2Proof.Machine

/-- Settles O46: an execution that completes has no memory-operand fault, the misalignment among them. -/
theorem misalignedNeverCompletes : Obligations.MisalignedNeverCompletes := by
  intro i s t hmis h
  obtain ⟨_, _, _, hm, _⟩ := exec_next h
  exact Bool.eq_false_iff.1 (memCauses_eq_nil hm).1 (misaligned_iff.2 hmis)

/-- Settles O51: the bytes of XSTATE_BV are stored by every execution, and where one does not complete that is accepted
and enabled, it raises a memory-operand fault. -/
theorem touchedBytesMustBeWritable : Obligations.TouchedBytesMustBeWritable := by
  refine ⟨fun i s t j hj hf => exec_ne_next_of_store_fault (storePlace_iff.2 (.header j hj)) hf t,
    fun i s e he hf => ⟨exec_ne_next_of_store_fault he hf, fun ha hen => ?_⟩⟩
  obtain ⟨c, _, x, t, hx, hr⟩ := exec_fault_of_not_completes ha hen (exec_ne_next_of_store_fault he hf)
  refine ⟨x, t, hx, ?_⟩
  rcases raiseCause_fault hr with ⟨_, hk⟩ | ⟨_, hk⟩ <;> tauto

/-- Settles O52: touchedOnly leaves no cause to fault, wholeExtent gives one, and of an aligned operand every cause is
that of a byte of the area. -/
theorem checkExtentDecides : Obligations.CheckExtentDecides := by
  intro i s ha he
  refine ⟨fun hce hal ht => ?_, fun hce ⟨k, hk, hf⟩ => ?_, fun hal => ?_⟩
  · rcases exec_of_enabled ha he with ⟨_, hx⟩ | ⟨c, cs, hm, _⟩
    · exact ⟨_, hx⟩
    · rw [memCauses_of_touchedOnly hce hal ht] at hm
      cases hm
  · have hn : ∀ t, exec i s ≠ .next t := fun t h => by
      obtain ⟨_, _, _, hm, _⟩ := exec_next h
      exact accessCauses_of_wholeExtent hce hk hf (List.append_eq_nil_iff.1 hm).2
    obtain ⟨c, hc, x, t, hx, hr⟩ := exec_fault_of_not_completes ha he hn
    exact ⟨x, t, hx, fun hal => reportsByte_of_aligned ha hal hc hr⟩
  · by_cases hn : ∃ t, exec i s = .next t
    · exact .inl hn
    · obtain ⟨c, hc, x, t, hx, hr⟩ := exec_fault_of_not_completes ha he (not_exists.1 hn)
      exact .inr ⟨x, t, hx, reportsByte_of_aligned ha hal hc hr⟩

/-- Settles O55: memory after a fault is the old one, as after #UD, #NM and #AC, or that of an interrupted execution. -/
theorem faultLeavesRegisters : Obligations.FaultLeavesRegisters := by
  intro i s t x h
  refine ⟨exec_fault_eq h, ?_⟩
  rcases exec_fault_mem h with hm | ⟨hm, hk⟩
  · exact ⟨fun _ => hm, fun l => .inl (by rw [hm])⟩
  · refine ⟨fun hk' => ?_, fun l => by rw [hm]; exact read_interrupted _ _ _ l⟩
    rcases hk with hk | hk | hk <;> simp [hk] at hk'

end Sys2Proof.Proofs
end

section
/-! PROOFS. The decoder (30_encoding.md R100 to R119): what it accepts is what `instrOf` builds from the parts it took
apart, whose encoding is the bytes it read; and the prefixes and ModRM bytes that it never accepts. -/

namespace Sys2Proof

/-! ### The parts of what `instrOf` builds -/

theorem instrOf_rexW {v : BitVec 4} (hw : v.getLsbD 3 = true) (pfx : List Prefix) (mem : MemOperand) :
    instrOf pfx (some v) mem = .xsaveopt64 pfx (rexOfBits v) mem := if_pos hw

theorem instrOf_rex {v : BitVec 4} (hw : v.getLsbD 3 = false) (pfx : List Prefix) (mem : MemOperand) :
    instrOf pfx (some v) mem = .xsaveopt pfx (some (rexOfBits v)) mem := if_neg (Bool.eq_false_iff.1 hw)

@[simp] theorem instrPrefixes_instrOf (pfx : List Prefix) (rex : Option (BitVec 4)) (mem : MemOperand) :
    instrPrefixes (instrOf pfx rex mem) = pfx := by
  unfold instrOf
  split <;> [skip; split] <;> rfl

@[simp] theorem instrMem_instrOf (pfx : List Prefix) (rex : Option (BitVec 4)) (mem : MemOperand) :
    instrMem (instrOf pfx rex mem) = mem := by
  unfold instrOf
  split <;> [skip; split] <;> rfl

@[simp] theorem instrRex_instrOf (pfx : List Prefix) (rex : Option (BitVec 4)) (mem : MemOperand) :
    instrRex (instrOf pfx rex mem) = rex.map rexOfBits := by
  unfold instrOf
  split <;> [skip; split] <;> rfl

/-- R118 step 7: the REX byte before the opcode and its bit W choose the instruction. -/
@[simp] theorem instrW_instrOf (pfx : List Prefix) (rex : Option (BitVec 4)) (mem : MemOperand) :
    instrW (instrOf pfx rex mem) = rex.any (·.getLsbD 3) := by
  cases rex with
  | none => rfl
  | some v =>
    cases hw : v.getLsbD 3 with
    | false => rw [instrOf_rex hw]; exact hw.symm
    | true => rw [instrOf_rexW hw]; exact hw.symm

theorem encode_instrOf (pfx : List Prefix) (rex : Option (BitVec 4)) (mem : MemOperand) :
    encode (instrOf pfx rex mem)
      = (pfx ++ rex.toList.map Prefix.rex).map prefixByte ++ 0x0F#8 :: 0xAE#8 :: encodeMem mem := by
  cases rex with
  | none => simp [instrOf, encode]
  | some v =>
    have hv := prefixByte_rex v
    cases hw : v.getLsbD 3 with
    | false => rw [hw] at hv; simp [instrOf_rex hw, encode, hv]
    | true => rw [hw] at hv; simp [instrOf_rexW hw, encode, hv]

/-! ### What is accepted -/

/-- The split only takes a REX byte off the end of the prefixes. -/
theorem splitRex_join (ps : List Prefix) : (splitRex ps).1 ++ (splitRex ps).2.toList.map Prefix.rex = ps := by
  rcases splitRex_spec ps with ⟨v, hv, hps⟩ | ⟨hn, hps, _⟩
  · simpa [hv] using hps.symm
  · simp [hn, hps]

/-- What is accepted, by the prefixes `ps` taken and the bytes `t` left: 0F AE, a ModRM byte with reg = 6 and mod other
than 11, an operand that fits the address size, and prefixes of no group twice and none that `NP` forbids. -/
structure AcceptsFrom (cs : CodeSize) (ps : List Prefix) (t : List Byte) (i : Instr) (rest : List Byte) : Prop where
  opcode : ∃ m u, t = 0x0F#8 :: 0xAE#8 :: m :: u ∧ m.extractLsb' 3 3 = 6#3 ∧ m.extractLsb' 6 2 ≠ 3#2
  bytes : t = 0x0F#8 :: 0xAE#8 :: encodeMem (instrMem i) ++ rest
  parts : i = instrOf (splitRex ps).1 (splitRex ps).2 (instrMem i)
  notMandatory : (splitRex ps).1.any isMandatoryPrefix = false
  groups : groupsOnce (splitRex ps).1 = true
  fits : memFits (addrSizeOf cs (splitRex ps).1) (instrMem i) = true
  short : instrLength i ≤ 15

theorem decode_acceptsFrom {cs : CodeSize} {bs t : List Byte} {ps : List Prefix} {i : Instr} {rest : List Byte}
    (hp : takePrefixes cs bs = (ps, t)) (h : decode cs bs = .ok (i, rest)) : AcceptsFrom cs ps t i rest := by
  obtain ⟨m, u, ht, hm⟩ := decode_ok h
  rw [hp] at ht hm
  dsimp only at ht hm
  obtain ⟨hreg, hmod, hnp, hg, mem, hmem, hi, hl⟩ := decodeModRm_ok hm
  obtain ⟨hf, he⟩ := decodeMem_spec hmod hmem
  rw [← modRm_of_fields m hreg] at he
  have himem : instrMem i = mem := by rw [hi, instrMem_instrOf]
  subst himem
  exact ⟨⟨m, u, ht, hreg, hmod⟩, by rw [ht, he]; rfl, hi, hnp, hg, hf, hl⟩

/-- Two bytes of opcode and a ModRM byte are the least an instruction has. -/
theorem three_le_instrLength (i : Instr) : 3 ≤ instrLength i := by
  cases i with
  | xsaveopt pfx rex mem => exact le_trans (by omega) (Laws.EncodedLength.xsaveopt pfx rex mem).2.1
  | xsaveopt64 pfx rex mem => exact le_trans (by omega) (Laws.EncodedLength.xsaveopt64 pfx rex mem).2.1

/-- REX bytes taken in 64-bit mode only are REX bytes that fit the code size. -/
theorem rexFits_splitRex {cs : CodeSize} {ps : List Prefix} (hrex : ∀ p ∈ ps, isRexPrefix p = true → cs = .c64)
    (mem : MemOperand) : rexFits cs (instrOf (splitRex ps).1 (splitRex ps).2 mem) = true := by
  by_cases hc : cs = .c64
  · simp [rexFits, hc]
  rcases splitRex_spec ps with ⟨v, _, hps⟩ | ⟨hn, hps, _⟩
  · exact absurd (hrex (.rex v) (by rw [hps]; simp) rfl) hc
  · have hno : ∀ p ∈ ps, isRexPrefix p = false := fun p hp => Bool.eq_false_iff.2 fun hr => hc (hrex p hp hr)
    simpa [rexFits, hn, hps] using .inr hno

/-- The split leaves no REX byte last without taking it. -/
theorem rexStandsLast_splitRex (ps : List Prefix) (mem : MemOperand) :
    rexStandsLast (instrOf (splitRex ps).1 (splitRex ps).2 mem) = true := by
  rcases splitRex_spec ps with ⟨v, hv, _⟩ | ⟨_, hps, hlast⟩
  · simp [rexStandsLast, hv]
  · simp [rexStandsLast, hps, hlast]

/-- What is accepted, after prefixes with REX bytes in 64-bit mode only, is well formed. -/
theorem AcceptsFrom.wellFormed {cs : CodeSize} {ps : List Prefix} {t : List Byte} {i : Instr} {rest : List Byte}
    (h : AcceptsFrom cs ps t i rest) (hrex : ∀ p ∈ ps, isRexPrefix p = true → cs = .c64) :
    wellFormed cs i = true := by
  obtain ⟨_, _, hi, hnp, hg, hf, hl⟩ := h
  have hpfx : instrPrefixes i = (splitRex ps).1 := by rw [hi, instrPrefixes_instrOf]
  have hfits : rexFits cs i = true := hi ▸ rexFits_splitRex hrex _
  have hlast : rexStandsLast i = true := hi ▸ rexStandsLast_splitRex ps _
  exact wellFormed_iff.2 ⟨by rwa [hpfx], by rwa [hpfx], hfits, hlast, by rwa [hpfx], hl⟩

/-- What is accepted is encoded by the bytes of the prefixes taken and those left. -/
theorem AcceptsFrom.encode_append {cs : CodeSize} {ps : List Prefix} {t : List Byte} {i : Instr} {rest : List Byte}
    (h : AcceptsFrom cs ps t i rest) : encode i ++ rest = ps.map prefixByte ++ t := by
  rw [h.parts, encode_instrOf, splitRex_join, h.bytes]
  simp

/-- The decoder accepts well-formed instructions only, and consumes their encoding. -/
theorem decode_ok_spec {cs : CodeSize} {bs : List Byte} {i : Instr} {rest : List Byte}
    (h : decode cs bs = .ok (i, rest)) : wellFormed cs i = true ∧ bs = encode i ++ rest := by
  obtain ⟨hbs, hrex, _⟩ := takePrefixes_spec cs bs
  have ha := decode_acceptsFrom rfl h
  exact ⟨ha.wellFormed hrex, hbs.trans ha.encode_append.symm⟩

/-! ### The prefixes in front -/

/-- A byte that is not 40H to 4FH is no REX byte in any mode. -/
theorem isRexPrefix_eq_false {cs : CodeSize} {b : Byte} {p : Prefix} (hp : prefixOf cs b = some p)
    (hb : b.extractLsb' 4 4 ≠ 4#4) : isRexPrefix p = false := by
  obtain ⟨rfl, _⟩ := prefixOf_eq_some hp
  cases p with
  | rex v => exact absurd (rexNibble v).1 hb
  | _ => rfl

/-- Outside 64-bit mode a byte 40H to 4FH is none of the prefixes (30_encoding.md R116). -/
theorem prefixOf_rexByte_eq_none {cs : CodeSize} {b : Byte} (hc : cs ≠ .c64) (hb : b.extractLsb' 4 4 = 4#4) :
    prefixOf cs b = none := by
  cases h : prefixOf cs b with
  | none => rfl
  | some p =>
    obtain ⟨rfl, hrex⟩ := prefixOf_eq_some h
    cases p with
    | rex v => exact absurd (hrex rfl) hc
    | seg n => cases n <;> exact absurd hb (by decide)
    | _ => exact absurd hb (by decide)

/-- The first byte that is none of the prefixes ends them. -/
theorem takePrefixes_stop {cs : CodeSize} {pre : List Byte} (h : ∀ b ∈ pre, (prefixOf cs b).isSome = true) {b : Byte}
    (hb : prefixOf cs b = none) (t : List Byte) : ∃ ps, takePrefixes cs (pre ++ b :: t) = (ps, b :: t) := by
  obtain ⟨ps, _, hp⟩ := takePrefixes_isSome_append cs pre (b :: t) h
  exact ⟨ps, by simpa [takePrefixes, hb] using hp⟩

/-- The byte before the opcode stands last among the prefixes. -/
theorem takePrefixes_last {cs : CodeSize} {pre : List Byte} (h : ∀ b ∈ pre, (prefixOf cs b).isSome = true) {b : Byte}
    {p : Prefix} (hb : prefixOf cs b = some p) (t : List Byte) :
    ∃ ps, takePrefixes cs (pre ++ b :: 0x0F#8 :: t) = (ps ++ [p], 0x0F#8 :: t) := by
  obtain ⟨ps, _, hp⟩ := takePrefixes_isSome_append cs pre (b :: 0x0F#8 :: t) h
  exact ⟨ps, by simpa [takePrefixes, hb, prefixOf_opcode] using hp⟩

/-- What stands after bytes of prefixes and is one itself is among the prefixes taken. -/
theorem takePrefixes_mem {cs : CodeSize} {pre : List Byte} (h : ∀ b ∈ pre, (prefixOf cs b).isSome = true) {b : Byte}
    {p : Prefix} (hb : prefixOf cs b = some p) (t : List Byte) : p ∈ (takePrefixes cs (pre ++ b :: t)).1 := by
  obtain ⟨ps, _, hp⟩ := takePrefixes_isSome_append cs pre (b :: t) h
  simp [hp, takePrefixes, hb]

/-- None of the prefixes taken of what is accepted is one that `NP` forbids: the REX byte split off is none either. -/
theorem AcceptsFrom.not_mandatory {cs : CodeSize} {ps : List Prefix} {t : List Byte} {i : Instr} {rest : List Byte}
    (h : AcceptsFrom cs ps t i rest) {p : Prefix} (hp : p ∈ ps) : isMandatoryPrefix p = false := by
  rw [← splitRex_join ps] at hp
  rcases List.mem_append.1 hp with hp | hp
  · exact Bool.eq_false_iff.2 (List.any_eq_false.1 h.notMandatory p hp)
  · obtain ⟨v, _, rfl⟩ := List.mem_map.1 hp
    rfl

/-- 66H, F2H and F3H are prefixes that `NP` forbids, in code of every size (30_encoding.md R102). -/
theorem prefixOf_mandatory (cs : CodeSize) {b : Byte} (hb : b = 0x66#8 ∨ b = 0xF2#8 ∨ b = 0xF3#8) :
    ∃ p, prefixOf cs b = some p ∧ isMandatoryPrefix p = true := by
  rcases hb with rfl | rfl | rfl
  · exact ⟨.opSize, rfl, rfl⟩
  · exact ⟨.repne, rfl, rfl⟩
  · exact ⟨.rep, rfl, rfl⟩

/-- A first byte after the prefixes that is not 0FH is not the opcode (R118 step 3). -/
theorem decode_notTheOpcode {cs : CodeSize} {bs t : List Byte} {ps : List Prefix} {b : Byte}
    (hp : takePrefixes cs bs = (ps, b :: t)) (hb : b ≠ 0x0F#8) : decode cs bs = .error .notTheOpcode := by
  simp [decode, hp, hb]

end Sys2Proof

namespace Sys2Proof.Proofs

/-- Settles O2, by the round trip of each part of the encoding. -/
theorem decodeOfEncode : Obligations.DecodeOfEncode :=
  fun _ _ rest h => decode_encode_append h rest

/-- Settles O3: what is accepted passed every check of `wellFormed`, and its bytes are those the decoder took. -/
theorem encodeOfDecode : Obligations.EncodeOfDecode := by
  intro cs bs i rest h
  obtain ⟨hw, hbs⟩ := decode_ok_spec h
  obtain ⟨_, _, _, _, _, hl⟩ := wellFormed_iff.1 hw
  exact ⟨hw, hbs, encode_length i, three_le_instrLength i, hl⟩

/-- Settles O4: 66H, F2H or F3H is among the prefixes taken, and nothing accepted has one there. -/
theorem mandatoryPrefixRefused : Obligations.MandatoryPrefixRefused := by
  intro cs pre post b hpre hb ⟨i, rest⟩ h
  obtain ⟨p, hp, hm⟩ := prefixOf_mandatory cs hb
  exact Bool.eq_false_iff.1 ((decode_acceptsFrom rfl h).not_mandatory (takePrefixes_mem hpre hp post)) hm

/-- Settles O5: the ModRM byte of what is accepted has reg = 6 and mod other than 11. -/
theorem neighboursRefused : Obligations.NeighboursRefused := by
  intro cs pre post m hpre hm ⟨i, rest⟩ h
  obtain ⟨ps, hp⟩ := takePrefixes_stop hpre (prefixOf_opcode cs) (0xAE#8 :: m :: post)
  obtain ⟨_, _, ht, hreg, hmod⟩ := (decode_acceptsFrom hp h).opcode
  cases ht
  rcases hm with hm | hm
  · exact hm hreg
  · exact hmod hm

/-- Settles O6: outside 64-bit mode a byte 40H to 4FH is none of the prefixes and not the opcode, and a REX byte is
well formed in 64-bit mode only. -/
theorem rexBytesOutsideBits64 : Obligations.RexBytesOutsideBits64 := by
  refine ⟨fun cs pre post b hc hpre hb => ?_, fun cs bs rest pfx rex mem h => ?_⟩
  · obtain ⟨ps, hp⟩ := takePrefixes_stop hpre (prefixOf_rexByte_eq_none hc hb) post
    exact decode_notTheOpcode hp (by rintro rfl; exact absurd hb (by decide))
  · obtain ⟨_, _, hfits, _⟩ := wellFormed_iff.1 (decode_ok_spec h).1
    exact eq_c64_of_rexFits hfits (.inl rfl)

/-- Settles O7: the byte before the opcode stands last among the prefixes, and the split takes it exactly when it is a REX
byte. -/
theorem rexWChoosesXsaveopt64 : Obligations.RexWChoosesXsaveopt64 := by
  refine ⟨fun pre post rest v i hpre h => ?_, fun pre post rest b i hpre hb hsome h => ?_⟩
  · have hv : prefixOf .c64 (4#4 ++ v) = some (.rex v) := prefixOf_prefixByte .c64 (.rex v) fun _ => rfl
    obtain ⟨ps, hp⟩ := takePrefixes_last hpre hv post
    rw [(decode_acceptsFrom hp h).parts, splitRex_rex, instrW_instrOf]
    rfl
  · obtain ⟨p, hbp⟩ := Option.isSome_iff_exists.1 hsome
    obtain ⟨ps, hp⟩ := takePrefixes_last hpre hbp post
    have hno : (ps ++ [p]).getLast?.any isRexPrefix = false := by simpa using isRexPrefix_eq_false hbp hb
    rw [(decode_acceptsFrom hp h).parts, splitRex_none _ hno, instrW_instrOf]
    rfl

/-- Settles O1, by running the decoder on the six words. -/
theorem vectorWordsDecode : Obligations.VectorWordsDecode := by
  refine ⟨?_, ?_, ?_, ?_, ?_, ?_⟩ <;> decide

end Sys2Proof.Proofs
end

section
/-! PROOFS. The memory operand (30_encoding.md R105 to R112): the address size, the effective address of every form modulo
2 to the address size, the segment and the linear address. -/

namespace Sys2Proof.Machine

/-! ### The address size (R110) -/

/-- 67H is among the prefixes. -/
theorem any_isAddrSizePrefix (pfx : List Prefix) : pfx.any isAddrSizePrefix = decide (.addrSize ∈ pfx) := by
  have hp : isAddrSizePrefix = fun p => p == .addrSize := by
    funext p
    cases p <;> rfl
  rw [hp, List.any_beq', List.contains_eq_mem]

theorem addrSizeOf_c64 (pfx : List Prefix) :
    addrSizeOf .c64 pfx = if .addrSize ∈ pfx then .a32 else .a64 := by
  by_cases h : Prefix.addrSize ∈ pfx <;> simp [addrSizeOf, any_isAddrSizePrefix, h]

theorem addrSizeOf_c32 (pfx : List Prefix) :
    addrSizeOf .c32 pfx = if .addrSize ∈ pfx then .a16 else .a32 := by
  by_cases h : Prefix.addrSize ∈ pfx <;> simp [addrSizeOf, any_isAddrSizePrefix, h]

theorem addrSizeOf_c16 (pfx : List Prefix) :
    addrSizeOf .c16 pfx = if .addrSize ∈ pfx then .a32 else .a16 := by
  by_cases h : Prefix.addrSize ∈ pfx <;> simp [addrSizeOf, any_isAddrSizePrefix, h]

/-- The code size by the mode and the D bit of CS (10_state.md R38). -/
theorem codeSizeOf_eq (s : State) :
    codeSizeOf s = if s.mode = .bits64 then .c64
      else if (s.mode = .protectedMode ∨ s.mode = .compatibility) ∧ s.segs.cs.dflag = true then .c32 else .c16 := by
  unfold codeSizeOf
  cases s.mode <;> simp

/-! ### Sums modulo 2 to the address size (R109, R110, R112) -/

/-- The effective address is the sum modulo 2 to the address size. -/
theorem effectiveAddress_toNat (s : State) (i : Instr) :
    (effectiveAddress s i).toNat = (addressSum s i).toNat % 2 ^ addrBits (addrSizeIn s i) := by
  have hle : addrBits (addrSizeIn s i) ≤ 64 := by cases addrSizeIn s i <;> decide
  rw [effectiveAddress, BitVec.toNat_setWidth_of_le hle, BitVec.toNat_setWidth]

/-- The effective address is any number with the residue of the sum. -/
theorem effectiveAddress_eq_mod {s : State} {i : Instr} {a : AddrSize} {k : Nat} (ha : addrSizeIn s i = a)
    (hk : (addressSum s i).toNat ≡ k [MOD 2 ^ addrBits a]) :
    (effectiveAddress s i).toNat = k % 2 ^ addrBits a := by
  rw [effectiveAddress_toNat, ha]
  exact hk

section Terms

variable {n : Nat}

/-- Modulo 2 to at most 64 bits, a 64-bit sum is the sum of its terms. -/
theorem toNat_add_modEq (hn : n ≤ 64) {x y : Quad} {a b : Nat} (hx : x.toNat ≡ a [MOD 2 ^ n])
    (hy : y.toNat ≡ b [MOD 2 ^ n]) : (x + y).toNat ≡ a + b [MOD 2 ^ n] := by
  rw [BitVec.toNat_add]
  exact ((Nat.mod_modEq _ _).of_dvd (Nat.pow_dvd_pow 2 hn)).trans (hx.add hy)

/-- Sign extension to 64 bits has the low bits of sign extension to fewer bits (R112). -/
theorem signExtend_modEq (hn : n ≤ 64) {w : Nat} (v : BitVec w) :
    (v.signExtend 64).toNat ≡ (v.signExtend n).toNat [MOD 2 ^ n] := by
  have h : (v.signExtend 64).setWidth n = v.signExtend n := by
    apply BitVec.eq_of_getLsbD_eq
    intro j hj
    simp only [BitVec.getLsbD_setWidth, BitVec.getLsbD_signExtend, hj, show j < 64 by omega, decide_true, Bool.true_and]
  rw [← h, BitVec.toNat_setWidth]
  exact (Nat.mod_modEq _ _).symm

/-- Sign extension to 64 bits keeps the value modulo the value's own width. -/
theorem signExtend_modEq_self (hn : n ≤ 64) (v : BitVec n) : (v.signExtend 64).toNat ≡ v.toNat [MOD 2 ^ n] := by
  have h := signExtend_modEq hn v
  rwa [BitVec.signExtend_eq] at h

/-- A scaled index, none for 100 with REX.X = 0 (R107). -/
theorem indexValue_modEq (hn : n ≤ 64) (g : Gprs) (x : Bool) (sc : BitVec 2) (ix : BitVec 3) :
    (indexValue g x sc ix).toNat
      ≡ (if ix = 4#3 ∧ x = false then 0 else (gprAt g (regNumber x ix)).toNat * 2 ^ sc.toNat) [MOD 2 ^ n] := by
  unfold indexValue
  split
  · rfl
  · rw [BitVec.toNat_shiftLeft, Nat.shiftLeft_eq]
    exact (Nat.mod_modEq _ _).of_dvd (Nat.pow_dvd_pow 2 hn)

/-- The instruction's next address (R108). -/
theorem pcNext_modEq (hn : n ≤ 64) (s : State) (i : Instr) :
    (pcNext s i).toNat ≡ s.pc.toNat + instrLength i [MOD 2 ^ n] := by
  refine toNat_add_modEq hn rfl ?_
  rw [BitVec.toNat_ofNat]
  exact (Nat.mod_modEq _ _).of_dvd (Nat.pow_dvd_pow 2 hn)

/-- The displacement of a 16-bit form (R109). -/
theorem disp16Value_modEq (d : Disp16) :
    (disp16Value d).toNat ≡ (match d with
      | .none => 0
      | .d8 v => (v.signExtend 16).toNat
      | .d16 v => v.toNat) [MOD 2 ^ 16] := by
  cases d with
  | none => rfl
  | d8 v => exact signExtend_modEq (by decide) v
  | d16 v => exact signExtend_modEq_self (by decide) v

/-- The displacement of a form with a 32-bit address size (R106). -/
theorem disp32Value_modEq_32 (d : Disp32) :
    (disp32Value d).toNat ≡ (match d with
      | .none => 0
      | .d8 v => (v.signExtend 32).toNat
      | .d32 v => v.toNat) [MOD 2 ^ 32] := by
  cases d with
  | none => rfl
  | d8 v => exact signExtend_modEq (by decide) v
  | d32 v => exact signExtend_modEq_self (by decide) v

/-- The displacement of a form with a 64-bit address size (R106). -/
theorem disp32Value_modEq_64 (d : Disp32) :
    (disp32Value d).toNat ≡ (match d with
      | .none => 0
      | .d8 v => (v.signExtend 64).toNat
      | .d32 v => (v.signExtend 64).toNat) [MOD 2 ^ 64] := by
  cases d <;> rfl

/-- The registers of a 16-bit form (R109). -/
theorem form16Sum_modEq (g : Gprs) (f : Form16) :
    (form16Sum g f).toNat ≡ (match f with
      | .bxSi => g.rbx.toNat + g.rsi.toNat
      | .bxDi => g.rbx.toNat + g.rdi.toNat
      | .bpSi => g.rbp.toNat + g.rsi.toNat
      | .bpDi => g.rbp.toNat + g.rdi.toNat
      | .si => g.rsi.toNat
      | .di => g.rdi.toNat
      | .bp => g.rbp.toNat
      | .bx => g.rbx.toNat) [MOD 2 ^ 16] := by
  cases f with
  | bxSi => exact toNat_add_modEq (by decide) rfl rfl
  | bxDi => exact toNat_add_modEq (by decide) rfl rfl
  | bpSi => exact toNat_add_modEq (by decide) rfl rfl
  | bpDi => exact toNat_add_modEq (by decide) rfl rfl
  | _ => rfl

end Terms

/-! ### The sum of each form, modulo 2 to at most 64 bits -/

section Forms

variable {n k : Nat} {s : State} {i : Instr}

/-- mod 00, r/m 101 (R108). -/
theorem addressSum_disp32_modEq (hn : n ≤ 64) {d : BitVec 32} (h : instrMem i = .disp32 d)
    (hd : (d.signExtend 64).toNat ≡ k [MOD 2 ^ n]) :
    (addressSum s i).toNat
      ≡ (if s.mode = .bits64 then s.pc.toNat + instrLength i else 0) + k [MOD 2 ^ n] := by
  rw [addressSum, h]
  refine toNat_add_modEq hn ?_ hd
  split
  · exact pcNext_modEq hn s i
  · rfl

/-- A register base (R106). -/
theorem addressSum_base_modEq (hn : n ≤ 64) {r : BitVec 3} {d : Disp32} (h : instrMem i = .base r d)
    (hd : (disp32Value d).toNat ≡ k [MOD 2 ^ n]) :
    (addressSum s i).toNat ≡ (gprAt s.gpr (regNumber (rexB i) r)).toNat + k [MOD 2 ^ n] := by
  rw [addressSum, h]
  exact toNat_add_modEq hn rfl hd

/-- A base and an index (R107). -/
theorem addressSum_sib_modEq (hn : n ≤ 64) {sc : BitVec 2} {ix b : BitVec 3} {d : Disp32}
    (h : instrMem i = .sib sc ix b d) (hd : (disp32Value d).toNat ≡ k [MOD 2 ^ n]) :
    (addressSum s i).toNat
      ≡ (gprAt s.gpr (regNumber (rexB i) b)).toNat
        + (if ix = 4#3 ∧ rexX i = false then 0 else (gprAt s.gpr (regNumber (rexX i) ix)).toNat * 2 ^ sc.toNat)
        + k [MOD 2 ^ n] := by
  rw [addressSum, h]
  exact toNat_add_modEq hn (toNat_add_modEq hn rfl (indexValue_modEq hn _ _ _ _)) hd

/-- An index without a base (R107). -/
theorem addressSum_sibNoBase_modEq (hn : n ≤ 64) {sc : BitVec 2} {ix : BitVec 3} {d : BitVec 32}
    (h : instrMem i = .sibNoBase sc ix d) (hd : (d.signExtend 64).toNat ≡ k [MOD 2 ^ n]) :
    (addressSum s i).toNat
      ≡ (if ix = 4#3 ∧ rexX i = false then 0 else (gprAt s.gpr (regNumber (rexX i) ix)).toNat * 2 ^ sc.toNat)
        + k [MOD 2 ^ n] := by
  rw [addressSum, h]
  exact toNat_add_modEq hn (indexValue_modEq hn _ _ _ _) hd

end Forms

/-! ### The segment and the linear address (R111) -/

/-- Only REX.B = 0 gives a register number below 8: R12 and R13 are not 4 and 5 (R106, R107). -/
theorem regNumber_eq_iff {ext : Bool} {r : BitVec 3} {m : Nat} (hm : m < 8) :
    regNumber ext r = m ↔ r.toNat = m ∧ ext = false := by
  cases ext with
  | false => simp [regNumber]
  | true => simp [regNumber]; omega

/-- A form's own segment is SS or DS. -/
theorem defaultSeg_eq_ss_or_ds (i : Instr) : defaultSeg i = .ss ∨ defaultSeg i = .ds := by
  unfold defaultSeg
  cases instrMem i with
  | base16 f d => cases f <;> simp
  | base r d => exact ite_eq_or_eq _ _ _
  | sib sc ix b d => exact ite_eq_or_eq _ _ _
  | _ => exact .inr rfl

section Segment

variable {s : State} {i : Instr} {n : SegName}

/-- Without an override the segment is the form's own. -/
theorem operandSeg_of_none (h : segOverride (instrPrefixes i) = none) : operandSeg s i = defaultSeg i := by
  rw [operandSeg, h]
  cases s.mode <;> rfl

/-- In 64-bit mode an override other than FS and GS is ignored. -/
theorem operandSeg_bits64_ignored (hm : s.mode = .bits64) (h : segOverride (instrPrefixes i) = some n)
    (hfs : n ≠ .fs) (hgs : n ≠ .gs) : operandSeg s i = defaultSeg i := by
  rw [operandSeg, h, hm]
  cases n with
  | fs => exact absurd rfl hfs
  | gs => exact absurd rfl hgs
  | _ => rfl

/-- Outside 64-bit mode an override chooses the segment, and in 64-bit mode FS and GS do. -/
theorem operandSeg_override (h : segOverride (instrPrefixes i) = some n)
    (hn : s.mode ≠ .bits64 ∨ n = .fs ∨ n = .gs) : operandSeg s i = n := by
  rw [operandSeg, h]
  cases hm : s.mode with
  | bits64 =>
    rcases hn with hn | rfl | rfl
    · exact absurd hm hn
    · rfl
    · rfl
  | _ => rfl

/-- In 64-bit mode the bases of SS and DS count as 0, so the linear address is the effective one. -/
theorem laxaOf_bits64_default (hm : s.mode = .bits64) (h : operandSeg s i = defaultSeg i) :
    laxaOf s i = effectiveAddress s i := by
  have hbase : segBase s (operandSeg s i) = 0#64 := by
    rw [h]
    rcases defaultSeg_eq_ss_or_ds i with hs | hs <;> simp [segBase, hm, hs]
  rw [laxaOf, linearAddress, hm]
  simp [hbase]

/-- In 64-bit mode the base of FS or GS is added modulo 2^64. -/
theorem laxaOf_bits64_toNat (hm : s.mode = .bits64) (h : operandSeg s i = n) (hn : n = .fs ∨ n = .gs) :
    (laxaOf s i).toNat = ((segOf s n).base.toNat + (effectiveAddress s i).toNat) % 2 ^ 64 := by
  have hbase : segBase s n = (segOf s n).base := by
    rcases hn with rfl | rfl <;> simp [segBase, segOf, hm]
  rw [laxaOf, linearAddress, hm, h]
  simp [hbase, BitVec.toNat_add]

/-- Outside 64-bit mode the base of the segment is added modulo 2^32. -/
theorem laxaOf_toNat_of_ne (hm : s.mode ≠ .bits64) :
    (laxaOf s i).toNat = ((segOf s (operandSeg s i)).base.toNat + (effectiveAddress s i).toNat) % 2 ^ 32 := by
  have hbase : segBase s (operandSeg s i) = (segOf s (operandSeg s i)).base := by
    unfold segBase
    cases hs : s.mode <;> first | exact absurd hs hm | rfl
  have hlin : laxaOf s i
      = ((segBase s (operandSeg s i) + effectiveAddress s i).setWidth 32).setWidth 64 := by
    unfold laxaOf linearAddress
    cases hs : s.mode <;> first | exact absurd hs hm | rfl
  rw [hlin, hbase, BitVec.toNat_setWidth_of_le (by decide), BitVec.toNat_setWidth, BitVec.toNat_add]
  exact Nat.mod_mod_of_dvd _ (Nat.pow_dvd_pow 2 (by decide))

end Segment

end Sys2Proof.Machine

namespace Sys2Proof.Proofs
open Sys2Proof.Machine

/-- Settles O12: each term of the sum modulo 2^16. -/
theorem effectiveAddress16 : Obligations.EffectiveAddress16 := by
  intro s i ha
  refine ⟨fun d h => ?_, fun f d h => effectiveAddress_eq_mod ha ?_⟩
  · have hsum : (addressSum s i).toNat ≡ d.toNat [MOD 2 ^ 16] := by
      rw [addressSum, h]
      exact signExtend_modEq_self (by decide) d
    exact (effectiveAddress_eq_mod ha hsum).trans (Nat.mod_eq_of_lt d.isLt)
  · rw [addressSum, h]
    exact toNat_add_modEq (by decide) (form16Sum_modEq _ _) (disp16Value_modEq _)

/-- Settles O13: the sum of each form modulo 2^32. -/
theorem effectiveAddress32 : Obligations.EffectiveAddress32 := by
  intro s i ha
  have h32 : 32 ≤ 64 := by decide
  refine ⟨fun d h => ?_,
    fun r d h => effectiveAddress_eq_mod ha (addressSum_base_modEq h32 h (disp32Value_modEq_32 d)),
    fun sc ix b d h => effectiveAddress_eq_mod ha (addressSum_sib_modEq h32 h (disp32Value_modEq_32 d)),
    fun sc ix d h => effectiveAddress_eq_mod ha (addressSum_sibNoBase_modEq h32 h (signExtend_modEq_self h32 d))⟩
  by_cases hm : s.mode = .bits64
  · have hea := effectiveAddress_eq_mod ha (addressSum_disp32_modEq h32 h rfl)
    rw [if_pos hm] at hea ⊢
    exact hea
  · have hea := effectiveAddress_eq_mod ha (addressSum_disp32_modEq h32 h (signExtend_modEq_self h32 d))
    rw [if_neg hm, Nat.zero_add] at hea
    rw [if_neg hm]
    exact hea.trans (Nat.mod_eq_of_lt d.isLt)

/-- Settles O14: the sum of each form modulo 2^64. -/
theorem effectiveAddress64 : Obligations.EffectiveAddress64 := by
  intro s i hm ha
  refine ⟨fun d h => ?_,
    fun r d h => effectiveAddress_eq_mod ha (addressSum_base_modEq le_rfl h (disp32Value_modEq_64 d)),
    fun sc ix b d h => effectiveAddress_eq_mod ha (addressSum_sib_modEq le_rfl h (disp32Value_modEq_64 d)),
    fun sc ix d h => effectiveAddress_eq_mod ha (addressSum_sibNoBase_modEq le_rfl h rfl)⟩
  have hea := effectiveAddress_eq_mod ha (addressSum_disp32_modEq le_rfl h rfl)
  rw [if_pos hm] at hea
  exact hea

/-- Settles O16: the form's own segment, by the number of its base register. -/
theorem defaultSegment : Obligations.DefaultSegment := by
  intro s i h
  have hseg : operandSeg s i = defaultSeg i := operandSeg_of_none h
  refine ⟨?_, fun hm => laxaOf_bits64_default hm hseg, laxaOf_toNat_of_ne⟩
  rw [hseg, defaultSeg]
  cases instrMem i with
  | base16 f d => cases f <;> rfl
  | base r d => simp [regNumber_eq_iff, ← BitVec.toNat_inj]
  | sib sc ix b d => simp [regNumber_eq_iff, ← BitVec.toNat_inj, or_and_right]
  | _ => rfl

/-- Settles O17: which overrides count in each mode, and the base of the segment they choose. -/
theorem segmentAndLinearAddress : Obligations.SegmentAndLinearAddress := by
  intro s i
  refine ⟨fun hm n h hfs hgs => ?_, fun hm h => ?_, fun hm h => ?_, fun hm n h => ?_⟩
  · have hseg := operandSeg_bits64_ignored hm h hfs hgs
    exact ⟨hseg, laxaOf_bits64_default hm hseg⟩
  · have hseg := operandSeg_override (s := s) h (.inr (.inr rfl))
    exact ⟨hseg, laxaOf_bits64_toNat hm hseg (.inr rfl)⟩
  · have hseg := operandSeg_override (s := s) h (.inr (.inl rfl))
    exact ⟨hseg, laxaOf_bits64_toNat hm hseg (.inl rfl)⟩
  · have hseg := operandSeg_override h (.inl hm)
    exact ⟨hseg, hseg ▸ laxaOf_toNat_of_ne hm⟩

/-- Settles O15: the code size by the mode, and what 67H makes of it. -/
theorem addressSize : Obligations.AddressSize := by
  intro s i
  rw [addrSizeIn, codeSizeOf_eq]
  by_cases hm : s.mode = .bits64
  · rw [if_pos hm, if_pos hm, addrSizeOf_c64]
  · rw [if_neg hm, if_neg hm]
    by_cases hd : (s.mode = .protectedMode ∨ s.mode = .compatibility) ∧ s.segs.cs.dflag = true
    · rw [if_pos hd, if_pos hd, addrSizeOf_c32]
    · rw [if_neg hd, if_neg hd, addrSizeOf_c16]

end Sys2Proof.Proofs
end

section
/-! PROOFS. The save of an execution that completes (40_xsaveopt.md R141 to R155): the bits of RFBM and TO_BE_SAVED, the
XSTATE_BV field it writes, completion under the conditions of 70_reset_and_hazards.md R232, and of each component
whether its bytes are stored or kept. -/

namespace Sys2Proof.Machine

/-! ### The bitmaps -/

/-- 00_scope.md R10: EAX is the low half of the instruction mask and EDX the high half. -/
theorem instructionMask_bit {s : State} {n : Nat} (hn : n < 64) :
    (instructionMask s).getLsbD n = if n < 32 then s.gpr.rax.getLsbD n else s.gpr.rdx.getLsbD (n - 32) := by
  by_cases hlow : n < 32
  · simp [instructionMask, hn, hlow]
  · simp [instructionMask, hn, hlow, show n - 32 < 32 by omega, show n - 32 < 64 by omega]

/-- 40_xsaveopt.md R144: the test that XRSTOR_INFO matches. -/
theorem rstorMatches_iff {s : State} {laxa : Quad} :
    rstorMatches s laxa = true ↔ s.xrstorInfo = some ⟨currentCpl s, s.vmxNonRoot, laxa, 0#64⟩ :=
  decide_eq_true_iff

/-- 40_xsaveopt.md R143, R144: without a match XMODIFIED does not enter. -/
theorem toBeSaved_of_no_match {s : State} {laxa : Quad}
    (h : s.xrstorInfo ≠ some ⟨currentCpl s, s.vmxNonRoot, laxa, 0#64⟩) : toBeSaved s laxa = rfbm s &&& s.xinuse :=
  if_neg (mt rstorMatches_iff.1 h)

/-- 40_xsaveopt.md R143, R144: a bit of TO_BE_SAVED. -/
theorem toBeSaved_bit (s : State) (laxa : Quad) (n : Nat) :
    (toBeSaved s laxa).getLsbD n = ((rfbm s).getLsbD n && s.xinuse.getLsbD n
      && (s.xmodified.getLsbD n || !rstorMatches s laxa)) := by
  unfold toBeSaved
  cases rstorMatches s laxa with
  | true => simp
  | false => simp

/-! ### XSTATE_BV -/

/-- 40_xsaveopt.md R149, D31: every execution stores the eight bytes of XSTATE_BV. -/
theorem header_store (w : Bool) (i : Instr) (s : State) {j : Nat} (hj : j < 8) :
    (s.conf.xstateBvOffset + j, byteAt (newBv s i).toNat j) ∈ operationStores w i s :=
  storePlace_iff.2 (.header j hj)

/-- An execution that completes could write every byte of XSTATE_BV. -/
theorem header_located {i : Instr} {s t : State} (h : exec i s = .next t) {j : Nat} (hj : j < 8) :
    ∃ l, locate s i (s.conf.xstateBvOffset + j) .write = .ok l := by
  obtain ⟨_, _, _, hm, _⟩ := exec_next h
  exact stores_located hm (header_store (instrW i) i s hj)

/-- After completion the XSTATE_BV field holds the new value. -/
theorem fieldHolds_newBv {i : Instr} {s t : State} (h : exec i s = .next t) (ha : AliasFree i s) :
    FieldHolds i s t s.conf.xstateBvOffset 8 (newBv s i).toNat :=
  fun _ hj => holdsAt_of_store h ha (List.mem_append_right _ (header_store (instrW i) i s hj))

/-- Each bit of the XSTATE_BV field is, after completion, that of the new value. -/
theorem headerBitIs_newBv {i : Instr} {s t : State} (h : exec i s = .next t) (ha : AliasFree i s) {n : Nat}
    (hn : n < 64) : HeaderBitIs i s t n ((newBv s i).getLsbD n) := by
  intro l hl
  rw [fieldHolds_newBv h ha (n / 8) (by omega) l hl, byteAt_bit]

/-- 40_xsaveopt.md R142: in an execution that completes, OLD_BV is what the field reads as. -/
theorem oldBv_of_headerReads {i : Instr} {s t : State} {old : Quad} (h : exec i s = .next t)
    (hr : HeaderReads i s old) : oldBv s i = old := by
  refine oldBv_of_header fun j hj => ?_
  obtain ⟨l, hl⟩ := header_located h hj
  obtain ⟨r, hread, hv⟩ := hr j hj
  rw [locate_read_of_write hl] at hread
  cases hread
  exact ⟨l, hl, hv⟩

/-- A byte of OLD_BV is the byte of the area it was read from. -/
theorem byteAt_oldBv {i : Instr} {s : State} {j : Nat} (hj : j < 8) :
    byteAt (oldBv s i).toNat j = areaByte s i (s.conf.xstateBvOffset + j) := by
  refine BitVec.eq_of_getLsbD_eq fun k hk => ?_
  have hdiv : (8 * j + k) / 8 = j := by omega
  have hmod : (8 * j + k) % 8 = k := by omega
  have hbit := byteAt_bit (oldBv s i) (8 * j + k)
  rw [oldBv_bit (by omega), hdiv, hmod] at hbit
  exact hbit

/-- 40_xsaveopt.md R149: where nothing is requested XSTATE_BV keeps its value. -/
theorem newBv_of_rfbm_zero {i : Instr} {s : State} (h : rfbm s = 0#64) : newBv s i = oldBv s i := by
  refine BitVec.eq_of_getLsbD_eq fun n hn => ?_
  rw [newBv_bit hn, h, BitVec.getLsbD_zero]
  rfl

/-! ### Completion -/

/-- 70_reset_and_hazards.md R232: an operand that is aligned and accessible leaves no cause to fault. -/
theorem exec_next_of_saveReady {i : Instr} {s : State} (h : SaveReady i s) : ∃ t, exec i s = .next t := by
  obtain ⟨hacc, hen, hal, haccessible⟩ := h
  obtain ⟨_, hconf, _, hx, _⟩ := launchRefusal_eq_none hacc.1
  have hcauses : memCauses (instrW i) i s = [] := by
    rw [memCauses_of_aligned hal, accessCauses_of_accessible hconf hx haccessible]
  rcases exec_of_enabled hacc hen with ⟨_, hexec⟩ | ⟨c, cs, hcons, _⟩
  · exact ⟨_, hexec⟩
  · rw [hcauses] at hcons
    cases hcons

/-- What completion under the conditions of 70_reset_and_hazards.md R232 leaves, of either instruction. -/
theorem completes_of_saveReady {i : Instr} {s : State} (hr : SaveReady i s) :
    ∃ t, exec i s = .next t ∧ t = s.leave t.mem t.pc ∧ t.pc.toNat = s.pc.toNat + instrLength i
      ∧ OutsideUnchanged i s t
      ∧ (AliasFree i s → ∀ old, HeaderReads i s old → FieldHolds i s t s.conf.xstateBvOffset 8
          ((old &&& ~~~rfbm s) ||| (s.xinuse &&& rfbm s)).toNat) := by
  obtain ⟨t, h⟩ := exec_next_of_saveReady hr
  refine ⟨t, h, exec_next_eq_leave h, exec_next_pc h, exec_next_outsideUnchanged h, fun ha old hold => ?_⟩
  rw [← oldBv_of_headerReads h hold]
  exact fieldHolds_newBv h ha

/-! ### Components -/

/-- 20_memory.md R66: the bytes of a requested component lie in the area. -/
theorem requested_part_lt_areaSize {s : State} (hc : configOk s.conf = true) {w : Bool} {n o : Nat} (hn : n ≤ 62)
    (hr : (rfbm s).getLsbD n = true) (hp : partCovers s.conf w n o = true) : o < areaSize s := by
  by_cases h2 : n < 2
  · have := partCovers_range hc (.inl h2) hp
    have := le_areaSize s
    omega
  · rw [partCovers_comp (by omega), compCovers_iff] at hp
    have := comp_le_areaSize (mem_compNumbers.2 ⟨by omega, hn⟩) (rfbm_le_xcr0 hr)
    omega

/-- 20_memory.md R69 (3), of a component that is requested: it is supported, and its bytes lie in the area. -/
theorem unchangedAt_of_requested_unsaved {i : Instr} {s t : State} {n o : Nat} (h : exec i s = .next t)
    (ha : AliasFree i s) (hn : n ≤ 62) (hr : (rfbm s).getLsbD n = true)
    (hns : (toBeSaved s (laxaOf s i)).getLsbD n = false) (hp : partCovers s.conf (instrW i) n o = true) :
    UnchangedAt i s t o := by
  obtain ⟨_, hc, hx, _⟩ := exec_next h
  have hsup : n < 2 ∨ s.conf.xcr0Supported.getLsbD n = true :=
    (hasPart_of_saved hx hn hr).imp_right fun hm => (mem_supportedComps.1 hm).2.2
  exact Proofs.unsavedComponentsUnchanged i s t n o h ha hn hsup hns (requested_part_lt_areaSize hc hn hr hp) hp

/-- 40_xsaveopt.md R147: where neither RFBM[1] nor RFBM[2] is set, the bytes of the MXCSR fields are not written. -/
theorem unchangedAt_mxcsr {i : Instr} {s t : State} (h : exec i s = .next t) (ha : AliasFree i s)
    (h1 : (rfbm s).getLsbD 1 = false) (h2 : (rfbm s).getLsbD 2 = false) {o : Nat}
    (ho : mxcsrCovers s.conf o = true) : UnchangedAt i s t o := by
  obtain ⟨_, hc, hx, _⟩ := exec_next h
  have hlt := mxcsrCovers_lt hc ho
  have hA := le_areaSize s
  obtain ⟨_, _, _, hbv, _⟩ := configOk_fields hc
  refine unchangedAt_of_unstored h ha (by omega) (reserved_false_of (.inr (.inr (.inl ho))))
    (Bool.eq_false_iff.2 fun hcov => ?_) (fun hreq => ?_) fun n hn hs => Bool.eq_false_iff.2 fun hp => ?_
  · have := xstateBvCovers_iff.1 hcov
    omega
  · exact (hreq.elim (Bool.eq_false_iff.1 h1) (Bool.eq_false_iff.1 h2)).elim
  · obtain ⟨_, hmx, _⟩ := partCovers_apart hc (hasPart_of_saved hx hn (toBeSaved_le_rfbm hs).1) hp
    exact Bool.eq_false_iff.1 hmx ho

/-- 40_xsaveopt.md R155 case 1: where nothing is requested, the only stores are those of XSTATE_BV, with OLD_BV. -/
theorem store_of_rfbm_zero {w : Bool} {i : Instr} {s : State} (hc : configOk s.conf = true) (hx : xcr0Ok s = true)
    (h : rfbm s = 0#64) {e : Store} (he : e ∈ allStores w i s) :
    ∃ j < 8, e = (s.conf.xstateBvOffset + j, byteAt (oldBv s i).toNat j) := by
  have hreq : ∀ n, (rfbm s).getLsbD n = false := fun n => by rw [h, BitVec.getLsbD_zero]
  have hsaved : ∀ n, (toBeSaved s (laxaOf s i)).getLsbD n = false := fun n => by simp [toBeSaved_bit, hreq]
  have hres : reservedStores w i s = [] := reservedStores_eq_nil fun f hf => by
    have := operation_store_ge_512 hc hx (hsaved 0) (hreq 1) (hreq 2) hf
    omega
  rw [allStores, hres, List.nil_append] at he
  cases storePlace_iff.1 he with
  | x87 o hs => simp only [hsaved, Bool.false_eq_true] at hs
  | xmm o hs => simp only [hsaved, Bool.false_eq_true] at hs
  | mxcsr j hs => simp only [hreq, Bool.false_eq_true, or_self] at hs
  | mask j hs => simp only [hreq, Bool.false_eq_true, or_self] at hs
  | comp c k hm hs => simp only [hsaved, Bool.false_eq_true] at hs
  | header j hj => exact ⟨j, hj, by rw [newBv_of_rfbm_zero h]⟩

end Sys2Proof.Machine

namespace Sys2Proof.Proofs
open Sys2Proof.Machine

/-- Settles O18, from the bits of EDX:EAX. -/
theorem rfbmBits : Obligations.RfbmBits := by
  intro s n hn
  rw [rfbm, BitVec.getLsbD_and, instructionMask_bit hn]

/-- Settles O19, by whether XRSTOR_INFO matches. -/
theorem toBeSavedBits : Obligations.ToBeSavedBits :=
  fun s laxa n => toBeSaved_bit s laxa n

/-- Settles O20: the frame of completion, for each form of XSAVEOPT. -/
theorem xsaveoptCompletes : Obligations.XsaveoptCompletes :=
  fun _ _ _ _ hr => completes_of_saveReady hr

/-- Settles O21: the same of XSAVEOPT64. -/
theorem xsaveopt64Completes : Obligations.Xsaveopt64Completes :=
  fun _ _ _ _ hr => completes_of_saveReady hr

/-- Settles O25: the field holds the new XSTATE_BV with OLD_BV what the field read as; the other bytes of the header are
software bytes. -/
theorem xstateBvWritten : Obligations.XstateBvWritten := by
  intro i s t h
  refine ⟨fun j hj => header_located h hj, fun ha => ⟨fun old hr => ?_, fun o h1 h2 hbv => ?_⟩⟩
  · have hold := oldBv_of_headerReads h hr
    rw [← hold]
    refine ⟨fieldHolds_newBv h ha, fun n hn => ?_⟩
    rw [← newBv_bit hn]
    exact headerBitIs_newBv h ha hn
  · exact softwareBytesKept i s t o h ha (by omega) h2 hbv

/-- Settles O29: the two fields are stored where one of the bits is set, and else no store goes to them. -/
theorem mxcsrStored : Obligations.MxcsrStored := by
  intro i s t h ha
  have stored : ∀ {e}, StorePlace (instrW i) i s e → HoldsAt i s t e.1 e.2 :=
    fun hp => holdsAt_of_store h ha (List.mem_append_right _ (storePlace_iff.2 hp))
  refine ⟨fun hreq => ⟨fun j hj => stored (.mxcsr j hreq hj), fun j hj => stored (.mask j hreq hj)⟩,
    fun ⟨h1, h2⟩ j hj => ⟨?_, ?_⟩⟩
  · exact unchangedAt_mxcsr h ha h1 h2 (mxcsrCovers_iff.2 (by omega))
  · exact unchangedAt_mxcsr h ha h1 h2 (mxcsrCovers_iff.2 (by omega))

/-- Settles O30: every byte of the image is a store of the operation. -/
theorem componentsStored : Obligations.ComponentsStored := by
  intro i s t n h ha h2 h62 hs k hk
  have hmem := storePlace_iff.2 (.comp (w := instrW i) n k (mem_compNumbers.2 ⟨h2, h62⟩) hs hk)
  exact holdsAt_of_store h ha (List.mem_append_right _ hmem)

/-- Settles O34: XINUSE[n] = 0 makes TO_BE_SAVED[n] and, of a requested component, XSTATE_BV[n] 0. -/
theorem initOptimization : Obligations.InitOptimization := by
  intro i s t n o h ha hn hr hu
  have hns : (toBeSaved s (laxaOf s i)).getLsbD n = false := by simp [toBeSaved_bit, hu]
  have hbit : (newBv s i).getLsbD n = false := by rw [newBv_bit (by omega), if_pos hr, hu]
  exact ⟨unchangedAt_of_requested_unsaved h ha hn hr hns, hbit ▸ headerBitIs_newBv h ha (by omega)⟩

/-- Settles O35: with a match, XMODIFIED[n] = 0 makes TO_BE_SAVED[n] 0, and XSTATE_BV[n] is XINUSE[n] all the same. -/
theorem modifiedOptimization : Obligations.ModifiedOptimization := by
  intro i s t n o h ha hn hr hu hmatch hm
  have hns : (toBeSaved s (laxaOf s i)).getLsbD n = false := by
    simp [toBeSaved_bit, rstorMatches_iff.2 hmatch, hm]
  have hbit : (newBv s i).getLsbD n = true := by rw [newBv_bit (by omega), if_pos hr, hu]
  exact ⟨unchangedAt_of_requested_unsaved h ha hn hr hns, hbit ▸ headerBitIs_newBv h ha (by omega)⟩

/-- Settles O36: RFBM[n] = 0 passes the bit of OLD_BV through, which is the bit memory held, and makes
TO_BE_SAVED[n] 0. -/
theorem notRequestedUnchanged : Obligations.NotRequestedUnchanged := by
  intro i s t n h ha hn hr
  have hns : (toBeSaved s (laxaOf s i)).getLsbD n = false := by simp [toBeSaved_bit, hr]
  refine ⟨fun l hl => ?_, fun o ho h62 hsup hp => unsavedComponentsUnchanged i s t n o h ha h62 hsup hns ho hp⟩
  rw [headerBitIs_newBv h ha hn l hl, newBv_bit hn, hr, oldBv_bit hn, areaByte_of_write hl]
  rfl

/-- Settles O38: each store puts a byte of OLD_BV back where it was read. -/
theorem emptyRequestChangesNothing : Obligations.EmptyRequestChangesNothing := by
  intro i s t h _ hr l
  obtain ⟨rfl, hc, hx, _⟩ := exec_next h
  rcases read_commit_cases s i (allStores (instrW i) i s) l with hkept | ⟨e, he, hl, hv⟩
  · exact hkept
  · obtain ⟨j, hj, rfl⟩ := store_of_rfbm_zero hc hx hr he
    rw [byteAt_oldBv hj, areaByte_of_write hl] at hv
    exact hv

end Sys2Proof.Proofs
end

section
/-! PROOFS. Two executions compared (40_xsaveopt.md R154, R155, R157): the state with another CPL and another XMODIFIED,
and the two instructions of one operand. -/

namespace Sys2Proof.Machine

/-! ### The state with another CPL and another XMODIFIED -/

/-- `s` with another CPL and another XMODIFIED. -/
def State.withTracking (s : State) (c : Fin 4) (m : Quad) : State := { s with cpl := c, xmodified := m }

/-- The CPL `c` and the XMODIFIED `m` give every byte of the area the location it has in `s`, and the execution of `i`
the TO_BE_SAVED it has in `s`: there is nothing else that reads either of them. -/
structure SameSave (i : Instr) (s : State) (c : Fin 4) (m : Quad) : Prop where
  locations : locate (s.withTracking c m) i = locate s i
  saved : toBeSaved (s.withTracking c m) (laxaOf s i) = toBeSaved s (laxaOf s i)

section
variable {i : Instr} {s : State} {c : Fin 4} {m : Quad}

theorem newBv_withTracking (h : SameSave i s c m) : newBv (s.withTracking c m) i = newBv s i := by
  have hbyte : areaByte (s.withTracking c m) i = areaByte s i := by
    funext k
    simp only [areaByte, h.locations]
    rfl
  simp only [newBv, oldBv, hbyte]
  rfl

theorem operationStores_withTracking (h : SameSave i s c m) (w : Bool) :
    operationStores w i (s.withTracking c m) = operationStores w i s := by
  have hlaxa : laxaOf (s.withTracking c m) i = laxaOf s i := rfl
  simp only [operationStores, hlaxa, h.saved, newBv_withTracking h]
  rfl

theorem memCauses_withTracking (h : SameSave i s c m) (w : Bool) :
    memCauses w i (s.withTracking c m) = memCauses w i s := by
  simp only [memCauses, accessCauses, touchedFaults, extentFaults, accessFault, h.locations,
    operationStores_withTracking h]
  rfl

theorem completed_withTracking (h : SameSave i s c m) (w : Bool) :
    completed w i (s.withTracking c m) = (completed w i s).withTracking c m := by
  have hloc : located (s.withTracking c m) i = located s i := by
    funext e
    simp only [located, h.locations]
  simp only [completed, commit, allStores, reservedStores, operationStores_withTracking h, hloc]
  rfl

/-- Where the locations and TO_BE_SAVED are the same, so is the execution that completes. -/
theorem exec_next_withTracking (h : SameSave i s c m) {t : State} (hx : exec i s = .next t) :
    exec i (s.withTracking c m) = .next (t.withTracking c m) := by
  rw [exec_eq] at hx ⊢
  obtain ⟨hl, hu, hts, ho, hm, rfl⟩ := saveCommon_next hx
  rw [← completed_withTracking h]
  exact saveCommon_completes hl hu hts ho (by rw [memCauses_withTracking h, hm])

end

/-- 40_xsaveopt.md R155 case 7: without a match XMODIFIED does not enter. -/
theorem sameSave_of_no_match {i : Instr} {s : State} (m : Quad)
    (h : s.xrstorInfo ≠ some ⟨currentCpl s, s.vmxNonRoot, laxaOf s i, 0#64⟩) : SameSave i s s.cpl m where
  locations := rfl
  saved := (toBeSaved_of_no_match (s := s.withTracking s.cpl m) h).trans (toBeSaved_of_no_match h).symm

/-- 40_xsaveopt.md R157: the CPL enters through the page tables and through the match with XRSTOR_INFO alone. -/
theorem sameSave_of_no_paging {i : Instr} {s : State} (c : Fin 4) (hp : s.paging = none) (hx : s.xrstorInfo = none) :
    SameSave i s c s.xmodified where
  locations := by
    have hpage : pageTranslate (s.withTracking c s.xmodified) = pageTranslate s := by
      have hp' : (s.withTracking c s.xmodified).paging = none := hp
      funext kind a
      rw [pageTranslate_of_no_paging (.inl hp), pageTranslate_of_no_paging (.inl hp')]
    funext k kind
    simp only [locate, translate, hpage]
    rfl
  saved := by
    have hnone : ∀ u : State, u.xrstorInfo = none →
        toBeSaved u (laxaOf s i) = rfbm u &&& u.xinuse := fun u hu =>
      toBeSaved_of_no_match (by simp [hu])
    rw [hnone s hx, hnone (s.withTracking c s.xmodified) hx]
    rfl

/-! ### The two instructions of one operand -/

section
variable (pfx : List Prefix) (rex : Rex) (mem : MemOperand) (s : State)

theorem locate_xsaveopt64 : locate s (.xsaveopt64 pfx rex mem) = locate s (.xsaveopt pfx (some rex) mem) := rfl

theorem pcNext_xsaveopt64 : pcNext s (.xsaveopt64 pfx rex mem) = pcNext s (.xsaveopt pfx (some rex) mem) := rfl

/-- 40_xsaveopt.md R154: the stores of the two instructions differ in those of the x87 image alone. -/
theorem operationStores_xsaveopt64
    (h : (toBeSaved s (laxaOf s (.xsaveopt64 pfx rex mem))).getLsbD 0 = false) :
    operationStores true (.xsaveopt64 pfx rex mem) s = operationStores false (.xsaveopt pfx (some rex) mem) s := by
  have h' : (toBeSaved s (laxaOf s (.xsaveopt pfx (some rex) mem))).getLsbD 0 = false := h
  simp only [operationStores, h, h']
  rfl

end

/-- Two executions from one state that make the same stores, at the same locations, leave the same value in every byte
that is reserved in neither. -/
theorem read_eq_of_same_stores {i j : Instr} {s t u : State} (ht : exec i s = .next t) (hu : exec j s = .next u)
    (ha : AliasFree i s) (hloc : locate s j = locate s i)
    (hst : operationStores (instrW j) j s = operationStores (instrW i) i s) {o l : Nat} (ho : o < areaSize s)
    (hi : reservedCovers s.conf (instrW i) o = false) (hj : reservedCovers s.conf (instrW j) o = false)
    (hl : locate s i o .write = .ok l) : t.mem.read l = u.mem.read l := by
  have ha' : AliasFree j s := by
    unfold AliasFree
    rw [hloc]
    exact ha
  have hl' : locate s j o .write = .ok l := by rw [hloc, hl]
  have same : ∀ {b}, (o, b) ∈ operationStores (instrW i) i s → t.mem.read l = u.mem.read l := fun {b} hb =>
    calc t.mem.read l = b := holdsAt_of_store ht ha (List.mem_append_right _ hb) l hl
      _ = u.mem.read l := (holdsAt_of_store hu ha' (List.mem_append_right _ (hst ▸ hb)) l hl').symm
  rcases holdsAt_or_unchangedAt ht ha ho hi with ⟨b, hb, _⟩ | hkt
  · exact same hb
  · rcases holdsAt_or_unchangedAt hu ha' ho hj with ⟨b, hb, _⟩ | hku
    · exact same (hst ▸ hb)
    · rw [hkt l hl, hku l hl']

end Sys2Proof.Machine

namespace Sys2Proof.Proofs
open Sys2Proof.Machine

/-- Settles O39: TO_BE_SAVED is the same, and the locations do not depend on XMODIFIED. -/
theorem noMatchIgnoresModified : Obligations.NoMatchIgnoresModified := by
  intro i s t h hno
  have hmap := exec_next_withTracking (sameSave_of_no_match (BitVec.allOnes 64) hno) h
  rw [exec_next_eq_leave h] at hmap ⊢
  exact hmap

/-- Settles O42: without paging and XRSTOR_INFO, the CPL changes neither a location nor TO_BE_SAVED. -/
theorem completesAtEveryCpl : Obligations.CompletesAtEveryCpl := by
  intro i s t c hp hx h
  have hmap := exec_next_withTracking (sameSave_of_no_paging c hp hx) h
  rw [exec_next_eq_leave h] at hmap ⊢
  exact hmap

/-- Settles O40: without the x87 image the two instructions make the same stores, and their next pc is the same. -/
theorem sameBytesWithoutX87 : Obligations.SameBytesWithoutX87 := by
  intro pfx rex mem s t u ht hu ha h0
  refine ⟨?_, fun o ho h32 h64 l hl => ?_⟩
  · obtain ⟨rfl, _⟩ := exec_next ht
    obtain ⟨rfl, _⟩ := exec_next hu
    exact (pcNext_xsaveopt64 pfx rex mem s).symm
  · exact (read_eq_of_same_stores hu ht ha (locate_xsaveopt64 pfx rex mem s).symm
      (operationStores_xsaveopt64 pfx rex mem s h0).symm ho h64 h32 hl).symm

end Sys2Proof.Proofs
end

section
/-! PROOFS. Which exception is raised (60_exceptions.md R180 to R193): the checks decide #UD and #NM, every other fault is
that of a misaligned operand, of a byte outside its bounds or of a page, and MemFaultOrder and the causes that apply fix
which one is reported. -/

namespace Sys2Proof.Machine

/-! ### The exceptions of the operand -/

/-- The exception of a misaligned operand (60_exceptions.md R186, R187). -/
def alignmentFault (i : Instr) (s : State) : Exception :=
  if s.mode = .realAddress then ⟨.gp, none, none⟩
  else if acEnabled s ∧ currentCpl s = 3 ∧ Config.acPolicy (laxaOf s i) = .ac then ⟨.ac, some 0#32, none⟩
  else ⟨.gp, some 0#32, none⟩

/-- The exception of a byte outside its limit, bound or canonical range (60_exceptions.md R183, R184, R187, R190). -/
def boundsFault (i : Instr) (s : State) : Exception :=
  if s.mode = .realAddress then ⟨.gp, none, none⟩
  else if operandSeg s i = .ss then ⟨.ss, some 0#32, none⟩
  else ⟨.gp, some 0#32, none⟩

theorem raiseCause_align (w : Bool) (i : Instr) (s : State) :
    raiseCause w i s .align = .fault (.raised (alignmentFault i s) (s.leave s.mem s.pc)) := raiseAlign_eq _ _

theorem raiseCause_limit (w : Bool) (i : Instr) (s : State) :
    raiseCause w i s .limit = .fault (.raised (boundsFault i s) (interrupted w i s)) := raiseLimit_eq _ _

theorem alignmentFault_of_real {i : Instr} {s : State} (hm : s.mode = .realAddress) :
    alignmentFault i s = ⟨.gp, none, none⟩ := if_pos hm

theorem boundsFault_of_real {i : Instr} {s : State} (hm : s.mode = .realAddress) :
    boundsFault i s = ⟨.gp, none, none⟩ := if_pos hm

theorem boundsFault_of_ne {i : Instr} {s : State} (hm : s.mode ≠ .realAddress) :
    boundsFault i s = if operandSeg s i = .ss then ⟨.ss, some 0#32, none⟩ else ⟨.gp, some 0#32, none⟩ := if_neg hm

/-- 60_exceptions.md R186, R187: a misaligned operand raises #GP, or #AC at CPL 3 with alignment checking enabled. -/
theorem alignmentFault_cases (i : Instr) (s : State) :
    alignmentFault i s = ⟨.gp, if s.mode = .realAddress then none else some 0#32, none⟩
      ∨ (s.mode ≠ .realAddress ∧ currentCpl s = 3 ∧ acEnabled s = true ∧ alignmentFault i s = ⟨.ac, some 0#32, none⟩) := by
  by_cases hm : s.mode = .realAddress
  · exact .inl (by rw [alignmentFault_of_real hm, if_pos hm])
  · unfold alignmentFault
    simp only [if_neg hm]
    split
    · rename_i hac
      obtain ⟨hen, hcpl, _⟩ := hac
      exact .inr ⟨hm, hcpl, hen, rfl⟩
    · exact .inl rfl

/-- 60_exceptions.md R184, R187, R190: a byte outside its bounds raises #SS through SS, but in real-address mode, and #GP
elsewhere. -/
theorem boundsFault_cases (i : Instr) (s : State) :
    ((s.mode = .realAddress ∨ operandSeg s i ≠ .ss)
        ∧ boundsFault i s = ⟨.gp, if s.mode = .realAddress then none else some 0#32, none⟩)
      ∨ (s.mode ≠ .realAddress ∧ operandSeg s i = .ss ∧ boundsFault i s = ⟨.ss, some 0#32, none⟩) := by
  by_cases hm : s.mode = .realAddress
  · exact .inl ⟨.inl hm, by rw [boundsFault_of_real hm, if_pos hm]⟩
  · rw [boundsFault_of_ne hm, if_neg hm]
    by_cases hss : operandSeg s i = .ss
    · exact .inr ⟨hm, hss, if_pos hss⟩
    · exact .inl ⟨.inr hss, if_neg hss⟩

/-- `x` is a memory-operand fault that the operand of `i` has in `s` (60_exceptions.md R191). -/
inductive OperandFault (i : Instr) (s : State) (x : Exception) : Prop where
  | align (mis : (laxaOf s i).toNat % 64 ≠ 0) (eq : x = alignmentFault i s)
  | bounds (k : Nat) (lt : k < areaSize s) (outside : OutsideBounds i s k) (eq : x = boundsFault i s)
  | page (k : Nat) (lt : k < areaSize s) (kind : Access) (a : Nat) (fault : locate s i k kind = .error (.page a))
      (code : BitVec 32) (eq : x = ⟨.pf, some code, some a⟩)

/-- What a cause that applies raises is a memory-operand fault that the operand has. -/
theorem operandFault_of_cause {i : Instr} {s t : State} {x : Exception} {c : MemCause} (hl : launchRefusal i s = none)
    (hc : c ∈ memCauses (instrW i) i s) (hr : raiseCause (instrW i) i s c = .fault (.raised x t)) :
    OperandFault i s x := by
  obtain ⟨_, hconf, _, hxcr0, _⟩ := launchRefusal_eq_none hl
  rcases memCauses_cases hconf hxcr0 hc with ⟨rfl, hmis⟩ | ⟨f, rfl, k, hk, kind, hf⟩
  · rw [raiseCause_align] at hr
    cases hr
    exact .align (misaligned_iff.1 hmis) rfl
  · cases f with
    | limit =>
      rw [causeOf, raiseCause_limit] at hr
      cases hr
      exact .bounds k hk (locate_limit_iff.1 hf) rfl
    | page a =>
      cases hr
      exact .page k hk kind a hf _ rfl

/-- 60_exceptions.md R180, R191: what an exception that is raised can be. -/
theorem exec_fault_cases {i : Instr} {s t : State} {x : Exception} (h : exec i s = .fault (.raised x t)) :
    (undefinedOpcode i s = true ∧ x = ⟨.ud, none, none⟩)
      ∨ (taskSwitched s = true ∧ x = ⟨.nm, none, none⟩)
      ∨ OperandFault i s x := by
  rw [exec_eq] at h
  obtain ⟨hl, ⟨hu, hx, _⟩ | ⟨_, hts, hx, _⟩ | ⟨_, _, _, c, hc, hr⟩⟩ := saveCommon_fault h
  · exact .inl ⟨hu, hx⟩
  · exact .inr (.inl ⟨hts, hx⟩)
  · exact .inr (.inr (operandFault_of_cause hl hc hr))

/-- The kinds of the memory-operand faults. -/
theorem OperandFault.kind_cases {i : Instr} {s : State} {x : Exception} (h : OperandFault i s x) :
    x.kind = .gp ∨ x.kind = .ss ∨ x.kind = .pf ∨ x.kind = .ac := by
  cases h with
  | align _ eq => rcases alignmentFault_cases i s with h | ⟨_, _, _, h⟩ <;> simp [eq, h]
  | bounds _ _ _ eq => rcases boundsFault_cases i s with ⟨_, h⟩ | ⟨_, _, h⟩ <;> simp [eq, h]
  | page _ _ _ _ _ _ eq => simp [eq]

/-- 60_exceptions.md R187: in real-address mode every memory-operand fault is #GP without error code. -/
theorem OperandFault.eq_of_real {i : Instr} {s : State} {x : Exception} (h : OperandFault i s x)
    (hm : s.mode = .realAddress) : x = ⟨.gp, none, none⟩ := by
  cases h with
  | align _ eq => rw [eq, alignmentFault_of_real hm]
  | bounds _ _ _ eq => rw [eq, boundsFault_of_real hm]
  | page _ _ _ _ fault => exact absurd hm (locate_page fault).1

/-! ### #UD and #NM -/

/-- 60_exceptions.md R181: the causes of #UD. -/
theorem undefinedOpcode_iff {i : Instr} {s : State} : undefinedOpcode i s = true ↔
    hasLock i = true ∨ s.conf.cpuidXsave = false ∨ s.conf.cpuidXsaveopt = false ∨ s.cr4.getLsbD 18 = false := by
  simp [undefinedOpcode, osxsave, or_assoc]

theorem undefinedOpcode_eq_false {i : Instr} {s : State} (hlock : hasLock i = false) (hxsave : s.conf.cpuidXsave = true)
    (hopt : s.conf.cpuidXsaveopt = true) (hos : s.cr4.getLsbD 18 = true) : undefinedOpcode i s = false := by
  simp [undefinedOpcode, osxsave, hlock, hxsave, hopt, hos]

/-- 92_eei_decisions.md D4: #UD comes before every other check of a launch state that is not refused. -/
theorem exec_undefined {i : Instr} {s : State} (hl : launchRefusal i s = none) (hu : undefinedOpcode i s = true) :
    exec i s = .fault (.raised ⟨.ud, none, none⟩ s) := by
  rw [exec_eq]
  simp [saveCommon, hl, hu, raise]

/-- 92_eei_decisions.md D4: after #UD comes #NM. -/
theorem exec_taskSwitched {i : Instr} {s : State} (hl : launchRefusal i s = none) (hu : undefinedOpcode i s = false)
    (hts : taskSwitched s = true) : exec i s = .fault (.raised ⟨.nm, none, none⟩ s) := by
  rw [exec_eq]
  simp [saveCommon, hl, hu, hts, raise]

/-! ### Which cause is reported (60_exceptions.md R191) -/

theorem reportedCause_limit {s : State} {b : MemCause} {bs : List MemCause} (ho : s.conf.memFaultOrder = .limitAlignPage)
    (hl : .limit ∈ b :: bs) : reportedCause s b bs = .limit := by
  simp only [reportedCause, ho, if_pos hl]

theorem reportedCause_align {s : State} {b : MemCause} {bs : List MemCause} (ho : s.conf.memFaultOrder = .limitAlignPage)
    (hl : .limit ∉ b :: bs) (ha : .align ∈ b :: bs) : reportedCause s b bs = .align := by
  simp only [reportedCause, ho, if_neg hl, if_pos ha]

/-- Without paging no access to the area is a page fault. -/
theorem locate_ne_page_of_no_paging {i : Instr} {s : State} {k a : Nat} {kind : Access} (hp : s.paging = none) :
    locate s i k kind ≠ .error (.page a) := by
  unfold locate translate
  simp only [pageTranslate_of_no_paging (.inl hp)]
  repeat' split
  all_goals simp

/-- A cause that applies is raised where MemFaultOrder cannot prefer another. -/
theorem exec_raises {i : Instr} {s : State} {c : MemCause} (ha : Accepted i s) (he : Enabled i s)
    (hc : c ∈ memCauses (instrW i) i s)
    (hr : ∀ b bs, memCauses (instrW i) i s = b :: bs → reportedCause s b bs = c) :
    exec i s = raiseCause (instrW i) i s c := by
  rcases exec_of_enabled ha he with ⟨hnil, _⟩ | ⟨b, bs, hm, hx⟩
  · rw [hnil] at hc
    cases hc
  · rw [hx, hr b bs hm]

/-- A cause that applies is raised where no other does. -/
theorem exec_raises_of_unique {i : Instr} {s : State} {c : MemCause} (ha : Accepted i s) (he : Enabled i s)
    (hc : c ∈ memCauses (instrW i) i s) (hu : ∀ d ∈ memCauses (instrW i) i s, d = c) :
    exec i s = raiseCause (instrW i) i s c :=
  exec_raises ha he hc fun b bs hm => hu _ (hm ▸ reportedCause_mem s b bs)

/-- The misalignment is a cause that applies. -/
theorem align_mem_memCauses {w : Bool} {i : Instr} {s : State} (hmis : (laxaOf s i).toNat % 64 ≠ 0) :
    .align ∈ memCauses w i s := by
  simp [memCauses, misaligned_iff.2 hmis]

/-- Where the area is inside its bounds, no limit or canonical fault applies. -/
theorem limit_not_mem_memCauses {i : Instr} {s : State} (hl : launchRefusal i s = none)
    (hin : ∀ k < areaSize s, ¬OutsideBounds i s k) : .limit ∉ memCauses (instrW i) i s := by
  obtain ⟨_, hconf, _, hxcr0, _⟩ := launchRefusal_eq_none hl
  intro hc
  rcases memCauses_cases hconf hxcr0 hc with ⟨h, _⟩ | ⟨f, hfc, k, hk, kind, hf⟩
  · cases h
  · cases f with
    | limit => exact hin k hk (locate_limit_iff.1 hf)
    | page a => cases hfc

/-- Of a misaligned area that can be written, the misalignment is the one cause. -/
theorem memCauses_of_misaligned {i : Instr} {s : State} (hl : launchRefusal i s = none) (hall : AllAccessible i s)
    (hmis : (laxaOf s i).toNat % 64 ≠ 0) : memCauses (instrW i) i s = [.align] := by
  obtain ⟨_, hconf, _, hxcr0, _⟩ := launchRefusal_eq_none hl
  simp [memCauses, misaligned_iff.2 hmis, accessCauses_of_accessible hconf hxcr0 hall]

/-- Without paging, of an aligned operand, only the limit or canonical fault can apply. -/
theorem eq_limit_of_mem_memCauses {i : Instr} {s : State} {c : MemCause} (hl : launchRefusal i s = none)
    (hal : (laxaOf s i).toNat % 64 = 0) (hp : s.paging = none) (hc : c ∈ memCauses (instrW i) i s) : c = .limit := by
  obtain ⟨_, hconf, _, hxcr0, _⟩ := launchRefusal_eq_none hl
  rcases memCauses_cases hconf hxcr0 hc with ⟨_, hmis⟩ | ⟨f, rfl, k, _, kind, hf⟩
  · exact absurd hal (misaligned_iff.1 hmis)
  · cases f with
    | limit => rfl
    | page a => exact absurd hf (locate_ne_page_of_no_paging hp)

/-- 60_exceptions.md R183, R184, R190: a byte that is stored lies outside its bounds, where no other memory-operand fault
can take its place. -/
theorem exec_boundsFault {i : Instr} {s : State} {e : Store} (ha : Accepted i s) (he : Enabled i s)
    (hfirst : (laxaOf s i).toNat % 64 = 0 ∧ s.paging = none ∨ s.conf.memFaultOrder = .limitAlignPage)
    (hm : e ∈ operationStores (instrW i) i s) (hout : OutsideBounds i s e.1) :
    exec i s = .fault (.raised (boundsFault i s) (interrupted (instrW i) i s)) := by
  have hc : .limit ∈ memCauses (instrW i) i s := cause_of_store hm (locate_limit_iff.2 hout)
  rw [← raiseCause_limit]
  rcases hfirst with ⟨hal, hp⟩ | ho
  · exact exec_raises_of_unique ha he hc fun d hd => eq_limit_of_mem_memCauses ha.1 hal hp hd
  · exact exec_raises ha he hc fun b bs hbs => reportedCause_limit ho (hbs ▸ hc)

/-- 60_exceptions.md R186: the alignment fault, where the area can be written, or where no byte of it is outside its
bounds and the alignment comes before the page faults. -/
theorem exec_alignmentFault {i : Instr} {s : State} (ha : Accepted i s) (he : Enabled i s)
    (hfirst : AllAccessible i s
      ∨ s.conf.memFaultOrder = .limitAlignPage ∧ ∀ k < areaSize s, ¬OutsideBounds i s k)
    (hmis : (laxaOf s i).toNat % 64 ≠ 0) :
    exec i s = .fault (.raised (alignmentFault i s) (s.leave s.mem s.pc)) := by
  have hc : .align ∈ memCauses (instrW i) i s := align_mem_memCauses hmis
  rw [← raiseCause_align (instrW i)]
  rcases hfirst with hall | ⟨ho, hin⟩
  · refine exec_raises_of_unique ha he hc fun d hd => ?_
    rw [memCauses_of_misaligned ha.1 hall hmis] at hd
    exact List.mem_singleton.1 hd
  · exact exec_raises ha he hc fun b bs hbs =>
      reportedCause_align ho (hbs ▸ limit_not_mem_memCauses ha.1 hin) (hbs ▸ hc)

end Sys2Proof.Machine

namespace Sys2Proof.Proofs
open Sys2Proof.Machine

/-- Settles O44: the causes of #UD are the first check, and no other exception is #UD. -/
theorem invalidOpcodeRaised : Obligations.InvalidOpcodeRaised := by
  refine fun i s hl => ⟨fun h => exec_undefined hl (undefinedOpcode_iff.2 h), ?_⟩
  rintro ⟨hlock, hxsave, hopt, hos⟩ x t h hk
  rcases exec_fault_cases h with ⟨hu, _⟩ | ⟨_, rfl⟩ | hf
  · rw [undefinedOpcode_eq_false hlock hxsave hopt hos] at hu
    cases hu
  · cases hk
  · simpa [hk] using hf.kind_cases

/-- Settles O45: CR0.TS is the second check, and no other exception is #NM. -/
theorem deviceNotAvailableRaised : Obligations.DeviceNotAvailableRaised := by
  refine fun i s hl hlock hxsave hopt hos =>
    ⟨exec_taskSwitched hl (undefinedOpcode_eq_false hlock hxsave hopt hos), fun hts x t h hk => ?_⟩
  rcases exec_fault_cases h with ⟨_, rfl⟩ | ⟨hts', _⟩ | hf
  · cases hk
  · exact Bool.eq_false_iff.1 hts hts'
  · simpa [hk] using hf.kind_cases

/-- Settles O47: the misalignment is the one cause, or comes first; #AC needs AcPolicy's choice besides. -/
theorem alignmentFaultRaised : Obligations.AlignmentFaultRaised := by
  intro i s ha he hfirst hmis
  rw [exec_alignmentFault ha he hfirst hmis]
  cases hp : Config.acPolicy (laxaOf s i) <;> simp [alignmentFault, acEnabled, hp, and_assoc]

/-- Settles O48: a byte above the segment limit is outside its bounds in the three modes. -/
theorem segmentLimitFaultRaised : Obligations.SegmentLimitFaultRaised := by
  intro i s e hmode ha he hfirst hm hlim
  have hout : OutsideBounds i s e.1 := by
    rcases hmode with hmode | hmode | hmode <;> simpa only [OutsideBounds, hmode] using hlim
  have hne : s.mode ≠ .realAddress := by
    rcases hmode with hmode | hmode | hmode <;> simp [hmode]
  exact ⟨_, boundsFault_of_ne hne ▸ exec_boundsFault ha he hfirst hm hout⟩

/-- Settles O49: a non-canonical byte is outside its bounds in 64-bit mode. -/
theorem nonCanonicalFaultRaised : Obligations.NonCanonicalFaultRaised := by
  intro i s e hmode ha he hfirst hm hcan
  have hout : OutsideBounds i s e.1 := by simpa only [OutsideBounds, hmode] using hcan
  have hne : s.mode ≠ .realAddress := by simp [hmode]
  exact ⟨_, boundsFault_of_ne hne ▸ exec_boundsFault ha he hfirst hm hout⟩

/-- Settles O50: the byte cannot be written, so the execution faults, and in real-address mode every memory-operand fault
is the same. -/
theorem realModeBoundFaultRaised : Obligations.RealModeBoundFaultRaised := by
  intro i s e hmode ha he hm hlim
  have hout : OutsideBounds i s e.1 := by simpa only [OutsideBounds, hmode] using hlim
  have hfault : accessFault s i e.1 .write ≠ none := by
    rw [accessFault_eq_some.2 (locate_limit_iff.2 hout)]
    simp
  obtain ⟨c, hc, x, t, hx, hr⟩ := exec_fault_of_not_completes ha he (exec_ne_next_of_store_fault hm hfault)
  exact ⟨t, (operandFault_of_cause ha.1 hc hr).eq_of_real hmode ▸ hx⟩

/-- Settles O53: of the exceptions only the page fault of a byte of the area is #PF. -/
theorem pageFaultReported : Obligations.PageFaultReported := by
  intro i s t x h hk
  rcases exec_fault_cases h with ⟨_, rfl⟩ | ⟨_, rfl⟩ | hf
  · cases hk
  · cases hk
  · cases hf with
    | align _ eq => rcases alignmentFault_cases i s with h | ⟨_, _, _, h⟩ <;> simp [eq, h] at hk
    | bounds _ _ _ eq => rcases boundsFault_cases i s with ⟨_, h⟩ | ⟨_, _, h⟩ <;> simp [eq, h] at hk
    | page k hlt kind a fault code eq =>
      subst eq
      obtain ⟨hreal, hlin⟩ := locate_page fault
      exact ⟨hreal, rfl, k, hlt, kind, a, fault, rfl, hlin⟩

/-- Settles O54: the shape of each exception, by what raised it. -/
theorem exceptionShape : Obligations.ExceptionShape := by
  intro i s t x h
  rcases exec_fault_cases h with ⟨_, rfl⟩ | ⟨_, rfl⟩ | hf
  · exact ⟨rfl, rfl⟩
  · exact ⟨rfl, rfl⟩
  · cases hf with
    | align mis eq =>
      rw [eq]
      rcases alignmentFault_cases i s with h | ⟨hreal, hcpl, hen, h⟩ <;> rw [h]
      · exact ⟨rfl, rfl, .inl mis⟩
      · exact ⟨hreal, hcpl, hen, mis, rfl, rfl⟩
    | bounds k hlt outside eq =>
      rw [eq]
      rcases boundsFault_cases i s with ⟨hseg, h⟩ | ⟨hreal, hss, h⟩ <;> rw [h]
      · exact ⟨rfl, rfl, .inr ⟨hseg, k, hlt, outside⟩⟩
      · exact ⟨hreal, hss, rfl, rfl, k, hlt, outside⟩
    | page k _ kind a fault code eq =>
      subst eq
      exact ⟨(locate_page fault).1, rfl, rfl⟩

/-- Settles O60: CR4.OSXSAVE is 0 after reset. -/
theorem undefinedAfterReset : Obligations.UndefinedAfterReset :=
  fun _ hl => exec_undefined hl (undefinedOpcode_iff.2 (.inr (.inr (.inr rfl))))

end Sys2Proof.Proofs
end

section
/-! PROOFS. The machine after reset (10_state.md R45). -/

namespace Sys2Proof.Proofs

/-- Settles O59: each value is the field that the definition of reset sets, read off one conjunct at a time. -/
theorem resetValues : Obligations.ResetValues :=
  ⟨rfl, rfl, rfl, rfl, rfl, rfl, rfl, rfl, rfl, rfl, rfl, rfl, rfl⟩

end Sys2Proof.Proofs
end
